-- ==== Sys2Proof/Word.lean ====
section
/-! DEFINITION. The words of the eFUSE array programmer: 32-bit register words, bytes of the host
byte streams, 12-bit physical bit addresses (00_scope.md R8, R10). -/

namespace Sys2Proof

/-- A 32-bit unsigned register word (R10). -/
abbrev Word32 := BitVec 32

/-- A byte of a host byte stream (R54). -/
abbrev Byte := BitVec 8

/-- A 12-bit physical bit address (R8 `PADDR_BITS`, R81). -/
abbrev PhysBit := BitVec 12

/-- Who issues requests (R24 `RequesterId`). DESIGN CHOICE (safe, log 24): a Nat with no bound; no rule gives the type
a form, a width or a bound, and no register holds one (R259). -/
abbrev RequesterId := Nat

end Sys2Proof
end

