-- ==== Sys2Proof/Config.lean ====
section
/-! DEFINITION. What is fixed for a run: the parameters the source fixes (R8), the record of those it
leaves open (R9, R25), and the constants with no body that stand for every value the spec leaves free. -/

namespace Sys2Proof

/-- The error kinds the block reports (R240). -/
inductive ErrorKind where
  | errFault
  | errIO
  | errUnsupported
  | errResource
  | errTimeout
  deriving DecidableEq, Repr

/-- A fuse cell's state (R35, R232 OA4): Blank, Weak and Blown, in rising order. The one-bit cell of R35
is programmed when it is Blown; log 6. -/
inductive CellState where
  | blank
  | weak
  | blown
  deriving DecidableEq, Repr, Inhabited

/-! ### Fixed parameters (R8) -/

/-- Span of the register window, in bytes. -/
def winSpan : Nat := 0x1000
def offMode : Word32 := 0x0
def offAdr : Word32 := 0x4
def offDirCmd : Word32 := 0x8
def offRdData : Word32 := 0xC
def offStatus : Word32 := 0x10
def offOneWay : Word32 := 0x14
/-- Offset of SHADOW[0]; the region is `vsize` bytes long. -/
def shadowOff : Word32 := 0x100
/-- Size of the virtual fuse space, in bytes. -/
def vsize : Nat := 256
/-- Physical words (R8 `NPHYS_WORDS`). -/
def nPhysWords : Nat := 128
/-- Physical fuse bits (R8 `NBITS`). -/
def nBits : Nat := 4096
/-- Failing rows that make WRITE_WORD fail (R8 `ERR_THRESHOLD`). -/
def errThreshold : Nat := 2
/-- Length of a byte-stream write (R8 `STREAM_WRITE_LEN`). -/
def streamWriteLen : Nat := 8

/-! ### The configuration (R9, R25) -/

/-- The parameters the source leaves open, as plain data; the model holds one such record in its state
and nothing changes it (R25). -/
structure Config where
  mAread : Word32
  mMread : Word32
  mPrg : Word32
  mPwrDn : Word32
  mCmd : Word32
  sBusy : Word32
  refreshCmd : Word32
  pollLimit : Option Nat
  programmingEnabled : Bool
  disabledWriteError : ErrorKind
  /-- IOCTL_READ. That a control request code is a 32-bit word is a DESIGN CHOICE (log 1). -/
  ioctlRead : Word32
  /-- IOCTL_WRITE, 32 bits by the same choice. -/
  ioctlWrite : Word32
  deriving DecidableEq, Repr

/-- OPEN control request code IOCTL_READ (R90, D26). DESIGN CHOICE (safe, log 1): a code is a 32-bit word; R9, R90 and
R203 give no width. -/
opaque Config.openIoctlRead : Word32

/-- OPEN control request code IOCTL_WRITE (R90, D26). DESIGN CHOICE (safe, log 1): a code is a 32-bit word. -/
opaque Config.openIoctlWrite : Word32
/-- OPEN base address of the register window (R9, D1, I23); the model works in offsets. DESIGN CHOICE (safe, log 1): it is
a Nat with no bound, and an offset is added to it without wrap; no rule gives its width. -/
opaque Config.winBase : Nat
/-- OPEN numeric code of each error kind (R9, D36, I22); the block reports the kind. -/
opaque Config.errCode : ErrorKind → Int

/-- The defaults of R9. The mask positions and the refresh word are general knowledge there (I1, I2). -/
def Config.default : Config where
  mAread := 0x01
  mMread := 0x02
  mPrg := 0x04
  mPwrDn := 0x08
  mCmd := 0x10
  sBusy := 0x01
  refreshCmd := 0x30
  pollLimit := none
  programmingEnabled := false
  disabledWriteError := .errUnsupported
  ioctlRead := Config.openIoctlRead
  ioctlWrite := Config.openIoctlWrite

/-! ### Free values: what the spec leaves open, as constants nothing can evaluate -/

/-- The n-th free 32-bit answer of a register read (R230; log 7). -/
opaque Config.freeWord : Nat → Word32
/-- The n-th free Bool result of the clock gate, a user copy or the mapping (R12, R124, R208; log 7). -/
opaque Config.freeBool : Nat → Bool
/-- The n-th free contents of the 64 shadow registers after a refresh (R226, ShadowMap; log 7). -/
opaque Config.freeShadow : Nat → Vector Word32 64
/-- The n-th free state a pulse drives its cell to (R224, R232; log 6, log 7). -/
opaque Config.freeCell : Nat → CellState
/-- The n-th free choice among the requesters waiting for the lock (D17; log 8). -/
opaque Config.freeChoice : Nat → Nat
/-- What the window register at an offset holds at reset, where the spec says it is a draw at reset
(R32, R41, R270; log 5). -/
opaque Config.resetWord : Nat → Word32

end Sys2Proof
end

