-- ==== Sys2Proof/Syntax.lean ====
section
/-! DEFINITION. The operation set: one constructor per row of spec/opcode_table.json, and the fuse macro's
commands (30_encoding.md R80 to R99, 48_macro_commands.md R220). -/

namespace Sys2Proof

/-- Array read or margin read (R151, R221). -/
inductive ReadKind where
  | array
  | margin
  deriving DecidableEq, Repr

/-- What the fuse macro makes of a word written to MODE (R220). -/
inductive Command where
  | refresh
  | powerDown
  | powerOn
  | read (kind : ReadKind)
  | program
  | undefined
  deriving DecidableEq, Repr

/-- One constructor per row of the opcode table, in its order. -/
inductive Instr where
  /-- `CW_AREAD`: the array-read command word written to MODE (R86, R221). -/
  | cwAread
  /-- `CW_MREAD`: the margin-read command word written to MODE (R86, R221). -/
  | cwMread
  /-- `CW_PROG`: the program command word written to MODE (R86, R224). -/
  | cwProg
  /-- `CW_PWRON`: the power-on command word written to MODE (R86, R222). -/
  | cwPwron
  /-- `CW_PWRDN`: the power-down command word written to MODE (R86, R223). -/
  | cwPwrdn
  /-- `CW_REFRESH`: the refresh command word written to MODE (R86, R226). -/
  | cwRefresh
  /-- `CW_UNDEFINED`: a word outside the command map written to MODE (R88, R227). -/
  | cwUndefined (v : Word32)
  /-- `ADR_PROG`: a program address written to ADR (R81): bit, word, row. -/
  | adrProg (b : BitVec 5) (w : BitVec 6) (r : BitVec 1)
  /-- `ADR_READ`: a read address written to ADR (R82): word, row. -/
  | adrRead (w : BitVec 6) (r : BitVec 1)
  /-- `STATUS_READY`: a STATUS read answered with BUSY clear, which ends a wait (R85, R120). -/
  | statusReady (v : Word32)
  /-- `STREAM_WRITE_PAYLOAD`: the 8-byte payload of the byte-stream write, at its port (R92, R204). -/
  | streamWritePayload (addr value : Word32)
  /-- `RDMODE_ARRAY`: READ_PHYS with the ArrayRead mode operand (R94, R150). -/
  | rdmodeArray (pw : Word32)
  /-- `RDMODE_MARGIN`: READ_PHYS with the MarginRead mode operand (R94, R150). -/
  | rdmodeMargin (pw : Word32)
  /-- `RD_REG` (R110). -/
  | rdReg (off : Word32)
  /-- `WR_REG` (R111). -/
  | wrReg (off v : Word32)
  /-- `SET_BITS` (R112). -/
  | setBits (off mask : Word32)
  /-- `WAIT_READY` (R120). -/
  | waitReady
  /-- `POWER` (R121). -/
  | power (en : Bool)
  /-- `REFRESH` (R122). -/
  | refresh
  /-- `INIT` (R124). -/
  | init
  /-- `TEARDOWN` (R125). -/
  | teardown
  /-- `COMPOSE` (R130). -/
  | compose (w b r : Word32)
  /-- `PHYS_WORD` (R131). -/
  | physWord (vw r : Word32)
  /-- `WORD_INDEX` (R132). -/
  | wordIndex (addr : Word32)
  /-- `PROGRAM_BIT` (R140). -/
  | programBit (w b r : Word32)
  /-- `READ_PHYS` (R150). -/
  | readPhys (pw mode : Word32)
  /-- `WRITE_WORD` (R160). -/
  | writeWord (vw value : Word32)
  /-- `READ_SHADOW` (R180). -/
  | readShadow (addr : Word32)
  /-- `READ_BUF` (R183). -/
  | readBuf (n : Nat)
  /-- `H_CTRL_READ` (R201). -/
  | hCtrlRead (addr : Word32)
  /-- `H_CTRL_WRITE` (R202). -/
  | hCtrlWrite (addr value : Word32)
  /-- `H_CTRL_OTHER` (R203). The code's 32 bits are a DESIGN CHOICE (log 1). -/
  | hCtrlOther (code : Word32)
  /-- `H_STREAM_WRITE` (R204). -/
  | hStreamWrite (bytes : List Byte)
  /-- `H_STREAM_READ` (R205). -/
  | hStreamRead (off n : Nat)
  /-- `H_WRITE32`: the pseudo-operation of R99. -/
  | hWrite32 (addr value : Word32)
  deriving DecidableEq, Repr

/-- Where a binary encoding stands (R80): which register or payload a group of bytes is. The same word
means different things in different places, so a decoder is told the place. -/
inductive Channel where
  /-- A word written to MODE (R86, R220). -/
  | modeWord
  /-- A word written to ADR before a program command (R81). -/
  | adrProgram
  /-- A word written to ADR before a read command (R82). -/
  | adrRead
  /-- A word read from STATUS (R85). -/
  | statusValue
  /-- The mode operand of READ_PHYS (R94), then its physical word operand. -/
  | readMode
  /-- The payload of the byte-stream write (R92). -/
  | streamPayload
  deriving DecidableEq, Repr

/-- Why the decoder rejects. -/
inductive DecodeError where
  /-- Not the number of bytes the place holds (R92, R95). -/
  | wrongLength
  /-- A bit the ADR format fixes at 0 is set (R81, R82). -/
  | adrReservedBits
  /-- BUSY is set: not a STATUS_READY value (R85). -/
  | statusBusy
  /-- Neither read mode (R94). -/
  | unknownReadMode
  deriving DecidableEq, Repr

end Sys2Proof
end

