-- ==== Sys2Proof/Decode.lean ====
section
/-! DEFINITION. The encodings of 30_encoding.md: byte order, command words, the fuse macro's command decoder,
the ADR formats, the STATUS and read-mode words, the stream payload and the control codes; a decoder total on
any bytes, and the encoder beside it. -/

namespace Sys2Proof

/-! ### Byte order (R54, R92): the byte at the lower place holds bits 7 to 0 -/

/-- Byte `t` of a word, byte 0 the least significant. -/
def byteOfWord (v : Word32) (t : Nat) : Byte := v.extractLsb' (8 * t) 8

/-- The four bytes of a word, least significant first. -/
def bytesOfWord (v : Word32) : List Byte :=
  [byteOfWord v 0, byteOfWord v 1, byteOfWord v 2, byteOfWord v 3]

/-- The word whose bytes, least significant first, are the four given (R204). -/
def wordOfBytes (b0 b1 b2 b3 : Byte) : Word32 :=
  b0.setWidth 32 ||| (b1.setWidth 32 <<< 8) ||| (b2.setWidth 32 <<< 16) ||| (b3.setWidth 32 <<< 24)

/-- The 8-byte stream payload: addr, then value (R92, R99). -/
def payloadBytes (addr value : Word32) : List Byte := bytesOfWord addr ++ bytesOfWord value

/-! ### Command words (R86) -/

def Config.cwAread (c : Config) : Word32 := c.mAread ||| c.mCmd
def Config.cwMread (c : Config) : Word32 := c.mMread ||| c.mCmd
def Config.cwProg (c : Config) : Word32 := c.mPrg ||| c.mCmd
def Config.cwPwron (c : Config) : Word32 := c.mCmd
def Config.cwPwrdn (c : Config) : Word32 := c.mPwrDn ||| c.mCmd
def Config.cwRefresh (c : Config) : Word32 := c.refreshCmd

/-- The five command words other than the refresh command. -/
def Config.plainWords (c : Config) : List Word32 :=
  [c.cwAread, c.cwMread, c.cwProg, c.cwPwron, c.cwPwrdn]

/-- The six words that are commands (R86); every other word is CW_UNDEFINED (R88). -/
def Config.commandWords (c : Config) : List Word32 := c.cwRefresh :: c.plainWords

/-- The three operation bits of MODE (R87). -/
def Config.opMask (c : Config) : Word32 := c.mAread ||| c.mMread ||| c.mPrg

/-- The bits of MODE outside the five masks (R87 `rest`). -/
def Config.restMask (c : Config) : Word32 := ~~~(c.opMask ||| c.mPwrDn ||| c.mCmd)

/-- The fuse macro's command decoder, branch by branch as R220 gives it. -/
def decodeCommand (c : Config) (v : Word32) : Command :=
  if v = c.refreshCmd then .refresh
  else if v &&& c.mCmd = 0 ∨ v &&& c.restMask ≠ 0 then .undefined
  else if v &&& c.mPwrDn ≠ 0 then
    if v &&& c.opMask = 0 then .powerDown else .undefined
  else if v &&& c.opMask = 0 then .powerOn
  else if v &&& c.opMask = c.mAread then .read .array
  else if v &&& c.opMask = c.mMread then .read .margin
  else if v &&& c.opMask = c.mPrg then .program
  else .undefined

/-! ### One decoder per place -/

/-- A word written to MODE (R87, R88): every word has a row. -/
def decodeMode (c : Config) (v : Word32) : Instr :=
  match decodeCommand c v with
  | .refresh => .cwRefresh
  | .powerDown => .cwPwrdn
  | .powerOn => .cwPwron
  | .read .array => .cwAread
  | .read .margin => .cwMread
  | .program => .cwProg
  | .undefined => .cwUndefined v

/-- ADR program format (R81): bits 31:12 are 0. -/
def decodeAdrProg (v : Word32) : Except DecodeError Instr :=
  if v.extractLsb' 12 20 = 0 then
    .ok (.adrProg (v.extractLsb' 7 5) (v.extractLsb' 1 6) (v.extractLsb' 0 1))
  else .error .adrReservedBits

/-- ADR read format (R82): bits 31:7 are 0. -/
def decodeAdrRead (v : Word32) : Except DecodeError Instr :=
  if v.extractLsb' 7 25 = 0 then
    .ok (.adrRead (v.extractLsb' 1 6) (v.extractLsb' 0 1))
  else .error .adrReservedBits

/-- The BUSY test of R85: only the bit of `sBusy` counts. -/
def isReadyWord (c : Config) (v : Word32) : Bool := v &&& c.sBusy == 0

/-- A STATUS value (R85). -/
def decodeStatus (c : Config) (v : Word32) : Except DecodeError Instr :=
  if isReadyWord c v then .ok (.statusReady v) else .error .statusBusy

/-- The read-mode operand (R94), with the physical word operand that goes with it. -/
def decodeReadMode (c : Config) (mode pw : Word32) : Except DecodeError Instr :=
  if mode = c.mAread then .ok (.rdmodeArray pw)
  else if mode = c.mMread then .ok (.rdmodeMargin pw)
  else .error .unknownReadMode

/-- The control request a code names (R89, R90, D26), its payload fields already taken out (R91). That the code is a
32-bit word is a DESIGN CHOICE (log 1): no rule gives its width. -/
def decodeCtrl (c : Config) (code addr value : Word32) : Instr :=
  if code = c.ioctlRead then .hCtrlRead addr
  else if code = c.ioctlWrite then .hCtrlWrite addr value
  else .hCtrlOther code

/-- The decoder: any bytes at any place. -/
def decode (c : Config) : Channel → List Byte → Except DecodeError Instr
  | .modeWord, [b0, b1, b2, b3] => .ok (decodeMode c (wordOfBytes b0 b1 b2 b3))
  | .adrProgram, [b0, b1, b2, b3] => decodeAdrProg (wordOfBytes b0 b1 b2 b3)
  | .adrRead, [b0, b1, b2, b3] => decodeAdrRead (wordOfBytes b0 b1 b2 b3)
  | .statusValue, [b0, b1, b2, b3] => decodeStatus c (wordOfBytes b0 b1 b2 b3)
  | .readMode, [b0, b1, b2, b3, b4, b5, b6, b7] =>
    decodeReadMode c (wordOfBytes b0 b1 b2 b3) (wordOfBytes b4 b5 b6 b7)
  | .streamPayload, [b0, b1, b2, b3, b4, b5, b6, b7] =>
    .ok (.streamWritePayload (wordOfBytes b0 b1 b2 b3) (wordOfBytes b4 b5 b6 b7))
  | _, _ => .error .wrongLength

/-! ### The encoder -/

/-- ADR program format as a word (R81). -/
def encodeAdrProg (b : BitVec 5) (w : BitVec 6) (r : BitVec 1) : Word32 :=
  (b.setWidth 32 <<< 7) ||| (w.setWidth 32 <<< 1) ||| r.setWidth 32

/-- ADR read format as a word (R82). -/
def encodeAdrRead (w : BitVec 6) (r : BitVec 1) : Word32 :=
  (w.setWidth 32 <<< 1) ||| r.setWidth 32

/-- The place and the bytes of an instruction that has a binary encoding; operations and host requests are
selected by name and have none (R80, D32), and H_WRITE32 is the pseudo-operation `expandWrite32`. -/
def encode (c : Config) : Instr → Option (Channel × List Byte)
  | .cwAread => some (.modeWord, bytesOfWord c.cwAread)
  | .cwMread => some (.modeWord, bytesOfWord c.cwMread)
  | .cwProg => some (.modeWord, bytesOfWord c.cwProg)
  | .cwPwron => some (.modeWord, bytesOfWord c.cwPwron)
  | .cwPwrdn => some (.modeWord, bytesOfWord c.cwPwrdn)
  | .cwRefresh => some (.modeWord, bytesOfWord c.cwRefresh)
  | .cwUndefined v => some (.modeWord, bytesOfWord v)
  | .adrProg b w r => some (.adrProgram, bytesOfWord (encodeAdrProg b w r))
  | .adrRead w r => some (.adrRead, bytesOfWord (encodeAdrRead w r))
  | .statusReady v => some (.statusValue, bytesOfWord v)
  | .streamWritePayload addr value => some (.streamPayload, payloadBytes addr value)
  | .rdmodeArray pw => some (.readMode, bytesOfWord c.mAread ++ bytesOfWord pw)
  | .rdmodeMargin pw => some (.readMode, bytesOfWord c.mMread ++ bytesOfWord pw)
  | .rdReg _ => none
  | .wrReg _ _ => none
  | .setBits _ _ => none
  | .waitReady => none
  | .power _ => none
  | .refresh => none
  | .init => none
  | .teardown => none
  | .compose _ _ _ => none
  | .physWord _ _ => none
  | .wordIndex _ => none
  | .programBit _ _ _ => none
  | .readPhys _ _ => none
  | .writeWord _ _ => none
  | .readShadow _ => none
  | .readBuf _ => none
  | .hCtrlRead _ => none
  | .hCtrlWrite _ _ => none
  | .hCtrlOther _ => none
  | .hStreamWrite _ => none
  | .hStreamRead _ _ => none
  | .hWrite32 _ _ => none

/-- What H_WRITE32 stands for (R99). -/
def expandWrite32 (addr value : Word32) : Instr := .hStreamWrite (payloadBytes addr value)

/-! ### The opcode table's words -/

/-- The place a 32-bit word of the table is taken to stand in when the word alone is given. The rows' words
overlap, being values of different registers; the most specific row wins (log 9). -/
def tablePlace (c : Config) (v : Word32) : Channel :=
  if c.commandWords.contains v then .modeWord
  else if v = c.mAread ∨ v = c.mMread then .readMode
  else if v = 0 then .statusValue
  else if v.extractLsb' 7 25 = 0 then .adrRead
  else if v.extractLsb' 12 20 = 0 then .adrProgram
  else if isReadyWord c v then .statusValue
  else .modeWord

/-- The bytes of a table word of `nbits` bits, the first byte the least significant, at its place; the operand
word of a read mode, which the table gives no bits, is 0. -/
def tableBytes (c : Config) (nbits w : Nat) : Option (Channel × List Byte) :=
  if nbits = 32 then
    let v := BitVec.ofNat 32 w
    match tablePlace c v with
    | .readMode => some (.readMode, bytesOfWord v ++ bytesOfWord 0)
    | ch => some (ch, bytesOfWord v)
  else if nbits = 64 then
    some (.streamPayload, payloadBytes (BitVec.ofNat 32 w) (BitVec.ofNat 32 (w / 2 ^ 32)))
  else none

/-- The instruction the decoder reads from a word of the opcode table, under the default masks the table is
written for (I3). -/
def decodeTableWord (nbits w : Nat) : Option Instr :=
  match tableBytes Config.default nbits w with
  | some (ch, bytes) => (decode Config.default ch bytes).toOption
  | none => none

end Sys2Proof
end

