-- ==== Sys2Proof/Machine/Operands.lean ====
section
/-! DEFINITION. Every operand form of the operations: register offsets (R110 to R112), rows, addresses and
physical words (R59, R133, R150), and the bit-address translator (R130 to R135). -/

namespace Sys2Proof.Machine
open Sys2Proof

/-! ### Register offsets -/

/-- SHADOW_OFF + 4k with k < 64 (R32, R110). -/
def isShadowOffset (off : Word32) : Bool :=
  decide (0x100 ≤ off.toNat) && decide (off.toNat < 0x200) && off.toNat % 4 == 0

/-- The k of SHADOW_OFF + 4k: bits 7 to 2 of the offset (R32). -/
def shadowIndex (off : Word32) : BitVec 6 := off.extractLsb' 2 6

/-- The offsets RD_REG admits (R110). -/
def isReadableOffset (off : Word32) : Bool :=
  off == offMode || off == offAdr || off == offRdData || off == offStatus || isShadowOffset off

/-- The offsets WR_REG admits (R111). -/
def isWritableOffset (off : Word32) : Bool := off == offMode || off == offAdr

/-- The offset SET_BITS admits (R112). -/
def isSetBitsOffset (off : Word32) : Bool := off == offMode

/-- The physical address an access to an offset goes to (R11). -/
def busAddress (off : Word32) : Nat := Config.winBase + off.toNat

/-! ### Virtual addresses, rows, physical words -/

/-- addr < 256 (R59, R180). -/
def addrInRange (addr : Word32) : Bool := decide (addr.toNat < vsize)

/-- addr % 4 = 0 (R56, R180). -/
def addrAligned (addr : Word32) : Bool := addr.toNat % 4 == 0

/-- A row operand: 0 or 1 (R133). -/
def isRow (r : Word32) : Bool := r == 0 || r == 1

/-- A physical word address: below 128 (R150, D5). -/
def isPhysWord (pw : Word32) : Bool := decide (pw.toNat < nPhysWords)

/-- A physical bit address held in ADR: below 4096 (R224, R228). -/
def isPhysBit (a : Word32) : Bool := decide (a.toNat < nBits)

/-! ### The bit-address translator -/

/-- COMPOSE's formula, row operand already checked (R130). -/
def composeAddr (w b r : Word32) : Word32 :=
  ((b &&& 0x1F) <<< 7) ||| ((w &&& 0x3F) <<< 1) ||| r

/-- PHYS_WORD's formula, row operand already checked (R131). -/
def physWordAddr (vw r : Word32) : Word32 := ((vw &&& 0x3F) <<< 1) ||| r

/-- WORD_INDEX (R132). -/
def wordIndexOf (addr : Word32) : Word32 := addr >>> 2

/-- The 12-bit physical bit address a word below 4096 holds (R27 ADR[11:0]). -/
def physBitOf (a : Word32) : PhysBit := a.setWidth 12

/-- The bit field of a physical bit address (R134). -/
def bitOf (pa : PhysBit) : BitVec 5 := pa.extractLsb' 7 5
/-- The virtual word field of a physical bit address (R134). -/
def wordOf (pa : PhysBit) : BitVec 6 := pa.extractLsb' 1 6
/-- The row field of a physical bit address (R134). -/
def rowOf (pa : PhysBit) : BitVec 1 := pa.extractLsb' 0 1
/-- The physical word that holds a physical bit (R35, R134). -/
def physWordOf (pa : PhysBit) : BitVec 7 := pa.extractLsb' 0 7

/-! ### The stream payload (R92, R204) -/

/-- The four bytes from place `n` as a word; a byte past the end reads 0 (only lists of 8 bytes reach this,
R204). -/
def wordAt (bytes : List Byte) (n : Nat) : Word32 :=
  wordOfBytes (bytes.getD n 0) (bytes.getD (n + 1) 0) (bytes.getD (n + 2) 0) (bytes.getD (n + 3) 0)

/-- The addr field of a stream payload (R92). -/
def payloadAddr (bytes : List Byte) : Word32 := wordAt bytes 0
/-- The value field of a stream payload (R92). -/
def payloadValue (bytes : List Byte) : Word32 := wordAt bytes 4

end Sys2Proof.Machine
end

