-- ==== Sys2Proof/Machine/State.lean ====
section
/-! DEFINITION. The state of the machine as plain data (10_state.md), the reasons it can stop, and the state
after reset (R41, R270). -/

namespace Sys2Proof.Machine
open Sys2Proof

/-! ### Why a step can stop -/

/-- Model faults: the fuse macro was given a word the source gives no meaning (R247). -/
inductive Fault where
  /-- Raised by a write to MODE of a word outside the command map (R227), with the word and `modeLast`, which
  that write has set (R111). Safe: the spec gives no effect. -/
  | macroUndefined (v : Word32) (modeLast : Option Word32)
  /-- Raised by a read command decoded while `powered` is not `some true` (R221), whatever ADR
  holds (log 25). Safe. -/
  | readUnpowered
  /-- Raised by a program command, or a read command with the power on (log 25), decoded with no valid address in
  ADR (R228). Safe. -/
  | adrInvalid
  deriving DecidableEq, Repr

/-- Model refusals: an operation was invoked outside its contract (R247). -/
inductive Refusal where
  /-- Raised by exec's arm of an instruction that has no meaning yet. Safe. -/
  | notModelled (mnemonic : String)
  /-- Raised by COMPOSE, PHYS_WORD and PROGRAM_BIT for a row outside 0 and 1 (R133, D28). Safe. -/
  | rowOutOfRange
  /-- Raised by RD_REG, WR_REG and SET_BITS for an offset outside their contract (R110 to R112, D21). Safe. -/
  | offsetUndefined
  /-- Raised by READ_PHYS for a physical word of 128 or more (R150, D5). Safe. -/
  | physWordOutOfRange
  /-- Raised by INIT while the window is mapped (R124, I20). Safe. -/
  | initTwice
  /-- Raised by TEARDOWN while the window is not mapped (R125, I20). Safe. -/
  | notMapped
  /-- Raised by a register primitive, or a word written to MODE or ADR, at top level while the window is not
  mapped (R110, R245, R247). Safe. -/
  | primitiveUnmapped
  deriving DecidableEq, Repr

/-! ### Results -/

/-- The reason tags of R240; the block reports the kind only (R248). -/
inductive Reason where
  | addrRange
  | addrAlign
  | sizeMismatch
  | userCopy
  | verifyFailed
  | unknownReadMode
  | unknownCtrlRequest
  | programmingDisabled
  | clockUnavailable
  | mapFailed
  | unmapped
  | readyTimeout
  deriving DecidableEq, Repr

/-- What an operation returns (R14): `()`, a Word32, a byte list, or the count of a stream write. -/
inductive Value where
  | unit
  | word (v : Word32)
  | bytes (bs : List Byte)
  /-- The 8 of `Ok(8)` (R204, D35). DESIGN CHOICE (safe, log 23): its form is a Nat; R14 lists no count. -/
  | count (n : Nat)
  deriving DecidableEq, Repr

/-- How an operation ends (R14): with a value, or with an error kind and, for the reader, its reason. -/
inductive OpResult where
  | ok (v : Value)
  | error (kind : ErrorKind) (why : Reason)
  deriving DecidableEq, Repr

/-- The bus trace's events (R38). -/
inductive BusEvent where
  | rd (off val : Word32)
  | wr (off val : Word32)
  | clkOn (ok : Bool)
  | clkOff
  deriving DecidableEq, Repr

/-! ### Control state (R23) -/

/-- One step of the sequencer inside an operation: a bus, clock-gate or control primitive of R11 to R13, a test or an
assignment of the pseudocode, or a state of the program-verify state machine (R161) or of a loop. `return` is the end
of a frame's phase. -/
inductive Prim where
  /-- BusRead of an offset RD_REG admits (R11, R110): the value goes to `ret`. -/
  | regRead (off : Word32)
  /-- BusWrite of an offset WR_REG admits (R11, R111). -/
  | regWrite (off v : Word32)
  /-- The BusWrite of CW_PROG that PROGRAM_BIT makes, with its entry in `attemptLog` (R140, C11). -/
  | pulseWrite
  /-- ClockEnable (R12, R180): `clockOn` becomes its result. -/
  | clockEnable
  /-- ClockDisable (R12, R180). -/
  | clockDisable
  /-- `call` of an operation (R13). -/
  | call (op : Instr)
  /-- SET_BITS's `call WR_REG(off, mr | mask)`, `mr` being the value just read (R112). -/
  | callWriteOr (off mask : Word32)
  /-- PROGRAM_BIT's `call WR_REG(OFF_MODE, M_PRG | M_CMD)` (R140). -/
  | callPulse
  /-- `raise` (R13). -/
  | raise (kind : ErrorKind) (why : Reason)
  /-- `refuse` (R13). -/
  | refuse (why : Refusal)
  /-- WAIT_READY: `polls <- 0` (R120). -/
  | pollInit
  /-- WAIT_READY: the BusRead of STATUS at the head of the loop (R120). -/
  | poll
  /-- WAIT_READY: the tests on the word just read, and the way back to the head of the loop (R120). -/
  | pollTest
  /-- The fuse macro's next answer to a STATUS read is `v` (STATUS_READY, log 10). -/
  | statusAnswer (v : Word32)
  /-- The range check, then the alignment check, of a virtual byte address (R180, R202). -/
  | checkAddr (addr : Word32)
  /-- READ_SHADOW's test of what ClockEnable returned (R180). -/
  | checkClock
  /-- `copyIn()` and its test (R208). -/
  | copyIn
  /-- `copyOut(v)` and its test (R208). -/
  | copyOut
  /-- The write guard (R207). -/
  | writeGuard
  /-- INIT's draw and mapping (R124). -/
  | mapWindow
  /-- TEARDOWN's unmapping (R125). -/
  | unmapWindow
  /-- READ_BUF's zero-fill of `k` bytes (R183). -/
  | bufInit (k : Nat)
  /-- READ_BUF's loop test at `a` (R183). -/
  | bufLoop (a k : Nat)
  /-- READ_BUF's copy of the word read at `a` (R183). -/
  | bufStore (a k : Nat)
  /-- H_STREAM_READ's `buf[off : off + k]` (R205). -/
  | bufSlice (off k : Nat)
  /-- `cur <-` the value READ_PHYS returned (R162). -/
  | setCur
  /-- `m <-` the value READ_PHYS returned (R165). -/
  | setM
  /-- State WW_ENTRY of R161. -/
  | wwEntry (vw value : Word32)
  /-- State WW_AREAD of R161. -/
  | wwAread (vw value : Word32)
  /-- State WW_MASK of R161. -/
  | wwMask (vw value : Word32)
  /-- State WW_PULSE of R161. -/
  | wwPulse (vw value : Word32)
  /-- The end of WW_PULSE's action, `i <- i + 1` (R161). -/
  | wwNextBit (vw value : Word32)
  /-- State WW_MREAD of R161. -/
  | wwMread (vw value : Word32)
  /-- State WW_CHECK of R161. -/
  | wwCheck (vw value : Word32)
  /-- State WW_REFRESH of R161. -/
  | wwRefresh
  /-- State WW_RESULT of R161. -/
  | wwResult
  deriving DecidableEq, Repr

/-- A frame of the sequencer (R23): an operation and its phase, what it still has to do. -/
structure Frame where
  op : Instr
  phase : List Prim
  deriving DecidableEq, Repr

/-- The control state (R23): Idle, or the operation in progress with its phase, nested in the operations that called
it, the nearest caller first. The working registers stand in the state (R24). -/
inductive Ctl where
  | idle
  | run (op : Instr) (phase : List Prim) (callers : List Frame)
  deriving DecidableEq, Repr

/-! ### Parts of the state -/

/-- The working registers of R22, and the two places the pseudocode keeps values in between primitives. -/
structure Work where
  /-- Current row (R161). -/
  j : BitVec 1
  /-- Failing rows of the current WRITE_WORD (R166). -/
  errCnt : Nat
  /-- Array-read value of the current row (R162). -/
  cur : Word32
  /-- Bits still to pulse (R163). -/
  z : Word32
  /-- Bit cursor (R164). -/
  i : Nat
  /-- Margin-read value of the current row (R165). -/
  m : Word32
  /-- STATUS polls in the current WAIT_READY (R120). -/
  polls : Nat
  /-- The value the last register read returned (`mr`, `s`, `d`, `v` of R112, R120, R150, R180). -/
  ret : Word32
  /-- The byte buffer of R183 and R205. -/
  buf : List Byte
  deriving DecidableEq, Repr

/-- The answers the environment is still to give (R15, R230): for each source of draws the answers already
known, oldest first, and how many free values have been drawn where a list was empty (log 7). -/
structure Oracle where
  /-- Answers to reads of MODE. -/
  mode : List Word32
  /-- Answers to reads of ADR. -/
  adr : List Word32
  /-- Answers to reads of STATUS. -/
  status : List Word32
  /-- Answers to reads of RD_DATA. -/
  rdData : List Word32
  /-- Results of ClockEnable. -/
  clock : List Bool
  /-- Results of `copyIn`. -/
  copyIn : List Bool
  /-- Results of `copyOut`. -/
  copyOut : List Bool
  /-- Results of INIT's mapping. -/
  mapping : List Bool
  /-- The shadow contents refreshes bring. -/
  shadow : List (Vector Word32 64)
  /-- The states pulses drive their cells to. -/
  pulse : List CellState
  /-- The scheduler's choices. -/
  sched : List Nat
  /-- Free values drawn so far. -/
  drawn : Nat
  deriving DecidableEq, Repr

/-- The fuse array as memory (R35, R52): pairs of a physical bit address and a cell state, addresses rising,
Blank cells left out. -/
abbrev Memory := List (Nat × CellState)

/-- The state of the machine. -/
structure State where
  /-- The configuration, fixed for a run (R25). -/
  cfg : Config
  /-- The register window is mapped (R24). -/
  mapped : Bool
  /-- The block holds the clock gate enabled (R24). -/
  clockOn : Bool
  /-- The lock (R24, R250). -/
  owner : Option RequesterId
  /-- The control state (R23). -/
  ctl : Ctl
  /-- The working registers (R22). -/
  work : Work
  /-- DIR_CMD (R28). -/
  dirCmd : Word32
  /-- ONE_WAY (R31). -/
  oneWay : Word32
  /-- SHADOW[0..63] (R32). -/
  shadow : Vector Word32 64
  /-- The fuse cells (R35). -/
  fuses : Memory
  /-- The fuse macro's power state as last commanded (R36). -/
  powered : Option Bool
  /-- Bit addresses of the program commands issued (R37). -/
  pulseLog : List PhysBit
  /-- Bit addresses at which PROGRAM_BIT wrote CW_PROG (R37). -/
  attemptLog : List PhysBit
  /-- The bus trace (R38). -/
  trace : List BusEvent
  /-- The value last written to MODE (R39). -/
  modeLast : Option Word32
  /-- The value last written to ADR (R39). -/
  adrLast : Option Word32
  /-- Refresh commands issued (R40). -/
  refreshCount : Nat
  /-- The requester whose request is being taken (the model's own field, log 8). -/
  caller : RequesterId
  /-- Requests waiting for the lock, oldest first (the model's own field, log 8). -/
  port : List (RequesterId × Instr)
  /-- Results given, oldest first (the model's own field, R14, D27, log 8). -/
  responses : List (RequesterId × OpResult)
  /-- The answers still to come (the model's own field, log 7). -/
  oracle : Oracle
  deriving DecidableEq, Repr

/-! ### Reset -/

/-- Working registers at reset: unspecified and never read before they are written (R22, R41); zero is
log 3's choice. -/
def Work.reset : Work where
  j := 0
  errCnt := 0
  cur := 0
  z := 0
  i := 0
  m := 0
  polls := 0
  ret := 0
  buf := []

/-- No answer is known in advance at reset (log 7). -/
def Oracle.reset : Oracle where
  mode := []
  adr := []
  status := []
  rdData := []
  clock := []
  copyIn := []
  copyOut := []
  mapping := []
  shadow := []
  pulse := []
  sched := []
  drawn := 0

/-- The state after reset (R41, R270). What R270 takes as a draw at reset is `Config.resetWord` (log 5). -/
def State.reset : State where
  cfg := Config.default
  mapped := false
  clockOn := false
  owner := none
  ctl := .idle
  work := Work.reset
  dirCmd := Config.resetWord 0x8
  oneWay := Config.resetWord 0x14
  shadow := Vector.ofFn fun k => Config.resetWord (0x100 + 4 * k.val)
  fuses := []
  powered := none
  pulseLog := []
  attemptLog := []
  trace := []
  modeLast := none
  adrLast := none
  refreshCount := 0
  caller := 0
  port := []
  responses := []
  oracle := Oracle.reset

end Sys2Proof.Machine
end

