-- ==== Sys2Proof/Machine/Ops.lean ====
section
/-! DEFINITION. The named operations over the state: the fuse array as memory, draws, the bus and clock-gate
primitives (R11, R12), the fuse macro's commands (R220 to R228), the lock and the end of an operation (R250,
R254), and taking a request from the host port. -/

namespace Sys2Proof.Machine
open Sys2Proof Host

/-! ### The fuse array (R35, R52) -/

/-- Blank < Weak < Blown (R232). -/
def cellRank : CellState → Nat
  | .blank => 0
  | .weak => 1
  | .blown => 2

/-- The higher of two cell states: a cell never falls (R35, R224). -/
def cellMax (a b : CellState) : CellState := if cellRank a ≤ cellRank b then b else a

/-- The one-bit view of a cell (R35). -/
def cellProgrammed (c : CellState) : Bool := c == .blown

/-- What an unlisted cell holds (log 6). -/
def unlistedCell : CellState := .blank

/-- The state of a cell. -/
def Memory.read : Memory → Nat → CellState
  | [], _ => unlistedCell
  | (b, c) :: rest, a => if a = b then c else Memory.read rest a

/-- Put a cell state at an address, keeping the canonical form. -/
def Memory.write : Memory → Nat → CellState → Memory
  | [], a, c => if c = unlistedCell then [] else [(a, c)]
  | (b, d) :: rest, a, c =>
    if a < b then
      if c = unlistedCell then (b, d) :: rest else (a, c) :: (b, d) :: rest
    else if a = b then
      if c = unlistedCell then rest else (a, c) :: rest
    else (b, d) :: Memory.write rest a c

/-- The canonical form: addresses strictly rising from `lo` and below 4096, no entry an unlisted cell would
read as. -/
def Memory.wfFrom : Nat → Memory → Bool
  | _, [] => true
  | lo, (a, c) :: rest =>
    decide (lo ≤ a) && decide (a < nBits) && c != unlistedCell && Memory.wfFrom (a + 1) rest

/-- The canonical form of the fuse array. -/
def Memory.wf (m : Memory) : Bool := Memory.wfFrom 0 m

/-! ### Draws (R15, R230): the next known answer, else a free value (log 7) -/

/-- Next answer to a read of MODE. -/
def Oracle.nextMode (o : Oracle) : Word32 × Oracle :=
  match o.mode with
  | v :: rest => (v, { o with mode := rest })
  | [] => (Config.freeWord o.drawn, { o with drawn := o.drawn + 1 })

/-- Next answer to a read of ADR. -/
def Oracle.nextAdr (o : Oracle) : Word32 × Oracle :=
  match o.adr with
  | v :: rest => (v, { o with adr := rest })
  | [] => (Config.freeWord o.drawn, { o with drawn := o.drawn + 1 })

/-- Next answer to a read of STATUS. -/
def Oracle.nextStatus (o : Oracle) : Word32 × Oracle :=
  match o.status with
  | v :: rest => (v, { o with status := rest })
  | [] => (Config.freeWord o.drawn, { o with drawn := o.drawn + 1 })

/-- Next answer to a read of RD_DATA. -/
def Oracle.nextRdData (o : Oracle) : Word32 × Oracle :=
  match o.rdData with
  | v :: rest => (v, { o with rdData := rest })
  | [] => (Config.freeWord o.drawn, { o with drawn := o.drawn + 1 })

/-- Next result of ClockEnable. -/
def Oracle.nextClock (o : Oracle) : Bool × Oracle :=
  match o.clock with
  | v :: rest => (v, { o with clock := rest })
  | [] => (Config.freeBool o.drawn, { o with drawn := o.drawn + 1 })

/-- Next result of `copyIn`. -/
def Oracle.nextCopyIn (o : Oracle) : Bool × Oracle :=
  match o.copyIn with
  | v :: rest => (v, { o with copyIn := rest })
  | [] => (Config.freeBool o.drawn, { o with drawn := o.drawn + 1 })

/-- Next result of `copyOut`. -/
def Oracle.nextCopyOut (o : Oracle) : Bool × Oracle :=
  match o.copyOut with
  | v :: rest => (v, { o with copyOut := rest })
  | [] => (Config.freeBool o.drawn, { o with drawn := o.drawn + 1 })

/-- Next result of INIT's mapping. -/
def Oracle.nextMapping (o : Oracle) : Bool × Oracle :=
  match o.mapping with
  | v :: rest => (v, { o with mapping := rest })
  | [] => (Config.freeBool o.drawn, { o with drawn := o.drawn + 1 })

/-- The 64 words the next refresh brings (R226). -/
def Oracle.nextShadow (o : Oracle) : Vector Word32 64 × Oracle :=
  match o.shadow with
  | v :: rest => (v, { o with shadow := rest })
  | [] => (Config.freeShadow o.drawn, { o with drawn := o.drawn + 1 })

/-- The state the next pulse drives its cell to (R224). -/
def Oracle.nextPulse (o : Oracle) : CellState × Oracle :=
  match o.pulse with
  | v :: rest => (v, { o with pulse := rest })
  | [] => (Config.freeCell o.drawn, { o with drawn := o.drawn + 1 })

/-- The scheduler's next choice (D17). -/
def Oracle.nextSched (o : Oracle) : Nat × Oracle :=
  match o.sched with
  | v :: rest => (v, { o with sched := rest })
  | [] => (Config.freeChoice o.drawn, { o with drawn := o.drawn + 1 })

/-! ### Small updates -/

/-- Append an event to the bus trace (R38). -/
def State.emit (s : State) (e : BusEvent) : State := { s with trace := s.trace ++ [e] }

/-- Replace the answers still to come. -/
def State.setOracle (s : State) (o : Oracle) : State := { s with oracle := o }

/-- Replace the working registers. -/
def State.setWork (s : State) (w : Work) : State := { s with work := w }

/-- Keep the value a register read returned. -/
def State.setRet (s : State) (v : Word32) : State := { s with work := { s.work with ret := v } }

/-- Replace the control state. -/
def State.setCtl (s : State) (c : Ctl) : State := { s with ctl := c }

/-- Put primitives before what the operation in progress still has to do. -/
def State.push (s : State) (ps : List Prim) : State :=
  match s.ctl with
  | .run op phase callers => { s with ctl := .run op (ps ++ phase) callers }
  | .idle => s

/-- `call` (R13, R23): the operation `op` with the phase `ps` is in progress, nested in the one that called it. -/
def State.enter (s : State) (op : Instr) (ps : List Prim) : State :=
  match s.ctl with
  | .run caller phase callers => { s with ctl := .run op ps (⟨caller, phase⟩ :: callers) }
  | .idle => s

/-- A word written to MODE: the event, and `modeLast` (R39, R111). -/
def State.noteMode (s : State) (v : Word32) : State :=
  { s with trace := s.trace ++ [.wr offMode v], modeLast := some v }

/-- A word written to ADR: the event, and `adrLast` (R39, R111). -/
def State.noteAdr (s : State) (v : Word32) : State :=
  { s with trace := s.trace ++ [.wr offAdr v], adrLast := some v }

/-- The fuse macro's power state changes (R222, R223). -/
def State.setPowered (s : State) (on : Bool) : State := { s with powered := some on }

/-- The block's clock-gate state changes (R12). -/
def State.setClock (s : State) (on : Bool) : State := { s with clockOn := on }

/-- The window is mapped or unmapped (R67). -/
def State.setMapped (s : State) (on : Bool) : State := { s with mapped := on }

/-- An entry in `attemptLog` for the address last written to ADR (R37, R140). -/
def State.noteAttempt (s : State) : State :=
  { s with attemptLog := s.attemptLog ++ (s.adrLast.map physBitOf).toList }

/-! ### The lock and the end of an operation (R250, R254) -/

/-- `owner <- self` (R250). -/
def State.acquire (s : State) : State := { s with owner := some s.caller }

/-- A requester that finds the lock held waits at the port (R250). -/
def State.wait (s : State) (i : Instr) : State := { s with port := s.port ++ [(s.caller, i)] }

/-- The end of a top-level operation: the result goes to the requester that holds the lock, the lock is freed
and the block is Idle (R200, R250, R255). -/
def State.endOp (s : State) (r : OpResult) : State :=
  { s with
    owner := none
    ctl := .idle
    responses := s.responses ++ [(s.owner.getD s.caller, r)] }

/-- Taking an error (R254): it ends the current operation and all operations that called it, and the requester
receives the kind; no other state changes (R249). -/
def State.raiseError (s : State) (kind : ErrorKind) (why : Reason) : State := s.endOp (.error kind why)

/-- The answer of an operation that takes no lock (the translator, R245): only the result is recorded. -/
def State.answer (s : State) (v : Value) : State :=
  { s with responses := s.responses ++ [(s.caller, .ok v)] }

/-! ### The fuse macro (R220 to R228) -/

/-- Read(kind) (R221): its preconditions; it writes no state. DESIGN CHOICE (unsafe, log 25): where both fail, the fault
is ReadUnpowered, the one R221 lists first; no rule orders the two. -/
def readCommand (s : State) : Outcome State Fault Refusal :=
  if s.powered ≠ some true then .fault .readUnpowered
  else match s.adrLast with
    | some a => if isPhysWord a then .next s else .fault .adrInvalid
    | none => .fault .adrInvalid

/-- A pulse at a physical bit address (R224): it is logged, its cell may rise to a drawn state, and no other cell
changes. -/
def pulseAt (a : Word32) (s : State) : State :=
  let (c, o) := s.oracle.nextPulse
  { s with
    pulseLog := s.pulseLog ++ [physBitOf a]
    fuses := s.fuses.write a.toNat (cellMax (s.fuses.read a.toNat) c)
    oracle := o }

/-- Program() (R224), with its precondition on ADR (R228). -/
def programCommand (s : State) : Outcome State Fault Refusal :=
  match s.adrLast with
  | some a => if isPhysBit a then .next (pulseAt a s) else .fault .adrInvalid
  | none => .fault .adrInvalid

/-- Refresh() (R226): the 64 shadow registers take a draw. -/
def refreshCommand (s : State) : State :=
  let (v, o) := s.oracle.nextShadow
  { s with shadow := v, refreshCount := s.refreshCount + 1, oracle := o }

/-- What the fuse macro does on a word written to MODE (R220), `modeLast` already set. -/
def applyCommand (v : Word32) (s : State) : Outcome State Fault Refusal :=
  match decodeCommand s.cfg v with
  | .refresh => .next (refreshCommand s)
  | .powerDown => .next (s.setPowered false)
  | .powerOn => .next (s.setPowered true)
  | .read _ => readCommand s
  | .program => programCommand s
  | .undefined => .fault (.macroUndefined v s.modeLast)

/-! ### The bus (R11) -/

/-- What a read of an admitted offset answers, and the answers left (R230): a shadow register, or a draw. -/
def readAnswer (off : Word32) (s : State) : Word32 × Oracle :=
  if isShadowOffset off then (s.shadow.get (shadowIndex off).toFin, s.oracle)
  else if off = offMode then s.oracle.nextMode
  else if off = offAdr then s.oracle.nextAdr
  else if off = offStatus then s.oracle.nextStatus
  else s.oracle.nextRdData

/-- BusRead of an admitted offset (R11, R58): it has no effect beyond the trace and the draw. -/
def busRead (off : Word32) (s : State) : Word32 × State :=
  let (v, o) := readAnswer off s
  (v, (s.setOracle o).emit (.rd off v))

/-- BusWrite to MODE (R111): `modeLast` is set, then the fuse macro decodes the word. -/
def modeWrite (v : Word32) (s : State) : Outcome State Fault Refusal :=
  applyCommand v (s.noteMode v)

/-- RD_REG (R110), its value kept in `ret`. -/
def regRead (off : Word32) (s : State) : Outcome State Fault Refusal :=
  if isReadableOffset off then
    let (v, t) := busRead off s
    .next (t.setRet v)
  else .refused .offsetUndefined

/-- WR_REG (R111): a write to ADR has no effect beyond `adrLast` (R58). -/
def regWrite (off v : Word32) (s : State) : Outcome State Fault Refusal :=
  if isWritableOffset off then
    if off = offMode then modeWrite v s else .next (s.noteAdr v)
  else .refused .offsetUndefined

/-! ### The clock gate (R12) -/

/-- ClockEnable (R12, R180): the block holds the gate if the draw says so. -/
def clockEnable (s : State) : State :=
  let (ok, o) := s.oracle.nextClock
  ((s.setOracle o).emit (.clkOn ok)).setClock ok

/-- ClockDisable (R12, R180). -/
def clockDisable (s : State) : State := (s.emit .clkOff).setClock false

/-! ### A later reset (R270, R271) -/

/-- A reset of a machine that has run: the fuse cells and the configuration stay, every register of the window holds a
new draw, and the rest is as R41 says. The pulses issued before stay in effect through the cells; the logs are of one
run and restart empty (R271; log 21). -/
def State.resetAgain (s : State) : State :=
  { State.reset with
    cfg := s.cfg
    fuses := s.fuses
    shadow := Config.freeShadow s.oracle.drawn
    dirCmd := Config.freeWord (s.oracle.drawn + 1)
    oneWay := Config.freeWord (s.oracle.drawn + 2)
    oracle := { s.oracle with drawn := s.oracle.drawn + 3 } }

/-! ### The host port (log 8) -/

/-- The request that gets the free lock, and the state with it taken from the port. A lone request is taken;
among several the scheduler's draw chooses (D17). -/
def takeRequest (s : State) : Option (Instr × State) :=
  match s.port with
  | [] => none
  | [(q, i)] => some (i, { s with caller := q, port := [] })
  | (q, i) :: e :: rest =>
    let (n, o) := s.oracle.nextSched
    let k := n % (rest.length + 2)
    let (q', i') := ((q, i) :: e :: rest).getD k (q, i)
    some (i', { s with caller := q', port := ((q, i) :: e :: rest).eraseIdx k, oracle := o })

end Sys2Proof.Machine
end

