-- ==== Sys2Proof/Machine/Flags.lean ====
section
/-! DEFINITION. The flag-like state of the block (R34): BUSY, the poll count, the per-row verify outcome and the
error count. -/

namespace Sys2Proof.Machine
open Sys2Proof Host

/-- WAIT_READY's test of a STATUS word: BUSY clear, every other bit ignored (R85, R120). -/
def isReady (s : State) (status : Word32) : Bool := isReadyWord s.cfg status

/-- The poll limit is reached after `n` busy polls (R120, D9). -/
def pollLimitReached (s : State) (n : Nat) : Bool :=
  match s.cfg.pollLimit with
  | none => false
  | some k => decide (k ≤ n)

/-- The row passes: every bit of `value` is set in the margin read (R165). -/
def rowVerifies (value m : Word32) : Bool := value &&& m == value

/-- The bits still to pulse (R163). -/
def bitsToPulse (value cur : Word32) : Word32 := value &&& ~~~cur

/-- The error count after a row (R166). -/
def countRow (errCnt : Nat) (value m : Word32) : Nat :=
  if rowVerifies value m then errCnt else errCnt + 1

/-- WRITE_WORD fails (R168). -/
def wordFails (errCnt : Nat) : Bool := decide (errThreshold ≤ errCnt)

end Sys2Proof.Machine
end

