-- ==== Sys2Proof/Machine/Programs.lean ====
section
/-! DEFINITION. The operations' pseudocode as lists of primitives, line by line in the order the rules give (40 to
47). -/

namespace Sys2Proof.Machine
open Sys2Proof

/-! ### Block operations -/

/-- RD_REG (R110). -/
def rdRegProg (off : Word32) : List Prim := [.regRead off]

/-- WR_REG (R111). -/
def wrRegProg (off v : Word32) : List Prim := [.regWrite off v]

/-- SET_BITS (R112). -/
def setBitsProg (off mask : Word32) : List Prim :=
  if isSetBitsOffset off then [.regRead off, .callWriteOr off mask] else [.refuse .offsetUndefined]

/-- WAIT_READY (R120). -/
def waitReadyProg : List Prim := [.pollInit, .poll, .pollTest]

/-- POWER (R121). -/
def powerProg (c : Config) (en : Bool) : List Prim :=
  [.call (.setBits offMode (if en then c.mCmd else c.mPwrDn ||| c.mCmd))]

/-- REFRESH (R122). -/
def refreshProg (c : Config) : List Prim := [.call (.wrReg offMode c.cwRefresh)]

/-- INIT (R124). -/
def initProg : List Prim := [.mapWindow]

/-- TEARDOWN (R125). -/
def teardownProg : List Prim := [.unmapWindow]

/-- PROGRAM_BIT (R140). -/
def programBitProg (w b r : Word32) : List Prim :=
  if isRow r then [.call .waitReady, .call (.wrReg offAdr (composeAddr w b r)), .callPulse]
  else [.refuse .rowOutOfRange]

/-- READ_PHYS (R150). -/
def readPhysProg (c : Config) (pw mode : Word32) : List Prim :=
  if mode ≠ c.mAread ∧ mode ≠ c.mMread then [.raise .errUnsupported .unknownReadMode]
  else if isPhysWord pw then
    [.call (.power true), .call .waitReady, .call (.wrReg offAdr pw), .call (.wrReg offMode (mode ||| c.mCmd)),
      .call .waitReady, .call (.rdReg offRdData)]
  else [.refuse .physWordOutOfRange]

/-- WRITE_WORD (R160): state WW_ENTRY of R161 starts the state machine. -/
def writeWordProg (vw value : Word32) : List Prim := [.wwEntry vw value]

/-- READ_SHADOW (R180). -/
def readShadowProg (addr : Word32) : List Prim :=
  [.checkAddr addr, .clockEnable, .checkClock, .call (.rdReg (shadowOff + addr)), .clockDisable]

/-- READ_BUF (R183): the requested size is clamped to 256. -/
def readBufProg (n : Nat) : List Prim := [.bufInit (min n vsize), .bufLoop 0 (min n vsize)]

/-! ### Words of the register window (log 10) -/

/-- A word read from STATUS that ends a wait (R85, R120). -/
def statusReadyProg (v : Word32) : List Prim := .statusAnswer v :: waitReadyProg

/-! ### Host requests -/

/-- H_CTRL_READ (R201). -/
def ctrlReadProg (addr : Word32) : List Prim := [.copyIn, .call (.readShadow addr), .copyOut]

/-- H_CTRL_WRITE (R202). -/
def ctrlWriteProg (addr value : Word32) : List Prim :=
  [.copyIn, .writeGuard, .checkAddr addr, .call (.writeWord (wordIndexOf addr) value)]

/-- H_CTRL_OTHER (R203). -/
def ctrlOtherProg : List Prim := [.raise .errUnsupported .unknownCtrlRequest]

/-- H_STREAM_WRITE (R204): past the length check it is H_CTRL_WRITE of the payload's fields. -/
def streamWriteProg (bytes : List Byte) : List Prim :=
  if bytes.length ≠ streamWriteLen then [.raise .errFault .sizeMismatch]
  else ctrlWriteProg (payloadAddr bytes) (payloadValue bytes)

/-- H_STREAM_READ (R205): nothing is read past the end of the space, nor for no bytes. -/
def streamReadProg (off n : Nat) : List Prim :=
  if vsize ≤ off ∨ n = 0 then [.bufInit 0]
  else [.call (.readBuf (off + min n (vsize - off))), .bufSlice off (min n (vsize - off)), .copyOut]

/-! ### Every operation -/

/-- The pseudocode of an operation; the translator's operations are formulas and have none. -/
def program (c : Config) : Instr → List Prim
  | .cwAread => wrRegProg offMode c.cwAread
  | .cwMread => wrRegProg offMode c.cwMread
  | .cwProg => wrRegProg offMode c.cwProg
  | .cwPwron => wrRegProg offMode c.cwPwron
  | .cwPwrdn => wrRegProg offMode c.cwPwrdn
  | .cwRefresh => wrRegProg offMode c.cwRefresh
  | .cwUndefined v => wrRegProg offMode v
  | .adrProg b w r => wrRegProg offAdr (encodeAdrProg b w r)
  | .adrRead w r => wrRegProg offAdr (encodeAdrRead w r)
  | .statusReady v => statusReadyProg v
  | .streamWritePayload addr value => streamWriteProg (payloadBytes addr value)
  | .rdmodeArray pw => readPhysProg c pw c.mAread
  | .rdmodeMargin pw => readPhysProg c pw c.mMread
  | .rdReg off => rdRegProg off
  | .wrReg off v => wrRegProg off v
  | .setBits off mask => setBitsProg off mask
  | .waitReady => waitReadyProg
  | .power en => powerProg c en
  | .refresh => refreshProg c
  | .init => initProg
  | .teardown => teardownProg
  | .compose _ _ _ => []
  | .physWord _ _ => []
  | .wordIndex _ => []
  | .programBit w b r => programBitProg w b r
  | .readPhys pw mode => readPhysProg c pw mode
  | .writeWord vw value => writeWordProg vw value
  | .readShadow addr => readShadowProg addr
  | .readBuf n => readBufProg n
  | .hCtrlRead addr => ctrlReadProg addr
  | .hCtrlWrite addr value => ctrlWriteProg addr value
  | .hCtrlOther _ => ctrlOtherProg
  | .hStreamWrite bytes => streamWriteProg bytes
  | .hStreamRead off n => streamReadProg off n
  | .hWrite32 addr value => streamWriteProg (payloadBytes addr value)

/-- The value an operation returns at its end (R14). -/
def returnValue (s : State) : Instr → Value
  | .cwAread => .unit
  | .cwMread => .unit
  | .cwProg => .unit
  | .cwPwron => .unit
  | .cwPwrdn => .unit
  | .cwRefresh => .unit
  | .cwUndefined _ => .unit
  | .adrProg _ _ _ => .unit
  | .adrRead _ _ => .unit
  | .statusReady _ => .unit
  | .streamWritePayload _ _ => .count streamWriteLen
  | .rdmodeArray _ => .word s.work.ret
  | .rdmodeMargin _ => .word s.work.ret
  | .rdReg _ => .word s.work.ret
  | .wrReg _ _ => .unit
  | .setBits _ _ => .unit
  | .waitReady => .unit
  | .power _ => .unit
  | .refresh => .unit
  | .init => .unit
  | .teardown => .unit
  | .compose w b r => .word (composeAddr w b r)
  | .physWord vw r => .word (physWordAddr vw r)
  | .wordIndex addr => .word (wordIndexOf addr)
  | .programBit _ _ _ => .unit
  | .readPhys _ _ => .word s.work.ret
  | .writeWord _ _ => .unit
  | .readShadow _ => .word s.work.ret
  | .readBuf _ => .bytes s.work.buf
  | .hCtrlRead _ => .word s.work.ret
  | .hCtrlWrite _ _ => .unit
  | .hCtrlOther _ => .unit
  | .hStreamWrite _ => .count streamWriteLen
  | .hStreamRead _ _ => .bytes s.work.buf
  | .hWrite32 _ _ => .count streamWriteLen

end Sys2Proof.Machine
end

