-- ==== Sys2Proof/Machine/Sequencer.lean ====
section
/-! DEFINITION. The sequencer (R23): what one primitive does, one step of the sequencer, the run of an operation
to its end or to a hold, and the top-level entries of operations (R200, R245, R250). -/

namespace Sys2Proof.Machine
open Sys2Proof Host

/-! ### WAIT_READY's loop, the checks and the draws of the host interface -/

/-- The BusRead at the head of WAIT_READY's loop (R120), its value kept in `ret`. -/
def pollRead (s : State) : State :=
  let (v, t) := busRead offStatus s
  t.setRet v

/-- WAIT_READY's tests on the word just read: BUSY clear ends the loop, the poll limit raises ErrTimeout, and else the
loop begins again (R120). -/
def pollTest (s : State) : State :=
  if isReady s s.work.ret then s
  else
    let t := s.setWork { s.work with polls := s.work.polls + 1 }
    if pollLimitReached t t.work.polls then t.raiseError .errTimeout .readyTimeout
    else t.push [.poll, .pollTest]

/-- The address checks, range first (R180, R202). -/
def checkAddr (addr : Word32) (s : State) : State :=
  if addrInRange addr then
    if addrAligned addr then s else s.raiseError .errFault .addrAlign
  else s.raiseError .errFault .addrRange

/-- READ_SHADOW's test of what ClockEnable returned (R180). -/
def checkClock (s : State) : State :=
  if s.clockOn then s else s.raiseError .errResource .clockUnavailable

/-- `if not copyIn(): raise ErrFault(UserCopy)` (R201, R208). -/
def copyInStep (s : State) : State :=
  let (ok, o) := s.oracle.nextCopyIn
  if ok then s.setOracle o else (s.setOracle o).raiseError .errFault .userCopy

/-- `if not copyOut(v): raise ErrFault(UserCopy)` (R201, R208). -/
def copyOutStep (s : State) : State :=
  let (ok, o) := s.oracle.nextCopyOut
  if ok then s.setOracle o else (s.setOracle o).raiseError .errFault .userCopy

/-- The write guard (R202, R207). -/
def writeGuardStep (s : State) : State :=
  if s.cfg.programmingEnabled then s
  else s.raiseError s.cfg.disabledWriteError .programmingDisabled

/-- INIT's draw (R124). -/
def mapStep (s : State) : State :=
  let (ok, o) := s.oracle.nextMapping
  if ok then (s.setOracle o).setMapped true
  else (s.setOracle o).raiseError .errResource .mapFailed

/-- PROGRAM_BIT's write of CW_PROG (R140): the attempt is recorded with the write, at the address the write used,
which PROGRAM_BIT has just put into ADR (log 14). -/
def pulseWrite (s : State) : Outcome State Fault Refusal :=
  match modeWrite s.cfg.cwProg s with
  | .next t => .next t.noteAttempt
  | .fault r => .fault r
  | .refused r => .refused r

/-! ### READ_BUF's loop (R183) -/

/-- Copy the bytes of a word to places `a` to `a + 3` of a buffer, those below `k`. -/
def storeWord (buf : List Byte) (a k : Nat) (v : Word32) : List Byte :=
  [0, 1, 2, 3].foldl (fun b t => if a + t < k then b.set (a + t) (byteOfWord v t) else b) buf

/-- The loop test: read the word at `a`, store it and go on, while `a < k`. -/
def bufLoopProg (a k : Nat) : List Prim :=
  if a < k then [.call (.readShadow (BitVec.ofNat 32 a)), .bufStore a k, .bufLoop (a + 4) k] else []

/-! ### The program-verify state machine (R161) -/

/-- The row as an operand. -/
def rowWord (s : State) : Word32 := s.work.j.setWidth 32

/-- WW_ENTRY. -/
def wwEntryStep (vw value : Word32) (s : State) : State :=
  (s.setWork { s.work with errCnt := 0, j := 0 }).push [.wwAread vw value]

/-- WW_AREAD. -/
def wwAreadStep (vw value : Word32) (s : State) : State :=
  s.push [.call (.readPhys (physWordAddr vw (rowWord s)) s.cfg.mAread), .setCur, .wwMask vw value]

/-- WW_MASK. -/
def wwMaskStep (vw value : Word32) (s : State) : State :=
  (s.setWork { s.work with z := bitsToPulse value s.work.cur, i := 0 }).push [.wwPulse vw value]

/-- WW_PULSE. -/
def wwPulseStep (vw value : Word32) (s : State) : State :=
  if s.work.i = 32 then s.push [.wwMread vw value]
  else if s.work.z.getLsbD s.work.i then
    s.push [.call (.programBit vw (BitVec.ofNat 32 s.work.i) (rowWord s)), .wwNextBit vw value]
  else s.push [.wwNextBit vw value]

/-- The end of WW_PULSE's action: the next bit. -/
def wwNextBitStep (vw value : Word32) (s : State) : State :=
  (s.setWork { s.work with i := s.work.i + 1 }).push [.wwPulse vw value]

/-- WW_MREAD. -/
def wwMreadStep (vw value : Word32) (s : State) : State :=
  s.push [.call (.readPhys (physWordAddr vw (rowWord s)) s.cfg.mMread), .setM, .wwCheck vw value]

/-- WW_CHECK. -/
def wwCheckStep (vw value : Word32) (s : State) : State :=
  if s.work.j = 0 then
    (s.setWork { s.work with errCnt := countRow s.work.errCnt value s.work.m, j := 1 }).push
      [.wwAread vw value]
  else
    (s.setWork { s.work with errCnt := countRow s.work.errCnt value s.work.m }).push [.wwRefresh]

/-- WW_RESULT. -/
def wwResultStep (s : State) : State :=
  if wordFails s.work.errCnt then s.raiseError .errIO .verifyFailed else s

/-! ### One step of the sequencer -/

/-- What one primitive does, the phase already past it. -/
def runPrim (p : Prim) (s : State) : Outcome State Fault Refusal :=
  match p with
  | .regRead off => regRead off s
  | .regWrite off v => regWrite off v s
  | .pulseWrite => pulseWrite s
  | .clockEnable => .next (clockEnable s)
  | .clockDisable => .next (clockDisable s)
  | .call op => .next (s.enter op (program s.cfg op))
  | .callWriteOr off mask => .next (s.enter (.wrReg off (s.work.ret ||| mask)) (wrRegProg off (s.work.ret ||| mask)))
  | .callPulse => .next (s.enter (.wrReg offMode s.cfg.cwProg) [.pulseWrite])
  | .raise kind why => .next (s.raiseError kind why)
  | .refuse why => .refused why
  | .pollInit => .next (s.setWork { s.work with polls := 0 })
  | .poll => .next (pollRead s)
  | .pollTest => .next (pollTest s)
  | .statusAnswer v => .next (s.setOracle { s.oracle with status := v :: s.oracle.status })
  | .checkAddr addr => .next (checkAddr addr s)
  | .checkClock => .next (checkClock s)
  | .copyIn => .next (copyInStep s)
  | .copyOut => .next (copyOutStep s)
  | .writeGuard => .next (writeGuardStep s)
  | .mapWindow => .next (mapStep s)
  | .unmapWindow => .next (s.setMapped false)
  | .bufInit k => .next (s.setWork { s.work with buf := List.replicate k 0 })
  | .bufLoop a k => .next (s.push (bufLoopProg a k))
  | .bufStore a k => .next (s.setWork { s.work with buf := storeWord s.work.buf a k s.work.ret })
  | .bufSlice off k => .next (s.setWork { s.work with buf := (s.work.buf.drop off).take k })
  | .setCur => .next (s.setWork { s.work with cur := s.work.ret })
  | .setM => .next (s.setWork { s.work with m := s.work.ret })
  | .wwEntry vw value => .next (wwEntryStep vw value s)
  | .wwAread vw value => .next (wwAreadStep vw value s)
  | .wwMask vw value => .next (wwMaskStep vw value s)
  | .wwPulse vw value => .next (wwPulseStep vw value s)
  | .wwNextBit vw value => .next (wwNextBitStep vw value s)
  | .wwMread vw value => .next (wwMreadStep vw value s)
  | .wwCheck vw value => .next (wwCheckStep vw value s)
  | .wwRefresh => .next (s.push [.call .refresh, .wwResult])
  | .wwResult => .next (wwResultStep s)

/-- One step of the sequencer (R23): one primitive of the innermost frame, in the order of the pseudocode. A frame
with nothing left to do returns to its caller (R13); the last one ends the operation (R14). -/
def seqStep (s : State) : Outcome State Fault Refusal :=
  match s.ctl with
  | .idle => .next s
  | .run op [] [] => .next (s.endOp (.ok (returnValue s op)))
  | .run _ [] (f :: callers) => .next (s.setCtl (.run f.op f.phase callers))
  | .run op (p :: phase) callers => runPrim p (s.setCtl (.run op phase callers))

/-- WAIT_READY has read BUSY set and is to read again: a hold, not an end (R14). -/
def State.held (s : State) : Bool :=
  match s.ctl with
  | .run _ (.poll :: _) _ => decide (0 < s.work.polls)
  | _ => false

/-- No operation is in progress (R23). -/
def State.isIdle (s : State) : Bool :=
  match s.ctl with
  | .idle => true
  | .run _ _ _ => false

/-- The operation has ended, or BUSY holds it. -/
def State.rests (s : State) : Bool := s.isIdle || s.held

/-- Run the sequencer until the operation ends or BUSY holds it, at most `n` steps. -/
def drive : Nat → State → Outcome State Fault Refusal
  | 0, s => .next s
  | n + 1, s =>
    match seqStep s with
    | .next t => if t.rests then .next t else drive n t
    | .fault r => .fault r
    | .refused r => .refused r

/-- More steps than any operation takes between two holds (log 2). -/
def opSteps : Nat := 2048

/-- The block goes on with its operation to its end or its next hold. -/
def resume (s : State) : Outcome State Fault Refusal := drive opSteps s

/-! ### Admission of a request (R200, R245, R250) -/

/-- What becomes of a request when a requester issues it. -/
inductive Admission where
  /-- The operation begins: the lock is taken. -/
  | begins (s : State)
  /-- It is over, or waits for the lock, without a step of the sequencer. -/
  | settled (s : State)
  /-- It is refused. -/
  | refused (why : Refusal)

/-- The request takes the lock and its operation begins. -/
def State.begin (s : State) (i : Instr) : State := s.acquire.setCtl (.run i (program s.cfg i) [])

/-- Host requests and the operations R245 names: the lock, then `mapped`. -/
def admitMapped (i : Instr) (s : State) : Admission :=
  if s.owner.isSome then .settled (s.wait i)
  else if s.mapped then .begins (s.begin i)
  else .settled (s.acquire.raiseError .errResource .unmapped)

/-- The register primitives (R110, R245): refused while the window is not mapped. -/
def admitPrimitive (i : Instr) (s : State) : Admission :=
  if s.owner.isSome then .settled (s.wait i)
  else if s.mapped then .begins (s.begin i)
  else .refused .primitiveUnmapped

/-- INIT (R124). -/
def admitInit (i : Instr) (s : State) : Admission :=
  if s.owner.isSome then .settled (s.wait i)
  else if s.mapped then .refused .initTwice
  else .begins (s.begin i)

/-- TEARDOWN (R125). -/
def admitTeardown (i : Instr) (s : State) : Admission :=
  if s.owner.isSome then .settled (s.wait i)
  else if s.mapped then .begins (s.begin i)
  else .refused .notMapped

/-- The translator with a row operand (R133, R245): no lock, no sequencer; a row outside 0 and 1 is refused. -/
def admitRow (r : Word32) (i : Instr) (s : State) : Admission :=
  if isRow r then .settled (s.answer (returnValue s i)) else .refused .rowOutOfRange

/-- WORD_INDEX (R132, R245): no lock, no sequencer. -/
def admitPure (i : Instr) (s : State) : Admission := .settled (s.answer (returnValue s i))

/-- How each operation is admitted. -/
def admitRequest (i : Instr) (s : State) : Admission :=
  match i with
  | .cwAread => admitPrimitive i s
  | .cwMread => admitPrimitive i s
  | .cwProg => admitPrimitive i s
  | .cwPwron => admitPrimitive i s
  | .cwPwrdn => admitPrimitive i s
  | .cwRefresh => admitPrimitive i s
  | .cwUndefined _ => admitPrimitive i s
  | .adrProg _ _ _ => admitPrimitive i s
  | .adrRead _ _ => admitPrimitive i s
  | .statusReady _ => admitMapped i s
  | .streamWritePayload _ _ => admitMapped i s
  | .rdmodeArray _ => admitMapped i s
  | .rdmodeMargin _ => admitMapped i s
  | .rdReg _ => admitPrimitive i s
  | .wrReg _ _ => admitPrimitive i s
  | .setBits _ _ => admitPrimitive i s
  | .waitReady => admitMapped i s
  | .power _ => admitMapped i s
  | .refresh => admitMapped i s
  | .init => admitInit i s
  | .teardown => admitTeardown i s
  | .compose _ _ r => admitRow r i s
  | .physWord _ r => admitRow r i s
  | .wordIndex _ => admitPure i s
  | .programBit _ _ _ => admitMapped i s
  | .readPhys _ _ => admitMapped i s
  | .writeWord _ _ => admitMapped i s
  | .readShadow _ => admitMapped i s
  | .readBuf _ => admitMapped i s
  | .hCtrlRead _ => admitMapped i s
  | .hCtrlWrite _ _ => admitMapped i s
  | .hCtrlOther _ => admitMapped i s
  | .hStreamWrite _ => admitMapped i s
  | .hStreamRead _ _ => admitMapped i s
  | .hWrite32 _ _ => admitMapped i s

/-- An admitted request run to its end or to a hold: the meaning of an instruction (log 2). -/
def Admission.run : Admission → Outcome State Fault Refusal
  | .begins s => resume s
  | .settled s => .next s
  | .refused why => .refused why

/-- An admitted request before the sequencer's first step. -/
def Admission.start : Admission → Outcome State Fault Refusal
  | .begins s => .next s
  | .settled s => .next s
  | .refused why => .refused why

/-! ### The machine one primitive at a time -/

/-- One tick of the machine (R20, R23, D1): a step of the sequencer while an operation is in progress; while Idle, the
admission of the request that gets the lock; with no request, nothing. -/
def tick (s : State) : Outcome State Fault Refusal :=
  match s.ctl with
  | .run _ _ _ => seqStep s
  | .idle =>
    match takeRequest s with
    | some (i, t) => (admitRequest i t).start
    | none => .next s

end Sys2Proof.Machine
end

