-- ==== Sys2Proof/Machine/ArrayOps.lean ====
section
/-! DEFINITION. The array operations: the program-pulse sequencer (43_program_pulse.md R140), the margin-read
controller (44_physical_read.md R150) and the program-verify state machine (45_program_verify.md R160). -/

namespace Sys2Proof.Machine
open Sys2Proof Host

/-- `PROGRAM_BIT` (R140). -/
def execProgramBit (w b r : Word32) (s : State) : Outcome State Fault Refusal :=
  (admitMapped (.programBit w b r) s).run

/-- `READ_PHYS` (R150). -/
def execReadPhys (pw mode : Word32) (s : State) : Outcome State Fault Refusal :=
  (admitMapped (.readPhys pw mode) s).run

/-- `WRITE_WORD` (R160). -/
def execWriteWord (vw value : Word32) (s : State) : Outcome State Fault Refusal :=
  (admitMapped (.writeWord vw value) s).run

end Sys2Proof.Machine
end

