-- ==== Sys2Proof/Machine/Handshake.lean ====
section
/-! DEFINITION. The hardware handshake and the lifetime of the window (41_handshake.md R120 to R125). -/

namespace Sys2Proof.Machine
open Sys2Proof Host

/-- `WAIT_READY` (R120). -/
def execWaitReady (s : State) : Outcome State Fault Refusal :=
  (admitMapped .waitReady s).run

/-- `POWER` (R121). -/
def execPower (en : Bool) (s : State) : Outcome State Fault Refusal :=
  (admitMapped (.power en) s).run

/-- `REFRESH` (R122). -/
def execRefresh (s : State) : Outcome State Fault Refusal :=
  (admitMapped .refresh s).run

/-- `INIT` (R124). -/
def execInit (s : State) : Outcome State Fault Refusal :=
  (admitInit .init s).run

/-- `TEARDOWN` (R125). -/
def execTeardown (s : State) : Outcome State Fault Refusal :=
  (admitTeardown .teardown s).run

end Sys2Proof.Machine
end

