-- ==== Sys2Proof/Machine/HostRequests.lean ====
section
/-! DEFINITION. The host requests (47_host_interface.md R200 to R210) and the pseudo-operation of R99. -/

namespace Sys2Proof.Machine
open Sys2Proof Host

/-- `H_CTRL_READ` (R201). -/
def execHCtrlRead (addr : Word32) (s : State) : Outcome State Fault Refusal :=
  (admitMapped (.hCtrlRead addr) s).run

/-- `H_CTRL_WRITE` (R202). -/
def execHCtrlWrite (addr value : Word32) (s : State) : Outcome State Fault Refusal :=
  (admitMapped (.hCtrlWrite addr value) s).run

/-- `H_CTRL_OTHER` (R203). -/
def execHCtrlOther (code : Word32) (s : State) : Outcome State Fault Refusal :=
  (admitMapped (.hCtrlOther code) s).run

/-- `H_STREAM_WRITE` (R204). -/
def execHStreamWrite (bytes : List Byte) (s : State) : Outcome State Fault Refusal :=
  (admitMapped (.hStreamWrite bytes) s).run

/-- `H_STREAM_READ` (R205). -/
def execHStreamRead (off n : Nat) (s : State) : Outcome State Fault Refusal :=
  (admitMapped (.hStreamRead off n) s).run

/-- `H_WRITE32` (R99): H_STREAM_WRITE of the payload of R92. -/
def execHWrite32 (addr value : Word32) (s : State) : Outcome State Fault Refusal :=
  (admitMapped (.hWrite32 addr value) s).run

end Sys2Proof.Machine
end

