-- ==== Sys2Proof/Machine/RegisterProtocol.lean ====
section
/-! DEFINITION. The register protocol layer (40_register_protocol.md R110 to R114). -/

namespace Sys2Proof.Machine
open Sys2Proof Host

/-- `RD_REG` (R110). -/
def execRdReg (off : Word32) (s : State) : Outcome State Fault Refusal :=
  (admitPrimitive (.rdReg off) s).run

/-- `WR_REG` (R111). -/
def execWrReg (off v : Word32) (s : State) : Outcome State Fault Refusal :=
  (admitPrimitive (.wrReg off v) s).run

/-- `SET_BITS` (R112). -/
def execSetBits (off mask : Word32) (s : State) : Outcome State Fault Refusal :=
  (admitPrimitive (.setBits off mask) s).run

end Sys2Proof.Machine
end

