-- ==== Sys2Proof/Machine/ShadowReader.lean ====
section
/-! DEFINITION. The shadow reader (46_shadow_read.md R180 to R185). -/

namespace Sys2Proof.Machine
open Sys2Proof Host

/-- `READ_SHADOW` (R180). -/
def execReadShadow (addr : Word32) (s : State) : Outcome State Fault Refusal :=
  (admitMapped (.readShadow addr) s).run

/-- `READ_BUF` (R183). -/
def execReadBuf (n : Nat) (s : State) : Outcome State Fault Refusal :=
  (admitMapped (.readBuf n) s).run

end Sys2Proof.Machine
end

