-- ==== Sys2Proof/Machine/Translator.lean ====
section
/-! DEFINITION. The bit-address translator (42_address_translator.md R130 to R135): combinational, admitted in
every state, no lock (R245). -/

namespace Sys2Proof.Machine
open Sys2Proof Host

/-- `COMPOSE` (R130). -/
def execCompose (w b r : Word32) (s : State) : Outcome State Fault Refusal :=
  (admitRow r (.compose w b r) s).run

/-- `PHYS_WORD` (R131). -/
def execPhysWord (vw r : Word32) (s : State) : Outcome State Fault Refusal :=
  (admitRow r (.physWord vw r) s).run

/-- `WORD_INDEX` (R132). -/
def execWordIndex (addr : Word32) (s : State) : Outcome State Fault Refusal :=
  (admitPure (.wordIndex addr) s).run

end Sys2Proof.Machine
end

