-- ==== Sys2Proof/Machine/WindowWords.lean ====
section
/-! DEFINITION. The words of the register window as instructions: a command word is a 32-bit write to MODE (R86,
R220 to R227), an address word a write to ADR (R81, R82), a ready word a STATUS read that ends a wait (R85), a
payload a byte-stream write (R92), a read-mode word a READ_PHYS (R94). Log 9 and log 10 say how they come to run. -/

namespace Sys2Proof.Machine
open Sys2Proof Host

/-- `CW_AREAD` (R86, R221): the word written to MODE at top level (R111), with the result `Ok(())`. -/
def execCwAread (s : State) : Outcome State Fault Refusal :=
  (admitPrimitive .cwAread s).run

/-- `CW_MREAD` (R86, R221). -/
def execCwMread (s : State) : Outcome State Fault Refusal :=
  (admitPrimitive .cwMread s).run

/-- `CW_PROG` (R86, R224): the macro's command alone, so `attemptLog`, which is PROGRAM_BIT's, does not grow. -/
def execCwProg (s : State) : Outcome State Fault Refusal :=
  (admitPrimitive .cwProg s).run

/-- `CW_PWRON` (R86, R222). -/
def execCwPwron (s : State) : Outcome State Fault Refusal :=
  (admitPrimitive .cwPwron s).run

/-- `CW_PWRDN` (R86, R223). -/
def execCwPwrdn (s : State) : Outcome State Fault Refusal :=
  (admitPrimitive .cwPwrdn s).run

/-- `CW_REFRESH` (R86, R226). -/
def execCwRefresh (s : State) : Outcome State Fault Refusal :=
  (admitPrimitive .cwRefresh s).run

/-- `CW_UNDEFINED` (R88, R227): the macro's decoder faults on the word. -/
def execCwUndefined (v : Word32) (s : State) : Outcome State Fault Refusal :=
  (admitPrimitive (.cwUndefined v) s).run

/-- `ADR_PROG` (R27, R81). -/
def execAdrProg (b : BitVec 5) (w : BitVec 6) (r : BitVec 1) (s : State) : Outcome State Fault Refusal :=
  (admitPrimitive (.adrProg b w r) s).run

/-- `ADR_READ` (R27, R82). -/
def execAdrRead (w : BitVec 6) (r : BitVec 1) (s : State) : Outcome State Fault Refusal :=
  (admitPrimitive (.adrRead w r) s).run

/-- `STATUS_READY` (R85, R120): a WAIT_READY whose STATUS answer is this word. -/
def execStatusReady (v : Word32) (s : State) : Outcome State Fault Refusal :=
  (admitMapped (.statusReady v) s).run

/-- `STREAM_WRITE_PAYLOAD` (R92, R204): the payload at the byte-stream write port. -/
def execStreamWritePayload (addr value : Word32) (s : State) : Outcome State Fault Refusal :=
  (admitMapped (.streamWritePayload addr value) s).run

/-- `RDMODE_ARRAY` (R94, R150): READ_PHYS with the ArrayRead operand. -/
def execRdmodeArray (pw : Word32) (s : State) : Outcome State Fault Refusal :=
  (admitMapped (.rdmodeArray pw) s).run

/-- `RDMODE_MARGIN` (R94, R150): READ_PHYS with the MarginRead operand. -/
def execRdmodeMargin (pw : Word32) (s : State) : Outcome State Fault Refusal :=
  (admitMapped (.rdmodeMargin pw) s).run

end Sys2Proof.Machine
end

