-- ==== Sys2Proof/Machine/Dispatch.lean ====
section
/-! DEFINITION. One arm per constructor of Instr. -/

namespace Sys2Proof.Machine
open Sys2Proof

def exec (i : Instr) (s : State) : Host.Outcome State Fault Refusal :=
  match i with
  | .cwAread => Sys2Proof.Machine.execCwAread s
  | .cwMread => Sys2Proof.Machine.execCwMread s
  | .cwProg => Sys2Proof.Machine.execCwProg s
  | .cwPwron => Sys2Proof.Machine.execCwPwron s
  | .cwPwrdn => Sys2Proof.Machine.execCwPwrdn s
  | .cwRefresh => Sys2Proof.Machine.execCwRefresh s
  | .cwUndefined v => Sys2Proof.Machine.execCwUndefined v s
  | .adrProg b w r => Sys2Proof.Machine.execAdrProg b w r s
  | .adrRead w r => Sys2Proof.Machine.execAdrRead w r s
  | .statusReady v => Sys2Proof.Machine.execStatusReady v s
  | .streamWritePayload addr value => Sys2Proof.Machine.execStreamWritePayload addr value s
  | .rdmodeArray pw => Sys2Proof.Machine.execRdmodeArray pw s
  | .rdmodeMargin pw => Sys2Proof.Machine.execRdmodeMargin pw s
  | .rdReg off => Sys2Proof.Machine.execRdReg off s
  | .wrReg off v => Sys2Proof.Machine.execWrReg off v s
  | .setBits off mask => Sys2Proof.Machine.execSetBits off mask s
  | .waitReady => Sys2Proof.Machine.execWaitReady s
  | .power en => Sys2Proof.Machine.execPower en s
  | .refresh => Sys2Proof.Machine.execRefresh s
  | .init => Sys2Proof.Machine.execInit s
  | .teardown => Sys2Proof.Machine.execTeardown s
  | .compose w b r => Sys2Proof.Machine.execCompose w b r s
  | .physWord vw r => Sys2Proof.Machine.execPhysWord vw r s
  | .wordIndex addr => Sys2Proof.Machine.execWordIndex addr s
  | .programBit w b r => Sys2Proof.Machine.execProgramBit w b r s
  | .readPhys pw mode => Sys2Proof.Machine.execReadPhys pw mode s
  | .writeWord vw value => Sys2Proof.Machine.execWriteWord vw value s
  | .readShadow addr => Sys2Proof.Machine.execReadShadow addr s
  | .readBuf n => Sys2Proof.Machine.execReadBuf n s
  | .hCtrlRead addr => Sys2Proof.Machine.execHCtrlRead addr s
  | .hCtrlWrite addr value => Sys2Proof.Machine.execHCtrlWrite addr value s
  | .hCtrlOther code => Sys2Proof.Machine.execHCtrlOther code s
  | .hStreamWrite bytes => Sys2Proof.Machine.execHStreamWrite bytes s
  | .hStreamRead off n => Sys2Proof.Machine.execHStreamRead off n s
  | .hWrite32 addr value => Sys2Proof.Machine.execHWrite32 addr value s

end Sys2Proof.Machine
end

