-- ==== Sys2Proof/Machine/Step.lean ====
section
/-! DEFINITION. One step of the machine: the operation in progress goes on, else the next request at the host
port is run (R20, R60, R200; log 2, log 8). -/

namespace Sys2Proof.Machine
open Sys2Proof Host

/-- One step, which is one or more ticks (`tick`, R23; log 2): a held operation goes on to its end or its next hold; an
Idle block runs the request that gets the lock; with no request it stays Idle. -/
def step (s : State) : Outcome State Fault Refusal :=
  match s.ctl with
  | .run _ _ _ => resume s
  | .idle =>
    match takeRequest s with
    | some (i, t) => exec i t
    | none => .next s

/-- `s` with the instruction of a table word as the one request at the port of an Idle block, so that the next
step runs it (log 8); a word the decoder rejects leaves the port empty. -/
def State.withFetchWord (s : State) (nbits w : Nat) : State :=
  { s with
    ctl := .idle
    owner := none
    port := (decodeTableWord nbits w).toList.map fun i => (s.caller, i) }

end Sys2Proof.Machine
end

