-- ==== Sys2Proof/WellFormed.lean ====
section
/-! DEFINITION. Valid configurations (R9, D2, D9) and the operand contracts of the operation set (R96, R110 to
R112, R133, R150, R90). -/

namespace Sys2Proof

/-- The five MODE masks of R9. -/
def Config.modeMasks (c : Config) : List Word32 :=
  [c.mAread, c.mMread, c.mPrg, c.mPwrDn, c.mCmd]

/-- A word with exactly one bit set. -/
def isSingleBit (v : Word32) : Bool := (List.range 32).any fun k => v == 1#32 <<< k

/-- Valid configurations (R9, D2, D9): the five MODE masks are distinct single bits, BUSY is a single bit,
REFRESH_CMD differs from every other command word, and a poll limit of 0 is not one. -/
def Config.wf (c : Config) : Bool :=
  c.modeMasks.all isSingleBit && decide c.modeMasks.Nodup && isSingleBit c.sBusy &&
  !c.plainWords.contains c.refreshCmd && c.pollLimit != some 0

/-- The OPEN control request codes must differ (R90). -/
def Config.ctrlCodesDiffer (c : Config) : Bool := c.ioctlRead != c.ioctlWrite

/-- An instruction whose operands meet the contract the table and R96 give them, under a configuration. -/
def Instr.wf (c : Config) : Instr → Bool
  | .cwAread => true
  | .cwMread => true
  | .cwProg => true
  | .cwPwron => true
  | .cwPwrdn => true
  | .cwRefresh => true
  | .cwUndefined v => !c.commandWords.contains v
  | .adrProg _ _ _ => true
  | .adrRead _ _ => true
  | .statusReady v => isReadyWord c v
  | .streamWritePayload _ _ => true
  | .rdmodeArray pw => Machine.isPhysWord pw
  | .rdmodeMargin pw => Machine.isPhysWord pw
  | .rdReg off => Machine.isReadableOffset off
  | .wrReg off _ => Machine.isWritableOffset off
  | .setBits off _ => Machine.isSetBitsOffset off
  | .waitReady => true
  | .power _ => true
  | .refresh => true
  | .init => true
  | .teardown => true
  | .compose _ _ r => Machine.isRow r
  | .physWord _ r => Machine.isRow r
  | .wordIndex _ => true
  | .programBit _ _ r => Machine.isRow r
  | .readPhys pw _ => Machine.isPhysWord pw
  | .writeWord _ _ => true
  | .readShadow _ => true
  | .readBuf _ => true
  | .hCtrlRead _ => true
  | .hCtrlWrite _ _ => true
  | .hCtrlOther code => code != c.ioctlRead && code != c.ioctlWrite
  | .hStreamWrite _ => true
  | .hStreamRead _ _ => true
  | .hWrite32 _ _ => true

end Sys2Proof
end

