-- ==== Sys2Proof/Safety.lean ====
section
/-! DEFINITION. The terms claims are stated in: the invariants of the machine, the oracle assumptions OA1 to OA5
(R231, R232), which no rule of the model uses, and what an operation adds to the trace. -/

namespace Sys2Proof.Machine
open Sys2Proof Host

/-! ### Where an operation can start -/

/-- The lock is free and the window mapped: an operation invoked now runs at once (R200, R250). -/
def State.available (s : State) : Prop := s.owner = none ∧ s.mapped = true

/-- The responses once the requester being served has got a result (R14, R254). -/
def State.replied (s : State) (r : OpResult) : List (RequesterId × OpResult) := s.responses ++ [(s.caller, r)]

/-- SHADOW[k], for k below 64 (R32). -/
def shadowWord (s : State) (k : Nat) : Word32 := s.shadow.get (Fin.ofNat 64 k)

/-- Virtual byte `a` of the byte view of R55. -/
def virtualByte (s : State) (a : Nat) : Byte := byteOfWord (shadowWord s (a / 4)) (a % 4)

/-- One READ_SHADOW in the trace: the clock on, the read of word `k`, the clock off (R180). -/
def shadowReadEvents (s : State) (k : Nat) : List BusEvent :=
  [.clkOn true, .rd (BitVec.ofNat 32 (0x100 + 4 * k)) (shadowWord s k), .clkOff]

/-! ### Oracle assumptions of one draw (R231, R232) -/

/-- OA1 of one MODE readback: no bit but CMD is set. -/
def cleanReadback (c : Config) (mr : Word32) : Bool :=
  mr &&& (c.opMask ||| c.mPwrDn) == 0 && mr &&& c.restMask == 0

/-- OA1: the next MODE readback is clean. -/
def State.nextReadbackClean (s : State) : Bool := cleanReadback s.cfg s.oracle.nextMode.1

/-- OA2 of one STATUS answer: the next one has BUSY clear. -/
def State.nextStatusReady (s : State) : Bool := isReadyWord s.cfg s.oracle.nextStatus.1

/-- OA2 of one wait: among the next `n + 1` STATUS answers, one has BUSY clear. -/
def readyEventually (c : Config) (o : Oracle) : Nat → Prop
  | 0 => isReadyWord c o.nextStatus.1 = true
  | n + 1 => isReadyWord c o.nextStatus.1 = true ∨ readyEventually c o.nextStatus.2 n

/-- OA3: the next ClockEnable succeeds. -/
def State.nextClockOk (s : State) : Bool := s.oracle.nextClock.1

/-- OA4's answer for one bit of a read: Blank reads 0, Blown reads 1, Weak reads 0 in a margin read and anything
in an array read. -/
def cellReads (kind : ReadKind) (c : CellState) (bit : Bool) : Bool :=
  match c, kind with
  | .blank, _ => !bit
  | .blown, _ => bit
  | .weak, .array => true
  | .weak, .margin => !bit

/-- OA4: the next RD_DATA answer fits the cells of the physical word that ADR addresses, for a read of the kind
given. -/
def State.nextReadFitsCells (s : State) (kind : ReadKind) : Prop :=
  ∀ a : Word32, s.adrLast = some a → ∀ b : Nat, b < 32 →
    cellReads kind (s.fuses.read (b * nPhysWords + a.toNat)) (s.oracle.nextRdData.1.getLsbD b) = true

/-- OA5: the next refresh clears no shadow bit. -/
def State.nextShadowMonotone (s : State) : Prop :=
  ∀ k : Fin 64, s.shadow.get k &&& ~~~(s.oracle.nextShadow.1.get k) = 0

/-! ### Runs, and the oracle assumptions of a run (R231, R232) -/

/-- What may follow a state in a run: a tick of the machine, or a request that reaches the port (log 8). -/
def Follows (s t : State) : Prop :=
  tick s = .next t ∨ ∃ r : RequesterId × Instr, t = { s with port := s.port ++ [r] }

/-- The states of a run, one primitive at a time (R23). -/
def IsRun : List State → Prop
  | s :: t :: rest => Follows s t ∧ IsRun (t :: rest)
  | _ => True

/-- The primitive the next tick performs, if an operation is in progress. -/
def State.nextPrim (s : State) : Option Prim :=
  match s.ctl with
  | .run _ (p :: _) _ => some p
  | _ => none

/-- The operation that called the one in progress. -/
def State.caller? (s : State) : Option Instr :=
  match s.ctl with
  | .run _ _ (f :: _) => some f.op
  | _ => none

/-- The word the next tick writes to MODE. -/
def State.nextModeWord (s : State) : Option Word32 :=
  match s.nextPrim with
  | some (.regWrite off v) => if off = offMode then some v else none
  | some .pulseWrite => some s.cfg.cwProg
  | _ => none

/-- READ_PHYS, or a read-mode word that runs as one (log 10). -/
def isPhysRead : Instr → Bool
  | .readPhys _ _ => true
  | .rdmodeArray _ => true
  | .rdmodeMargin _ => true
  | _ => false

/-- The next tick is the RD_DATA read of a READ_PHYS, after a read command of the kind given (R232, R282). -/
def State.readsData (s : State) (kind : ReadKind) : Prop :=
  s.nextPrim = some (.regRead offRdData) ∧ (∃ i, s.caller? = some i ∧ isPhysRead i = true) ∧
    ∃ v, s.modeLast = some v ∧ decodeCommand s.cfg v = .read kind

/-- OA1 ModeReadbackClean: every BusRead of MODE in the run is clean. -/
def OA1 (run : List State) : Prop :=
  ∀ s ∈ run, s.nextPrim = some (.regRead offMode) → s.nextReadbackClean = true

/-- OA2 ReadyFair: every WAIT_READY of the run reads a STATUS value with BUSY clear after finitely many reads, and
within the poll limit where there is one. -/
def OA2 (run : List State) : Prop :=
  ∀ s ∈ run, s.nextPrim = some .pollInit →
    ∃ n, readyEventually s.cfg s.oracle n ∧ ∀ k, s.cfg.pollLimit = some k → n < k

/-- OA3 ClockOk: every ClockEnable of the run succeeds. -/
def OA3 (run : List State) : Prop :=
  ∀ s ∈ run, s.nextPrim = some .clockEnable → s.nextClockOk = true

/-- OA4 FuseCellModel: the RD_DATA read that follows each Read of the run fits the cells. That a Program moves its
cell to a drawn state at or above its own, and no other cell, is `pulseAt` (log 6). -/
def OA4 (run : List State) : Prop :=
  ∀ s ∈ run, ∀ kind, s.readsData kind → s.nextReadFitsCells kind

/-- OA5 ShadowMonotone: no Refresh of the run clears a shadow bit. -/
def OA5 (run : List State) : Prop :=
  ∀ s ∈ run, ∀ v, s.nextModeWord = some v → decodeCommand s.cfg v = .refresh → s.nextShadowMonotone

/-- A request of the host port, or a block operation that writes MODE only through a call: what may run without a
word of its own choice reaching MODE. -/
def writesNoModeWord : Instr → Bool
  | .cwAread | .cwMread | .cwProg | .cwPwron | .cwPwrdn | .cwRefresh | .cwUndefined _ | .wrReg _ _
  | .setBits _ _ => false
  | _ => true

/-! ### Invariants -/

/-- The block is Idle exactly when the lock is free (R250, R255). -/
def State.lockInv (s : State) : Bool := s.isIdle == s.owner.isNone

/-- What is still to do, the innermost frame first. -/
def State.remaining (s : State) : List Prim :=
  match s.ctl with
  | .idle => []
  | .run _ phase callers => phase ++ callers.flatMap Frame.phase

/-- A primitive that has nothing to do with the clock gate. -/
def clockFree : Prim → Bool
  | .clockEnable => false
  | .checkClock => false
  | .clockDisable => false
  | _ => true

/-- The clock gate's use in what is still to do, the gate being on or off before it (R185): on at ClockEnable, then
the test of it, one register read, and off at ClockDisable; on nowhere else. -/
def clockBalanced : Bool → List Prim → Bool
  | on, [] => !on
  | on, .clockEnable :: .checkClock :: .call (.rdReg _) :: .clockDisable :: rest => !on && clockBalanced false rest
  | _, .checkClock :: .call (.rdReg _) :: .clockDisable :: rest => clockBalanced false rest
  | true, .call (.rdReg _) :: .clockDisable :: rest => clockBalanced false rest
  | true, .regRead _ :: .clockDisable :: rest => clockBalanced false rest
  | true, .clockDisable :: rest => clockBalanced false rest
  | true, _ => false
  | false, p :: rest => clockFree p && clockBalanced false rest

/-- The clock is off outside READ_SHADOW's one read (R185, R261). -/
def State.clockInv (s : State) : Bool := clockBalanced s.clockOn s.remaining

/-- PROGRAM_BIT's writes are among the program commands issued, in order (R37). -/
def State.attemptsLogged (s : State) : Prop := s.attemptLog.Sublist s.pulseLog

/-- An event at an offset the block may access, and a write only to MODE or ADR (R50, R53). -/
def eventAllowed : BusEvent → Bool
  | .rd off _ => isReadableOffset off
  | .wr off _ => isWritableOffset off
  | .clkOn _ => true
  | .clkOff => true

/-- Every event of the trace is one the block may issue (R50, R53, R114). -/
def State.traceInv (s : State) : Bool := s.trace.all eventAllowed

/-! ### Runs of the machine -/

/-- `k` ticks (R23). -/
def tickRun : Nat → State → Outcome State Fault Refusal
  | 0, s => .next s
  | k + 1, s =>
    match tick s with
    | .next t => tickRun k t
    | .fault r => .fault r
    | .refused r => .refused r

/-! ### What an operation draws -/

/-- `n` draws of one source, in order, and the answers left. -/
def drawMany {A : Type} (next : Oracle → A × Oracle) : Nat → Oracle → List A × Oracle
  | 0, o => ([], o)
  | n + 1, o => ((next o).1 :: (drawMany next n (next o).2).1, (drawMany next n (next o).2).2)

/-- What a READ_PHYS that BUSY does not hold draws: the MODE readback, two STATUS words, RD_DATA (R150). -/
structure ReadAnswers where
  mr : Word32
  st1 : Word32
  st2 : Word32
  data : Word32
  deriving DecidableEq, Repr

/-- The answers of the next READ_PHYS, and the answers left. -/
def drawRead (o : Oracle) : ReadAnswers × Oracle :=
  let (mr, o1) := o.nextMode
  let (st1, o2) := o1.nextStatus
  let (st2, o3) := o2.nextStatus
  let (data, o4) := o3.nextRdData
  (⟨mr, st1, st2, data⟩, o4)

/-- The STATUS word of the next PROGRAM_BIT that BUSY does not hold, and the answers left after its pulse (R140). -/
def drawPulse (o : Oracle) : Word32 × Oracle := (o.nextStatus.1, o.nextStatus.2.nextPulse.2)

/-- MODE reads back clean (OA1) and both STATUS words have BUSY clear. -/
def ReadAnswers.fits (a : ReadAnswers) (c : Config) : Prop :=
  cleanReadback c a.mr = true ∧ isReadyWord c a.st1 = true ∧ isReadyWord c a.st2 = true

/-- The seven accesses of READ_PHYS (R150). -/
def ReadAnswers.events (a : ReadAnswers) (c : Config) (pw cw : Word32) : List BusEvent :=
  [.rd offMode a.mr, .wr offMode c.cwPwron, .rd offStatus a.st1, .wr offAdr pw, .wr offMode cw,
    .rd offStatus a.st2, .rd offRdData a.data]

/-! ### The instructions that reach one operation -/

/-- The instructions that run READ_PHYS of `pw` in a read mode: READ_PHYS itself, and the read-mode word (R94,
log 10). -/
def ReadsPhys (c : Config) (i : Instr) (pw mode : Word32) : Prop :=
  (mode = c.mAread ∧ (i = .readPhys pw mode ∨ i = .rdmodeArray pw)) ∨
    (mode = c.mMread ∧ (i = .readPhys pw mode ∨ i = .rdmodeMargin pw))

/-- The instructions that run WRITE_WORD of `vw` and `value` from the answers `start`: WRITE_WORD itself, and the host
writes whose checks pass (R202, R204, R99), with the value of their success. -/
def WritesWord (s : State) (i : Instr) (vw value : Word32) (ok : Value) (start : Oracle) : Prop :=
  (i = .writeWord vw value ∧ ok = .unit ∧ start = s.oracle) ∨
    (s.cfg.programmingEnabled = true ∧ s.oracle.nextCopyIn = (true, start) ∧
      ∃ addr : Word32, addr.toNat < 256 ∧ addr.toNat % 4 = 0 ∧ vw.toNat = addr.toNat / 4 ∧
        ((i = .hCtrlWrite addr value ∧ ok = .unit) ∨
          ((i = .hStreamWrite (payloadBytes addr value) ∨ i = .streamWritePayload addr value ∨
            i = .hWrite32 addr value) ∧ ok = .count 8)))

/-! ### What WRITE_WORD does in one row -/

/-- The bits set in `z`, ascending (R164). -/
def setBitsOf (z : Word32) : List Nat := (List.range 32).filter fun i => z.getLsbD i

/-- The physical bit addresses of the bits set in `z`, in ascending order of the bit, in one row (R164, R170). -/
def rowPulses (vw row z : Word32) : List Word32 :=
  (setBitsOf z).map fun i => composeAddr vw (BitVec.ofNat 32 i) row

/-- What one row of a WRITE_WORD that BUSY does not hold draws: the array read, one STATUS word for each bit to
pulse, the margin read. -/
structure RowAnswers where
  read : ReadAnswers
  pulses : List Word32
  margin : ReadAnswers
  deriving DecidableEq, Repr

/-- The answers of the next row, and the answers left. -/
def drawRow (value : Word32) (o : Oracle) : RowAnswers × Oracle :=
  let (a, o1) := drawRead o
  let (ps, o2) := drawMany drawPulse (setBitsOf (bitsToPulse value a.data)).length o1
  let (m, o3) := drawRead o2
  (⟨a, ps, m⟩, o3)

/-- No answer of the row holds the block, and MODE reads back clean (OA1). -/
def RowAnswers.fits (a : RowAnswers) (c : Config) : Prop :=
  a.read.fits c ∧ (∀ v ∈ a.pulses, isReadyWord c v = true) ∧ a.margin.fits c

/-- The three accesses of each pulse of a row (R140, R173). -/
def pulseEvents (c : Config) : List Word32 → List Word32 → List BusEvent
  | pa :: pas, st :: sts =>
    [.rd offStatus st, .wr offAdr pa, .wr offMode c.cwProg] ++ pulseEvents c pas sts
  | _, _ => []

/-- The pulses of a row (R170). -/
def RowAnswers.pulsed (a : RowAnswers) (vw row value : Word32) : List Word32 :=
  rowPulses vw row (bitsToPulse value a.read.data)

/-- The accesses of one row of WRITE_WORD with nothing busy (R173). -/
def RowAnswers.events (a : RowAnswers) (c : Config) (vw row value : Word32) : List BusEvent :=
  a.read.events c (physWordAddr vw row) c.cwAread ++ pulseEvents c (a.pulsed vw row value) a.pulses ++
    a.margin.events c (physWordAddr vw row) c.cwMread

/-- The failing rows of a word (R166). -/
def failingRows (value m0 m1 : Word32) : Nat := countRow (countRow 0 value m0) value m1

/-- WRITE_WORD's result from its error count, `ok` being the result of success (R168, R204). -/
def writeResult (errCnt : Nat) (ok : Value) : OpResult :=
  if wordFails errCnt then .error .errIO .verifyFailed else .ok ok

end Sys2Proof.Machine
end

