-- ==== Sys2Proof/Certificates/Slice0/Obligations.lean ====
section
/-! DEFINITION. The statements for the provers: what the numbered rules say the machine does. -/

open Sys2Proof Sys2Proof.Machine Host

/-! ### Encodings -/

/-- R86, R87, R88, R220 (and D18): under a valid configuration the decoder maps exactly one word to each of the six
commands, and every other word is undefined. Choices: decisions D2, D4, D18. -/
def Obligations.CommandDecoderMapsSixWords : Prop :=
  ∀ (c : Config) (v : Word32), c.wf = true →
    (decodeCommand c v = .refresh ↔ v = c.refreshCmd) ∧
    (decodeCommand c v = .powerOn ↔ v = c.mCmd) ∧
    (decodeCommand c v = .powerDown ↔ v = c.mPwrDn ||| c.mCmd) ∧
    (decodeCommand c v = .read .array ↔ v = c.mAread ||| c.mCmd) ∧
    (decodeCommand c v = .read .margin ↔ v = c.mMread ||| c.mCmd) ∧
    (decodeCommand c v = .program ↔ v = c.mPrg ||| c.mCmd) ∧
    (decodeCommand c v = .undefined ↔ v ∉ [c.refreshCmd, c.mCmd, c.mPwrDn ||| c.mCmd, c.mAread ||| c.mCmd,
      c.mMread ||| c.mCmd, c.mPrg ||| c.mCmd])

/-- R81, R82, R85, R86, R92, R94: words written out from the spec's encodings, under the default masks: two or more of
each format, least significant byte first. Choices: the default masks are general knowledge, log 1; decisions D2, D4,
D5, D18, D40; the little-endian bytes D13; the places and the byte order of register words log 9. -/
def Obligations.SpecWordsDecode : Prop :=
  decode Config.default .modeWord [0x11, 0, 0, 0] = .ok .cwAread ∧
  decode Config.default .modeWord [0x12, 0, 0, 0] = .ok .cwMread ∧
  decode Config.default .modeWord [0x14, 0, 0, 0] = .ok .cwProg ∧
  decode Config.default .modeWord [0x10, 0, 0, 0] = .ok .cwPwron ∧
  decode Config.default .modeWord [0x18, 0, 0, 0] = .ok .cwPwrdn ∧
  decode Config.default .modeWord [0x30, 0, 0, 0] = .ok .cwRefresh ∧
  decode Config.default .modeWord [0x13, 0, 0, 0] = .ok (.cwUndefined 0x13) ∧
  decode Config.default .adrProgram [0x8B, 0x01, 0, 0] = .ok (.adrProg 3 5 1) ∧
  decode Config.default .adrProgram [0, 0x10, 0, 0] = .error .adrReservedBits ∧
  decode Config.default .adrRead [0x0B, 0, 0, 0] = .ok (.adrRead 5 1) ∧
  decode Config.default .adrRead [0x8B, 0x01, 0, 0] = .error .adrReservedBits ∧
  decode Config.default .statusValue [0xFE, 0xFF, 0xFF, 0xFF] = .ok (.statusReady 0xFFFFFFFE) ∧
  decode Config.default .statusValue [1, 0, 0, 0] = .error .statusBusy ∧
  decode Config.default .readMode [1, 0, 0, 0, 10, 0, 0, 0] = .ok (.rdmodeArray 10) ∧
  decode Config.default .readMode [2, 0, 0, 0, 11, 0, 0, 0] = .ok (.rdmodeMargin 11) ∧
  decode Config.default .readMode [4, 0, 0, 0, 10, 0, 0, 0] = .error .unknownReadMode ∧
  decode Config.default .streamPayload [0x14, 0, 0, 0, 5, 0, 0, 0] = .ok (.streamWritePayload 0x14 5) ∧
  decode Config.default .streamPayload [0x14, 0, 0, 0, 5, 0, 0] = .error .wrongLength

/-- R80, R81, R82, R85, R86, R92, R94: decoding the encoding of a well-formed instruction gives it back, with every
operand at every value its encoding admits. Choices: decisions D2, D4, D5, D18, D32, D40; the little-endian payload
D13; the places and the byte order of register words log 9. -/
def Obligations.DecodeOfEncode : Prop :=
  ∀ (c : Config) (i : Instr) (ch : Channel) (bytes : List Byte), c.wf = true → i.wf c = true →
    encode c i = some (ch, bytes) → decode c ch bytes = .ok i

/-- R80, R81, R82, R86, R92, R94: encoding what some bytes decode to gives the bytes back, so that no bit of an
encoding is dropped. Choices: decisions D2, D4, D5, D18, D32, D40; the little-endian payload D13; the places and the
byte order of register words log 9. -/
def Obligations.EncodeOfDecode : Prop :=
  ∀ (c : Config) (i : Instr) (ch : Channel) (bytes : List Byte), c.wf = true →
    decode c ch bytes = .ok i → encode c i = some (ch, bytes)

/-- R89, R90: a control code selects its request, any third code the unsupported request. Choices: decision D26; the
32 bits of a code are log 1. -/
def Obligations.ControlCodesSelectRequests : Prop :=
  ∀ (c : Config) (code addr value : Word32), c.ctrlCodesDiffer = true →
    decodeCtrl c c.ioctlRead addr value = .hCtrlRead addr ∧
    decodeCtrl c c.ioctlWrite addr value = .hCtrlWrite addr value ∧
    (code ≠ c.ioctlRead → code ≠ c.ioctlWrite → decodeCtrl c code addr value = .hCtrlOther code)

/-! ### The bit-address translator -/

/-- R130 to R133: COMPOSE, PHYS_WORD and WORD_INDEX in every state: the formulas, what they change (the recorded
result), and the refusal of other rows. Choices: decisions D5, D6; the refusal is decision D28; that the translator
takes no lock, runs in every state, locked ones included, and has its result recorded is log 17. -/
def Obligations.TranslatorFollowsTheFormulas : Prop :=
  ∀ (s : State) (w b r addr : Word32),
    ((r = 0 ∨ r = 1) → ∃ pa : Word32, pa = ((b &&& 0x1F) <<< 7) ||| ((w &&& 0x3F) <<< 1) ||| r ∧
      pa.toNat < 4096 ∧
      exec (.compose w b r) s = .next { s with responses := s.replied (.ok (.word pa)) }) ∧
    ((r = 0 ∨ r = 1) → ∃ pw : Word32, pw = ((w &&& 0x3F) <<< 1) ||| r ∧ pw.toNat < 128 ∧
      pw = composeAddr w 0 r ∧
      exec (.physWord w r) s = .next { s with responses := s.replied (.ok (.word pw)) }) ∧
    (¬(r = 0 ∨ r = 1) →
      exec (.compose w b r) s = .refused .rowOutOfRange ∧ exec (.physWord w r) s = .refused .rowOutOfRange) ∧
    (∃ vw : Word32, vw.toNat = addr.toNat / 4 ∧ (addr.toNat < 256 → vw.toNat < 64) ∧
      exec (.wordIndex addr) s = .next { s with responses := s.replied (.ok (.word vw)) })

/-- R134, R135: on words, bits and rows in range COMPOSE is a bijection onto the 12-bit addresses, with the inverse
that takes the three fields out, and the low seven bits are PHYS_WORD; word addresses wrap at 64. Choices: for
PHYS_WORD, decision D5. -/
def Obligations.ComposeIsABijection : Prop :=
  (∀ w b r : Word32, w.toNat < 64 → b.toNat < 32 → r.toNat < 2 →
    (composeAddr w b r).toNat < 4096 ∧
    (bitOf (physBitOf (composeAddr w b r))).toNat = b.toNat ∧
    (wordOf (physBitOf (composeAddr w b r))).toNat = w.toNat ∧
    (rowOf (physBitOf (composeAddr w b r))).toNat = r.toNat ∧
    (physWordOf (physBitOf (composeAddr w b r))).toNat = (physWordAddr w r).toNat) ∧
  (∀ pa : PhysBit, physBitOf (composeAddr ((wordOf pa).setWidth 32) ((bitOf pa).setWidth 32)
    ((rowOf pa).setWidth 32)) = pa) ∧
  (∀ w t b r : Word32, composeAddr (w + 64 * t) b r = composeAddr w b r ∧
    physWordAddr (w + 64 * t) r = physWordAddr w r)

/-! ### The fuse macro's command words -/

/-- R222: the power-on word, that it is exactly `M_CMD`, and that over a clean readback (OA1) SET_BITS of the command
bit writes it. Choices: decision D3 for SET_BITS; the word run as a WR_REG at top level, with Ok(()), is log 10; its
effect while the macro may be busy is D41, log 11; that its effect is complete with its write is log 20; OA1 is a
premise. -/
def Obligations.PowerOnWordSetsPowered : Prop :=
  (∀ s : State, s.available → s.cfg.wf = true →
    exec .cwPwron s = .next { s with
      powered := some true
      modeLast := some s.cfg.mCmd
      trace := s.trace ++ [.wr offMode s.cfg.mCmd]
      ctl := .idle
      responses := s.replied (.ok .unit) }) ∧
  (∀ (c : Config) (v : Word32), c.wf = true → v &&& c.mCmd ≠ 0 → v &&& c.mPwrDn = 0 → v &&& c.opMask = 0 →
    v &&& c.restMask = 0 → v = c.mCmd) ∧
  (∀ (s : State) (mr : Word32) (o : Oracle), s.available → s.oracle.nextMode = (mr, o) →
    cleanReadback s.cfg mr = true → mr ||| s.cfg.mCmd = s.cfg.mCmd ∧
    ∀ t, exec (.setBits offMode s.cfg.mCmd) s = .next t →
      t.modeLast = some s.cfg.mCmd ∧ t.trace = s.trace ++ [.rd offMode mr, .wr offMode s.cfg.mCmd])

/-- R223: the power-down word changes the power state and nothing else: not the cells, not the shadow. Choices:
decision D20, log 12; the table word run as a WR_REG at top level, with Ok(()), is log 10; its effect while the macro
may be busy is D41, log 11; that its effect is complete with its write is log 20. -/
def Obligations.PowerDownWordClearsPowered : Prop :=
  ∀ s : State, s.available → s.cfg.wf = true →
    exec .cwPwrdn s = .next { s with
      powered := some false
      modeLast := some (s.cfg.mPwrDn ||| s.cfg.mCmd)
      trace := s.trace ++ [.wr offMode (s.cfg.mPwrDn ||| s.cfg.mCmd)]
      ctl := .idle
      responses := s.replied (.ok .unit) }

/-- R221, R228: the read words check power, then the address; they change neither cells nor shadow. Choices: decisions
D4, D18; that an unpowered read faults ReadUnpowered whatever ADR holds is log 25; the table words run as a WR_REG at
top level, with Ok(()), by log 10; their effect while the macro may be busy is D41, log 11. -/
def Obligations.ReadWordsCheckPowerAndAddress : Prop :=
  ∀ s : State, s.available → s.cfg.wf = true →
    (∀ a, s.powered = some true → s.adrLast = some a → a.toNat < 128 →
      exec .cwAread s = .next { s with
        modeLast := some (s.cfg.mAread ||| s.cfg.mCmd)
        trace := s.trace ++ [.wr offMode (s.cfg.mAread ||| s.cfg.mCmd)]
        ctl := .idle
        responses := s.replied (.ok .unit) } ∧
      exec .cwMread s = .next { s with
        modeLast := some (s.cfg.mMread ||| s.cfg.mCmd)
        trace := s.trace ++ [.wr offMode (s.cfg.mMread ||| s.cfg.mCmd)]
        ctl := .idle
        responses := s.replied (.ok .unit) }) ∧
    (s.powered ≠ some true → exec .cwAread s = .fault .readUnpowered ∧ exec .cwMread s = .fault .readUnpowered) ∧
    (s.powered = some true → (s.adrLast = none ∨ ∃ a, s.adrLast = some a ∧ 128 ≤ a.toNat) →
      exec .cwAread s = .fault .adrInvalid ∧ exec .cwMread s = .fault .adrInvalid)

/-- R224, R228: the program word logs one pulse at the address in ADR, whatever the power state; that cell does not
fall, every other cell and everything else stays. The cell's new state is a free value. Choices: decision D29; the
cell's states are log 6, the free value log 7; the table word run as a WR_REG at top level, with Ok(()), is log 10;
its effect while the macro may be busy is D41, log 11; that its effect is complete with its write is log 20. -/
def Obligations.ProgramWordPulsesOneCell : Prop :=
  ∀ s : State, s.available → s.cfg.wf = true → s.fuses.wf = true →
    (∀ a, s.adrLast = some a → a.toNat < 4096 → ∃ t, exec .cwProg s = .next t ∧
      (∀ x, x ≠ a.toNat → t.fuses.read x = s.fuses.read x) ∧
      cellRank (s.fuses.read a.toNat) ≤ cellRank (t.fuses.read a.toNat) ∧
      t = { s with
        fuses := t.fuses
        oracle := s.oracle.nextPulse.2
        pulseLog := s.pulseLog ++ [a.setWidth 12]
        modeLast := some (s.cfg.mPrg ||| s.cfg.mCmd)
        trace := s.trace ++ [.wr offMode (s.cfg.mPrg ||| s.cfg.mCmd)]
        ctl := .idle
        responses := s.replied (.ok .unit) }) ∧
    ((s.adrLast = none ∨ ∃ a, s.adrLast = some a ∧ 4096 ≤ a.toNat) → exec .cwProg s = .fault .adrInvalid)

/-- R122, R226: the refresh word and REFRESH load the 64 shadow registers with a draw, count the refresh, and change
nothing else; no poll is made and `powered` is not checked. Choices: decisions D8, D20; the draw is log 7; the table
word run as a WR_REG is log 10; its effect while the macro may be busy is D41, log 11; that its effect is complete
with its write is log 20. -/
def Obligations.RefreshLoadsTheShadow : Prop :=
  ∀ (s : State) (i : Instr), i = .cwRefresh ∨ i = .refresh → s.available →
    exec i s = .next { s with
      shadow := s.oracle.nextShadow.1
      oracle := s.oracle.nextShadow.2
      refreshCount := s.refreshCount + 1
      modeLast := some s.cfg.refreshCmd
      trace := s.trace ++ [.wr offMode s.cfg.refreshCmd]
      ctl := .idle
      responses := s.replied (.ok .unit) }

/-- R88, R227: a word outside the command map faults, and the fault keeps the word and `modeLast`. Choices: decision
D18; what the fault carries is log 13; the table row run as a WR_REG of its word is log 10; that it is decoded while
the macro may be busy is D41, log 11. -/
def Obligations.UndefinedWordFaults : Prop :=
  ∀ (s : State) (v : Word32), s.available → s.cfg.wf = true → v ∉ s.cfg.commandWords →
    exec (.cwUndefined v) s = .fault (.macroUndefined v (some v))

/-- R27, R58, R81, R82: the address words put bit, word and row at their places in ADR and have no other effect.
Choices: decision D5, log 10. -/
def Obligations.AddressWordsGoToAdr : Prop :=
  ∀ (s : State) (b : BitVec 5) (w : BitVec 6) (r : BitVec 1), s.available →
    (∃ v : Word32, v.toNat = b.toNat * 128 + w.toNat * 2 + r.toNat ∧
      exec (.adrProg b w r) s = .next { s with
        adrLast := some v
        trace := s.trace ++ [.wr offAdr v]
        ctl := .idle
        responses := s.replied (.ok .unit) }) ∧
    (∃ v : Word32, v.toNat = w.toNat * 2 + r.toNat ∧
      exec (.adrRead w r) s = .next { s with
        adrLast := some v
        trace := s.trace ++ [.wr offAdr v]
        ctl := .idle
        responses := s.replied (.ok .unit) })

/-- R85, R120: a STATUS word with BUSY clear ends a wait at its first read. That the word runs as a WAIT_READY it
answers is the model's choice (log 10). Choices: the table word runs so by log 10; decision D2. -/
def Obligations.ReadyWordEndsTheWait : Prop :=
  ∀ (s : State) (v : Word32), s.available → v &&& s.cfg.sBusy = 0 →
    exec (.statusReady v) s = .next { s with
      work := { s.work with polls := 0, ret := v }
      trace := s.trace ++ [.rd offStatus v]
      ctl := .idle
      responses := s.replied (.ok .unit) }

/-! ### The register protocol -/

/-- R110, R230: RD_REG of an admitted offset answers a shadow register or the next draw of its register, and writes
the trace and nothing else of the spec's state; any other offset is refused. Choices: decisions D19, D21; that a
shadow read checks no power D20; the draws are log 4 and log 7. -/
def Obligations.RdRegAnswers : Prop :=
  ∀ (s : State) (off : Word32), s.available →
    (isReadableOffset off = true → ∃ (v : Word32) (o : Oracle),
      exec (.rdReg off) s = .next { s with
        work := { s.work with ret := v }
        oracle := o
        trace := s.trace ++ [.rd off v]
        ctl := .idle
        responses := s.replied (.ok (.word v)) } ∧
      (off = offMode → (v, o) = s.oracle.nextMode) ∧
      (off = offAdr → (v, o) = s.oracle.nextAdr) ∧
      (off = offRdData → (v, o) = s.oracle.nextRdData) ∧
      (off = offStatus → (v, o) = s.oracle.nextStatus) ∧
      (∀ k, k < 64 → off.toNat = 0x100 + 4 * k → v = shadowWord s k ∧ o = s.oracle)) ∧
    (isReadableOffset off = false → exec (.rdReg off) s = .refused .offsetUndefined)

/-- R110 to R112, R33, R50: which offsets the three primitives accept. Choices: decisions D3, D21. -/
def Obligations.PrimitivesAdmitNamedOffsets : Prop :=
  ∀ off : Word32,
    (isReadableOffset off = true ↔ off.toNat = 0x0 ∨ off.toNat = 0x4 ∨ off.toNat = 0xC ∨ off.toNat = 0x10 ∨
      ∃ k, k < 64 ∧ off.toNat = 0x100 + 4 * k) ∧
    (isWritableOffset off = true ↔ off.toNat = 0x0 ∨ off.toNat = 0x4) ∧
    (isSetBitsOffset off = true ↔ off.toNat = 0x0)

/-- R111: WR_REG to ADR, to MODE (whatever the command's outcome), and to any other offset. Choices: decisions D18,
D21; the decoding of a word while the macro may be busy is D41, log 11; the choices of the decoded command itself (D20
with log 12, D29, logs 20 and 25) are those of its word. -/
def Obligations.WrRegWritesAdrOrMode : Prop :=
  ∀ (s : State) (v : Word32), s.available →
    exec (.wrReg offAdr v) s = .next { s with
      adrLast := some v
      trace := s.trace ++ [.wr offAdr v]
      ctl := .idle
      responses := s.replied (.ok .unit) } ∧
    exec (.wrReg offMode v) s =
      (match applyCommand v { s with trace := s.trace ++ [.wr offMode v], modeLast := some v } with
      | .next t => .next { t with ctl := .idle, responses := s.replied (.ok .unit) }
      | .fault r => .fault r
      | .refused r => .refused r) ∧
    (∀ off, off ≠ offAdr → off ≠ offMode → exec (.wrReg off v) s = .refused .offsetUndefined)

/-- R112: SET_BITS reads MODE and writes the readback with the mask set, decoded as a command; with a clean readback
(OA1, R231) and the command bit as mask it powers on; any other offset is refused before an access. Choices: decisions
D3, D18, D19; the effect of the word, a power-on for one, while the macro may be busy is D41, log 11; the choices of
the decoded command itself (D20 with log 12, D29, logs 20 and 25) are those of its word; OA1 is a premise of the
power-on. -/
def Obligations.SetBitsWritesReadbackOrMask : Prop :=
  ∀ (s : State) (mask mr : Word32) (o : Oracle), s.available → s.oracle.nextMode = (mr, o) →
    exec (.setBits offMode mask) s =
      (match applyCommand (mr ||| mask) { s with
          work := { s.work with ret := mr }
          oracle := o
          trace := s.trace ++ [.rd offMode mr, .wr offMode (mr ||| mask)]
          modeLast := some (mr ||| mask) } with
      | .next t => .next { t with ctl := .idle, responses := s.replied (.ok .unit) }
      | .fault r => .fault r
      | .refused r => .refused r) ∧
    (s.cfg.wf = true → cleanReadback s.cfg mr = true → exec (.setBits offMode s.cfg.mCmd) s = .next { s with
      work := { s.work with ret := mr }
      oracle := o
      powered := some true
      trace := s.trace ++ [.rd offMode mr, .wr offMode s.cfg.mCmd]
      modeLast := some s.cfg.mCmd
      ctl := .idle
      responses := s.replied (.ok .unit) }) ∧
    (∀ off, off ≠ offMode → exec (.setBits off mask) s = .refused .offsetUndefined)

/-! ### The handshake -/

/-- R120, R14, R246: WAIT_READY whose first read finds BUSY clear returns; with BUSY set it holds, the lock kept,
unless the poll limit is 1. Choices: decisions D9, D19; a step that ends at a hold is log 2. -/
def Obligations.WaitReadyReturnsHoldsOrTimesOut : Prop :=
  ∀ (s : State) (v : Word32) (o : Oracle), s.available → s.oracle.nextStatus = (v, o) →
    (isReadyWord s.cfg v = true →
      exec .waitReady s = .next { s with
        work := { s.work with polls := 0, ret := v }
        oracle := o
        trace := s.trace ++ [.rd offStatus v]
        ctl := .idle
        responses := s.replied (.ok .unit) }) ∧
    (isReadyWord s.cfg v = false →
      s.cfg.pollLimit = none ∨ (∃ k, s.cfg.pollLimit = some k ∧ 1 < k) →
      exec .waitReady s = .next { s with
        work := { s.work with polls := 1, ret := v }
        oracle := o
        trace := s.trace ++ [.rd offStatus v]
        owner := some s.caller
        ctl := .run .waitReady [.poll, .pollTest] [] }) ∧
    (isReadyWord s.cfg v = false → s.cfg.pollLimit = some 1 →
      exec .waitReady s = .next { s with
        work := { s.work with polls := 1, ret := v }
        oracle := o
        trace := s.trace ++ [.rd offStatus v]
        ctl := .idle
        responses := s.replied (.error .errTimeout .readyTimeout) })

/-- R120, R246, R254: an operation held in WAIT_READY, in whatever frames, reads STATUS again: on a busy answer a step
polls on until the k-th busy read, which ends the whole operation with ErrTimeout and nothing further; on an answer
with BUSY clear the wait is over and the operation goes on, which for a WAIT_READY of its own is its end with Ok.
Choices: decisions D9, D10, D36; the step and the tick are log 2; for STATUS_READY log 10. -/
def Obligations.HeldWaitPollsOrGoesOn : Prop :=
  ∀ (s : State) (op : Instr) (phase : List Prim) (callers : List Frame) (q : RequesterId) (v : Word32) (o : Oracle),
    s.ctl = .run op (.poll :: .pollTest :: phase) callers → s.owner = some q → s.oracle.nextStatus = (v, o) →
    (isReadyWord s.cfg v = false →
      s.cfg.pollLimit = none ∨ (∃ k, s.cfg.pollLimit = some k ∧ s.work.polls + 1 < k) →
      step s = .next { s with
        work := { s.work with polls := s.work.polls + 1, ret := v }
        oracle := o
        trace := s.trace ++ [.rd offStatus v] }) ∧
    (isReadyWord s.cfg v = false → ∀ k, s.cfg.pollLimit = some k → k ≤ s.work.polls + 1 →
      step s = .next { s with
        work := { s.work with polls := s.work.polls + 1, ret := v }
        oracle := o
        trace := s.trace ++ [.rd offStatus v]
        owner := none
        ctl := .idle
        responses := s.responses ++ [(q, .error .errTimeout .readyTimeout)] }) ∧
    (isReadyWord s.cfg v = true →
      tickRun 2 s = .next { s with
        work := { s.work with ret := v }
        oracle := o
        trace := s.trace ++ [.rd offStatus v]
        ctl := .run op phase callers }) ∧
    (isReadyWord s.cfg v = true → phase = [] → callers = [] → (op = .waitReady ∨ ∃ w, op = .statusReady w) →
      step s = .next { s with
        work := { s.work with ret := v }
        oracle := o
        trace := s.trace ++ [.rd offStatus v]
        owner := none
        ctl := .idle
        responses := s.responses ++ [(q, .ok .unit)] })

/-- R120, R231: under OA2, and a poll limit it stays below, a WAIT_READY in whatever frames reads busy answers, then
one with BUSY clear, and is over; nothing else changes. The sequencer takes its steps one at a time. Choices: the
premise is OA2, stated over the answers, log 22; the ticks are log 2; decision D9. -/
def Obligations.FairWaitsEnd : Prop :=
  ∀ (s : State) (op : Instr) (phase : List Prim) (callers : List Frame) (n : Nat),
    s.ctl = .run op (.pollInit :: .poll :: .pollTest :: phase) callers →
    readyEventually s.cfg s.oracle n → (∀ k, s.cfg.pollLimit = some k → n < k) →
    ∃ m v o, m ≤ n ∧
      (∀ b ∈ (drawMany Oracle.nextStatus m s.oracle).1, isReadyWord s.cfg b = false) ∧
      (drawMany Oracle.nextStatus m s.oracle).2.nextStatus = (v, o) ∧ isReadyWord s.cfg v = true ∧
      tickRun (2 * m + 3) s = .next { s with
        work := { s.work with polls := m, ret := v }
        oracle := o
        trace := s.trace ++ (drawMany Oracle.nextStatus m s.oracle).1.map (.rd offStatus) ++ [.rd offStatus v]
        ctl := .run op phase callers }

/-- R121, R231: POWER over a clean MODE readback. Choices: decisions D3, D24; D20, log 12 for the shadow; the effect
while the macro may be busy is D41, log 11; that its effect is complete with its write is log 20; OA1 is a premise. -/
def Obligations.PowerWritesItsCommand : Prop :=
  ∀ (s : State) (mr : Word32) (o : Oracle), s.available → s.cfg.wf = true → s.oracle.nextMode = (mr, o) →
    cleanReadback s.cfg mr = true →
    exec (.power true) s = .next { s with
      work := { s.work with ret := mr }
      oracle := o
      powered := some true
      modeLast := some s.cfg.mCmd
      trace := s.trace ++ [.rd offMode mr, .wr offMode s.cfg.mCmd]
      ctl := .idle
      responses := s.replied (.ok .unit) } ∧
    exec (.power false) s = .next { s with
      work := { s.work with ret := mr }
      oracle := o
      powered := some false
      modeLast := some (s.cfg.mPwrDn ||| s.cfg.mCmd)
      trace := s.trace ++ [.rd offMode mr, .wr offMode (s.cfg.mPwrDn ||| s.cfg.mCmd)]
      ctl := .idle
      responses := s.replied (.ok .unit) }

/-- R223, R224, R283, R289: POWER(true) over a MODE that reads back PWR_DN powers down; over one that reads back PRG
it issues a second pulse at the address in ADR, which `attemptLog` does not record. Choices: decisions D3, D18, D19;
that the power-down keeps the shadow is D20, log 12; that the pulse is issued whatever the power state is D29; the
effect while the macro may be busy is D41, log 11; that its effect is complete with its write is log 20; what enters
attemptLog is log 14. -/
def Obligations.PowerOnHazards : Prop :=
  ∀ (s : State) (o : Oracle), s.available → s.cfg.wf = true →
    (s.oracle.nextMode = (s.cfg.mPwrDn, o) →
      exec (.power true) s = .next { s with
        work := { s.work with ret := s.cfg.mPwrDn }
        oracle := o
        powered := some false
        modeLast := some (s.cfg.mPwrDn ||| s.cfg.mCmd)
        trace := s.trace ++ [.rd offMode s.cfg.mPwrDn, .wr offMode (s.cfg.mPwrDn ||| s.cfg.mCmd)]
        ctl := .idle
        responses := s.replied (.ok .unit) }) ∧
    (∀ a, s.oracle.nextMode = (s.cfg.mPrg, o) → s.adrLast = some a → a.toNat < 4096 →
      ∃ t, exec (.power true) s = .next t ∧ t.pulseLog = s.pulseLog ++ [a.setWidth 12] ∧
        t.attemptLog = s.attemptLog ∧ t.powered = s.powered ∧
        t.trace = s.trace ++ [.rd offMode s.cfg.mPrg, .wr offMode (s.cfg.mPrg ||| s.cfg.mCmd)])

/-- R124, R125: INIT maps the window, fails with ErrResource, or is refused; TEARDOWN unmaps it, or is refused.
Choices: decisions D38, D39. -/
def Obligations.InitAndTeardownMapTheWindow : Prop :=
  ∀ s : State, s.owner = none →
    (s.mapped = false → s.oracle.nextMapping.1 = true →
      exec .init s = .next { s with
        mapped := true
        oracle := s.oracle.nextMapping.2
        ctl := .idle
        responses := s.replied (.ok .unit) }) ∧
    (s.mapped = false → s.oracle.nextMapping.1 = false →
      exec .init s = .next { s with
        oracle := s.oracle.nextMapping.2
        ctl := .idle
        responses := s.replied (.error .errResource .mapFailed) }) ∧
    (s.mapped = true → exec .init s = .refused .initTwice) ∧
    (s.mapped = true →
      exec .teardown s = .next { s with
        mapped := false
        ctl := .idle
        responses := s.replied (.ok .unit) }) ∧
    (s.mapped = false → exec .teardown s = .refused .notMapped)

/-! ### Array operations -/

/-- R140, R141, R142: PROGRAM_BIT with the macro ready: one poll, the address, one program command; both logs gain the
address; no cell but that one changes and that one does not fall. Choices: decisions D3, D29; the cell's states are
log 6, its free value log 7, the log entry's place log 14; that the pulse is complete with its write is log 20. -/
def Obligations.ProgramBitIssuesOnePulse : Prop :=
  ∀ (s : State) (w b r : Word32), s.available → s.cfg.wf = true → s.fuses.wf = true → (r = 0 ∨ r = 1) →
    s.nextStatusReady = true →
    ∃ t, exec (.programBit w b r) s = .next t ∧
      (∀ x, x ≠ (composeAddr w b r).toNat → t.fuses.read x = s.fuses.read x) ∧
      cellRank (s.fuses.read (composeAddr w b r).toNat) ≤ cellRank (t.fuses.read (composeAddr w b r).toNat) ∧
      t = { s with
        fuses := t.fuses
        oracle := s.oracle.nextStatus.2.nextPulse.2
        work := { s.work with polls := 0, ret := s.oracle.nextStatus.1 }
        adrLast := some (composeAddr w b r)
        modeLast := some (s.cfg.mPrg ||| s.cfg.mCmd)
        pulseLog := s.pulseLog ++ [physBitOf (composeAddr w b r)]
        attemptLog := s.attemptLog ++ [physBitOf (composeAddr w b r)]
        trace := s.trace ++ [.rd offStatus s.oracle.nextStatus.1, .wr offAdr (composeAddr w b r),
          .wr offMode (s.cfg.mPrg ||| s.cfg.mCmd)]
        ctl := .idle
        responses := s.replied (.ok .unit) }

/-- R133, R140, R246: PROGRAM_BIT refuses a row outside 0 and 1; timed out, it issues no pulse and no address.
Choices: decisions D9, D28. -/
def Obligations.ProgramBitStopsBeforeThePulse : Prop :=
  ∀ (s : State) (w b r : Word32), s.available →
    (¬(r = 0 ∨ r = 1) → exec (.programBit w b r) s = .refused .rowOutOfRange) ∧
    ((r = 0 ∨ r = 1) → s.cfg.pollLimit = some 1 → s.nextStatusReady = false →
      exec (.programBit w b r) s = .next { s with
        work := { s.work with polls := 1, ret := s.oracle.nextStatus.1 }
        oracle := s.oracle.nextStatus.2
        trace := s.trace ++ [.rd offStatus s.oracle.nextStatus.1]
        ctl := .idle
        responses := s.replied (.error .errTimeout .readyTimeout) })

/-- R94, R150, R154: READ_PHYS in either mode, MODE reading back clean and nothing busy: seven accesses and the value
RD_DATA answers. Choices: decisions D3, D4, D5, D19, D40; the draws log 7; the read-mode words run as log 10 says; OA1
is a premise; the effect of POWER and of the read command while the macro may be busy is D41, log 11. -/
def Obligations.ReadPhysMakesSevenAccesses : Prop :=
  ∀ (s : State) (pw mode mr st1 st2 d : Word32) (o1 o2 o3 o4 : Oracle) (i : Instr), s.available →
    s.cfg.wf = true → pw.toNat < 128 →
    ReadsPhys s.cfg i pw mode →
    s.oracle.nextMode = (mr, o1) → cleanReadback s.cfg mr = true →
    o1.nextStatus = (st1, o2) → isReadyWord s.cfg st1 = true →
    o2.nextStatus = (st2, o3) → isReadyWord s.cfg st2 = true →
    o3.nextRdData = (d, o4) →
    exec i s = .next { s with
      work := { s.work with polls := 0, ret := d }
      oracle := o4
      powered := some true
      adrLast := some pw
      modeLast := some (mode ||| s.cfg.mCmd)
      trace := s.trace ++ [.rd offMode mr, .wr offMode s.cfg.mCmd, .rd offStatus st1, .wr offAdr pw,
        .wr offMode (mode ||| s.cfg.mCmd), .rd offStatus st2, .rd offRdData d]
      ctl := .idle
      responses := s.replied (.ok (.word d)) }

/-- R150, R152, R252: READ_PHYS checks the mode first, with no bus access, then the physical word, as the read-mode
words do. Choices: decisions D5, D14, D40; the read-mode words run as log 10 says. -/
def Obligations.ReadPhysChecksItsOperands : Prop :=
  ∀ (s : State) (pw mode : Word32), s.available →
    (mode ≠ s.cfg.mAread → mode ≠ s.cfg.mMread →
      exec (.readPhys pw mode) s = .next { s with
        ctl := .idle
        responses := s.replied (.error .errUnsupported .unknownReadMode) }) ∧
    (∀ i, ReadsPhys s.cfg i pw mode → 128 ≤ pw.toNat → exec i s = .refused .physWordOutOfRange)

/-- R150, R246, R23: READ_PHYS that BUSY stops, MODE reading back clean: at a poll limit of 1 a busy answer in the
first wait ends it before the address and the read command, one in the second wait before RD_DATA is read; with no
limit the first wait holds the block, nested in READ_PHYS. Choices: decisions D3, D4, D5, D9, D40; the hold and the
frames are log 2; the read-mode words log 10; OA1 is a premise; the effect of POWER while the macro may be busy is
D41, log 11. -/
def Obligations.ReadPhysStopsAtItsWaits : Prop :=
  ∀ (s : State) (pw mode mr st1 st2 : Word32) (o1 o2 o3 : Oracle) (i : Instr), s.available →
    s.cfg.wf = true → pw.toNat < 128 → ReadsPhys s.cfg i pw mode →
    s.oracle.nextMode = (mr, o1) → cleanReadback s.cfg mr = true → o1.nextStatus = (st1, o2) →
    o2.nextStatus = (st2, o3) →
    (isReadyWord s.cfg st1 = false → s.cfg.pollLimit = some 1 →
      exec i s = .next { s with
        work := { s.work with polls := 1, ret := st1 }
        oracle := o2
        powered := some true
        modeLast := some s.cfg.mCmd
        trace := s.trace ++ [.rd offMode mr, .wr offMode s.cfg.mCmd, .rd offStatus st1]
        ctl := .idle
        responses := s.replied (.error .errTimeout .readyTimeout) }) ∧
    (isReadyWord s.cfg st1 = true → isReadyWord s.cfg st2 = false → s.cfg.pollLimit = some 1 →
      exec i s = .next { s with
        work := { s.work with polls := 1, ret := st2 }
        oracle := o3
        powered := some true
        adrLast := some pw
        modeLast := some (mode ||| s.cfg.mCmd)
        trace := s.trace ++ [.rd offMode mr, .wr offMode s.cfg.mCmd, .rd offStatus st1, .wr offAdr pw,
          .wr offMode (mode ||| s.cfg.mCmd), .rd offStatus st2]
        ctl := .idle
        responses := s.replied (.error .errTimeout .readyTimeout) }) ∧
    (isReadyWord s.cfg st1 = false → s.cfg.pollLimit = none →
      exec i s = .next { s with
        work := { s.work with polls := 1, ret := st1 }
        oracle := o2
        powered := some true
        modeLast := some s.cfg.mCmd
        trace := s.trace ++ [.rd offMode mr, .wr offMode s.cfg.mCmd, .rd offStatus st1]
        owner := some s.caller
        ctl := .run .waitReady [.poll, .pollTest] [⟨i, [.call (.wrReg offAdr pw),
          .call (.wrReg offMode (mode ||| s.cfg.mCmd)), .call .waitReady, .call (.rdReg offRdData)]⟩] })

/-- R160 to R171, R173, and R202, R204, R99 for the host's writes: WRITE_WORD, and every request that reaches it, when
none of the answers it draws is busy and MODE reads back clean (OA1): in each row exactly the bits of `value & ~cur`
are pulsed, in ascending order, whatever else holds; the refresh follows and brings the next shadow draw; the result
is ErrIO exactly when both rows fail; no cell falls, every cell not pulsed and all other state stays. Choices:
decisions D1, D3, D4, D5, D6, D7, D8, D11, D13, D14, D18, D19, D20, D25, D35; the power-on, the refresh and the other
commands while the macro may be busy D41, log 11; the draws log 7, the cells log 6, the payload row log 10, the form
of Ok(8) log 23, the attempts log 14, the user copy log 19, that a command is complete with its write log 20, the step
log 2; that adrLast ends at the address of the last margin read, by R111 and the traces, against the end states of P1
and P5 in 95_test_vectors.md, is log 18; OA1 is a premise. -/
def Obligations.WriteWordProgramsTheMissingBits : Prop :=
  ∀ (s : State) (i : Instr) (ok : Value) (vw value : Word32) (start o0 o1 : Oracle) (r0 r1 : RowAnswers),
    s.available → s.cfg.wf = true → s.fuses.wf = true → WritesWord s i vw value ok start →
    drawRow value start = (r0, o0) → r0.fits s.cfg → drawRow value o0 = (r1, o1) → r1.fits s.cfg →
    ∃ t, exec i s = .next t ∧
      (∀ x, (∀ pa ∈ r0.pulsed vw 0 value ++ r1.pulsed vw 1 value, x ≠ pa.toNat) →
        t.fuses.read x = s.fuses.read x) ∧
      (∀ x, cellRank (s.fuses.read x) ≤ cellRank (t.fuses.read x)) ∧
      t = { s with
        fuses := t.fuses
        oracle := o1.nextShadow.2
        shadow := o1.nextShadow.1
        refreshCount := s.refreshCount + 1
        work := { s.work with
          j := 1
          errCnt := failingRows value r0.margin.data r1.margin.data
          cur := r1.read.data
          z := value &&& ~~~r1.read.data
          i := 32
          m := r1.margin.data
          polls := 0
          ret := r1.margin.data }
        powered := some true
        adrLast := some (physWordAddr vw 1)
        modeLast := some s.cfg.refreshCmd
        attemptLog := s.attemptLog ++ (r0.pulsed vw 0 value ++ r1.pulsed vw 1 value).map physBitOf
        pulseLog := s.pulseLog ++ (r0.pulsed vw 0 value ++ r1.pulsed vw 1 value).map physBitOf
        trace := s.trace ++ r0.events s.cfg vw 0 value ++ r1.events s.cfg vw 1 value ++
          [.wr offMode s.cfg.refreshCmd]
        ctl := .idle
        responses := s.replied (writeResult (failingRows value r0.margin.data r1.margin.data) ok) }

/-- R160, R164, R167, R169, R246: WRITE_WORD, and every request that reaches it, timed out. In whichever wait it
happens, of either row, at any poll limit, at once or after holds, MODE having read back clean: the pulses issued are
logged and kept, each a bit of `value`, no other cell changes, none falls, and no refresh is issued. At a poll limit
of 1: in the first wait of the first read, before any access but POWER's and the poll; in the wait before a pulse of
row 0, with exactly the pulses before it issued. Choices: decisions D1, D3, D4, D5, D6, D7, D9, D11, D13, D14, D18,
D19, D25, D36; that a timeout ends it at once and issues no refresh is decision D10; the commands while the macro may
be busy D41, log 11; the draws log 7, the cells log 6, the payload row log 10, the step and its holds log 2, the
attempts log 14, the user copy log 19, that a command is complete with its write log 20; OA1 is a premise. -/
def Obligations.WriteWordStopsAtItsWaits : Prop :=
  ∀ (s : State) (i : Instr) (ok : Value) (vw value : Word32) (start : Oracle),
    s.available → s.cfg.wf = true → s.fuses.wf = true → WritesWord s i vw value ok start →
    (∀ (n : Nat) (u t : State) (added : List BusEvent), s.port = [] → exec i s = .next u →
      Sys2Proof.core.run n u = .next t → t.trace = s.trace ++ added →
      (∀ v, .rd offMode v ∈ added → cleanReadback s.cfg v = true) →
      t.responses = s.replied (.error .errTimeout .readyTimeout) →
      t.owner = none ∧ t.ctl = .idle ∧ t.shadow = s.shadow ∧ t.refreshCount = s.refreshCount ∧
      ∃ pulses : List Word32,
        t.pulseLog = s.pulseLog ++ pulses.map physBitOf ∧ t.attemptLog = s.attemptLog ++ pulses.map physBitOf ∧
        (∀ pa ∈ pulses, ∃ k r, k < 32 ∧ value.getLsbD k = true ∧ (r = 0 ∨ r = 1) ∧
          pa = composeAddr vw (BitVec.ofNat 32 k) r) ∧
        (∀ x, (∀ pa ∈ pulses, x ≠ pa.toNat) → t.fuses.read x = s.fuses.read x) ∧
        (∀ x, cellRank (s.fuses.read x) ≤ cellRank (t.fuses.read x))) ∧
    ∀ (o0 : Oracle) (a : ReadAnswers), s.cfg.pollLimit = some 1 → drawRead start = (a, o0) →
      cleanReadback s.cfg a.mr = true →
      (isReadyWord s.cfg a.st1 = false →
        exec i s = .next { s with
          work := { s.work with errCnt := 0, j := 0, polls := 1, ret := a.st1 }
          oracle := start.nextMode.2.nextStatus.2
          powered := some true
          modeLast := some s.cfg.mCmd
          trace := s.trace ++ [.rd offMode a.mr, .wr offMode s.cfg.mCmd, .rd offStatus a.st1]
          ctl := .idle
          responses := s.replied (.error .errTimeout .readyTimeout) }) ∧
      (∀ (n : Nat) (sts : List Word32) (o : Oracle), a.fits s.cfg →
        n < (rowPulses vw 0 (value &&& ~~~a.data)).length → drawMany drawPulse n o0 = (sts, o) →
        (∀ v ∈ sts, isReadyWord s.cfg v = true) → isReadyWord s.cfg o.nextStatus.1 = false →
        ∃ t, exec i s = .next t ∧
          (∀ x, (∀ pa ∈ (rowPulses vw 0 (value &&& ~~~a.data)).take n, x ≠ pa.toNat) →
            t.fuses.read x = s.fuses.read x) ∧
          (∀ x, cellRank (s.fuses.read x) ≤ cellRank (t.fuses.read x)) ∧
          t = { s with
            fuses := t.fuses
            oracle := o.nextStatus.2
            work := t.work
            powered := some true
            adrLast := t.adrLast
            modeLast := t.modeLast
            attemptLog := s.attemptLog ++ ((rowPulses vw 0 (value &&& ~~~a.data)).take n).map physBitOf
            pulseLog := s.pulseLog ++ ((rowPulses vw 0 (value &&& ~~~a.data)).take n).map physBitOf
            trace := s.trace ++ a.events s.cfg (physWordAddr vw 0) s.cfg.cwAread ++
              pulseEvents s.cfg ((rowPulses vw 0 (value &&& ~~~a.data)).take n) sts ++
              [.rd offStatus o.nextStatus.1]
            ctl := .idle
            responses := s.replied (.error .errTimeout .readyTimeout) })

/-- R166, R168, R209: a word fails exactly when neither row passes the one-sided verify, and its count is the number
of failing rows. -/
def Obligations.WordFailsWhenBothRowsFail : Prop :=
  ∀ (value m0 m1 : Word32) (ok : Value),
    failingRows value m0 m1 ≤ 2 ∧
    failingRows value m0 m1 = (if value &&& m0 = value then 0 else 1) + (if value &&& m1 = value then 0 else 1) ∧
    (writeResult (failingRows value m0 m1) ok = .error .errIO .verifyFailed ↔
      value &&& m0 ≠ value ∧ value &&& m1 ≠ value) ∧
    (writeResult (failingRows value m0 m1) ok = .ok ok ↔ value &&& m0 = value ∨ value &&& m1 = value)

/-- R163, R164, R170: the pulses of a row are one for each bit in `value & ~cur`: set in `value`, clear in `cur`; they
lie in that row of that word. Choices: the ascending order is decision D7. -/
def Obligations.RowPulsesAreTheMissingBits : Prop :=
  ∀ vw row value cur : Word32, (row = 0 ∨ row = 1) →
    (∀ pa ∈ rowPulses vw row (value &&& ~~~cur), ∃ k, k < 32 ∧ value.getLsbD k = true ∧ cur.getLsbD k = false ∧
      pa = composeAddr vw (BitVec.ofNat 32 k) row) ∧
    (∀ k, k < 32 → value.getLsbD k = true → cur.getLsbD k = false →
      composeAddr vw (BitVec.ofNat 32 k) row ∈ rowPulses vw row (value &&& ~~~cur)) ∧
    (rowPulses vw row (value &&& ~~~cur)).Nodup

/-- R232: under OA4 what a READ_PHYS reads shows the cells: a margin read's bit is 1 exactly where the cell is Blown,
an array read's is 1 at a Blown cell and 0 at a Blank one; so a row that passes verify has every bit of `value` Blown.
Choices: the premise is OA4 over a run, log 22; the cell states are log 6; decisions D4, D5, D19; the tick is log 2.
-/
def Obligations.ReadsShowTheCells : Prop :=
  ∀ (run : List State) (s t : State) (kind : ReadKind) (a : Word32), OA4 run → s ∈ run → s.readsData kind →
    s.adrLast = some a → tick s = .next t →
    (∀ b, b < 32 →
      (kind = .margin →
        (t.work.ret.getLsbD b = true ↔ t.fuses.read (b * 128 + a.toNat) = .blown)) ∧
      (kind = .array → t.fuses.read (b * 128 + a.toNat) = .blown → t.work.ret.getLsbD b = true) ∧
      (kind = .array → t.fuses.read (b * 128 + a.toNat) = .blank → t.work.ret.getLsbD b = false)) ∧
    (∀ value : Word32, kind = .margin → value &&& t.work.ret = value → ∀ b, b < 32 → value.getLsbD b = true →
      t.fuses.read (b * 128 + a.toNat) = .blown)

/-- R170, R231, R283: in a run under OA1 that begins in an Idle block, whose requests write no MODE word of their own
choice, every pulse issued is one that PROGRAM_BIT attempted. Choices: decisions D3, D18; the premise is OA1 over a
run, log 22; the ticks are log 2, the log entry's place log 14. -/
def Obligations.CleanRunsPulseOnlyAttempts : Prop :=
  ∀ (run : List State) (s t : State), IsRun run → run.head? = some s → run.getLast? = some t → OA1 run →
    s.cfg.wf = true → s.ctl = .idle → (∀ u ∈ run, ∀ e ∈ u.port, writesNoModeWord e.2 = true) →
    ∃ added : List PhysBit, t.pulseLog = s.pulseLog ++ added ∧ t.attemptLog = s.attemptLog ++ added

/-! ### The shadow reader -/

/-- R180, R181, R185, R244: READ_SHADOW: the address checks with no access, the clock failure with only
`ClkOn(false)`, and the one read between clock on and clock off. Choices: decisions D6, D14, D16; that a shadow read
checks no power D20. -/
def Obligations.ReadShadowReturnsTheRegister : Prop :=
  ∀ (s : State) (addr : Word32), s.available → s.clockOn = false →
    (256 ≤ addr.toNat → exec (.readShadow addr) s = .next { s with
      ctl := .idle
      responses := s.replied (.error .errFault .addrRange) }) ∧
    (addr.toNat < 256 → addr.toNat % 4 ≠ 0 → exec (.readShadow addr) s = .next { s with
      ctl := .idle
      responses := s.replied (.error .errFault .addrAlign) }) ∧
    (addr.toNat < 256 → addr.toNat % 4 = 0 → s.oracle.nextClock.1 = false →
      exec (.readShadow addr) s = .next { s with
        oracle := s.oracle.nextClock.2
        trace := s.trace ++ [.clkOn false]
        ctl := .idle
        responses := s.replied (.error .errResource .clockUnavailable) }) ∧
    (addr.toNat < 256 → addr.toNat % 4 = 0 → s.oracle.nextClock.1 = true →
      exec (.readShadow addr) s = .next { s with
        oracle := s.oracle.nextClock.2
        work := { s.work with ret := shadowWord s (addr.toNat / 4) }
        trace := s.trace ++ shadowReadEvents s (addr.toNat / 4)
        ctl := .idle
        responses := s.replied (.ok (.word (shadowWord s (addr.toNat / 4)))) })

/-- R181: whatever READ_SHADOW answers, it has made no access to MODE, ADR, RD_DATA or STATUS and changed neither
the power state nor a fuse cell. -/
def Obligations.ReadShadowTouchesNoProgrammingRegister : Prop :=
  ∀ (s t : State) (addr : Word32), exec (.readShadow addr) s = .next t →
    t.powered = s.powered ∧ (∀ a, t.fuses.read a = s.fuses.read a) ∧ t.fuses = s.fuses ∧
    ∃ added : List BusEvent, t.trace = s.trace ++ added ∧
      ∀ e ∈ added, match e with
        | .rd off _ => off ≠ offMode ∧ off ≠ offAdr ∧ off ≠ offRdData ∧ off ≠ offStatus
        | .wr _ _ => False
        | _ => True

/-- R182: two READ_SHADOW of one address that both return Ok, with any machine steps between them that issue no
refresh command, return the same value. Choices: that a power-down between them keeps the shadow is D20, log 12; that
a refresh is complete with its write D8, log 20. -/
def Obligations.ShadowReadIsIdempotent : Prop :=
  ∀ (s t u v : State) (n : Nat) (addr x y : Word32), s.available →
    exec (.readShadow addr) s = .next t → t.responses = s.replied (.ok (.word x)) →
    Sys2Proof.core.run n t = .next u → u.refreshCount = t.refreshCount → u.available →
    exec (.readShadow addr) u = .next v → v.responses = u.replied (.ok (.word y)) → x = y

/-- R183, R184, R55, R244: READ_BUF: with the clock available at every word it returns exactly the first `min(n, 256)`
virtual bytes, by one shadow read per word, and changes nothing else; a clock failure at any word, the words before it
having been read, aborts it with no bytes. Choices: decisions D6, D13, D16, D34; that a shadow read checks no power
D20; the draws log 7. -/
def Obligations.ReadBufReturnsTheFirstBytes : Prop :=
  ∀ (s : State) (n words : Nat), s.available → s.clockOn = false → words = (min n 256 + 3) / 4 →
    ((∀ b ∈ (drawMany Oracle.nextClock words s.oracle).1, b = true) →
      exec (.readBuf n) s = .next { s with
        oracle := (drawMany Oracle.nextClock words s.oracle).2
        work := { s.work with
          ret := if words = 0 then s.work.ret else shadowWord s (words - 1)
          buf := (List.range (min n 256)).map (virtualByte s) }
        trace := s.trace ++ (List.range words).flatMap (shadowReadEvents s)
        ctl := .idle
        responses := s.replied (.ok (.bytes ((List.range (min n 256)).map (virtualByte s)))) }) ∧
    (∀ w, w < words → (∀ b ∈ (drawMany Oracle.nextClock w s.oracle).1, b = true) →
      (drawMany Oracle.nextClock w s.oracle).2.nextClock.1 = false →
      exec (.readBuf n) s = .next { s with
        oracle := (drawMany Oracle.nextClock w s.oracle).2.nextClock.2
        work := { s.work with
          ret := if w = 0 then s.work.ret else shadowWord s (w - 1)
          buf := (List.range (min n 256)).map fun x => if x < 4 * w then virtualByte s x else 0 }
        trace := s.trace ++ (List.range w).flatMap (shadowReadEvents s) ++ [.clkOn false]
        ctl := .idle
        responses := s.replied (.error .errResource .clockUnavailable) })

/-! ### Host requests -/

/-- R201, R241: H_CTRL_READ: a failed copy-in before any access; a failed copy-out after the shadow read; else the
word. The address errors are those of READ_SHADOW. Choices: decisions D6, D14, D16, D25, D37; that a shadow read
checks no power D20; the user copy log 19. -/
def Obligations.CtrlReadReturnsTheWord : Prop :=
  ∀ (s : State) (addr : Word32) (o1 o2 o3 : Oracle) (ci ck co : Bool), s.available → s.clockOn = false →
    s.oracle.nextCopyIn = (ci, o1) → o1.nextClock = (ck, o2) → o2.nextCopyOut = (co, o3) →
    (ci = false → exec (.hCtrlRead addr) s = .next { s with
      oracle := o1
      ctl := .idle
      responses := s.replied (.error .errFault .userCopy) }) ∧
    (ci = true → 256 ≤ addr.toNat → exec (.hCtrlRead addr) s = .next { s with
      oracle := o1
      ctl := .idle
      responses := s.replied (.error .errFault .addrRange) }) ∧
    (ci = true → addr.toNat < 256 → addr.toNat % 4 ≠ 0 → exec (.hCtrlRead addr) s = .next { s with
      oracle := o1
      ctl := .idle
      responses := s.replied (.error .errFault .addrAlign) }) ∧
    (ci = true → addr.toNat < 256 → addr.toNat % 4 = 0 → ck = false → exec (.hCtrlRead addr) s = .next { s with
      oracle := o2
      trace := s.trace ++ [.clkOn false]
      ctl := .idle
      responses := s.replied (.error .errResource .clockUnavailable) }) ∧
    (ci = true → addr.toNat < 256 → addr.toNat % 4 = 0 → ck = true →
      exec (.hCtrlRead addr) s = .next { s with
        oracle := o3
        work := { s.work with ret := shadowWord s (addr.toNat / 4) }
        trace := s.trace ++ shadowReadEvents s (addr.toNat / 4)
        ctl := .idle
        responses := s.replied (if co then .ok (.word (shadowWord s (addr.toNat / 4)))
          else .error .errFault .userCopy) })

/-- R203, R243: any other control request ends with ErrUnsupported and touches nothing. -/
def Obligations.CtrlOtherIsUnsupported : Prop :=
  ∀ (s : State) (code : Word32), s.available → exec (.hCtrlOther code) s = .next { s with
    ctl := .idle
    responses := s.replied (.error .errUnsupported .unknownCtrlRequest) }

/-- R202, R204, R207, R241, R252: the order of the checks of every host write: a stream write's length, copy-in, the
guard, range, alignment; each ends the request with no bus access. Choices: decisions D11, D12, D13, D14, D25; the
user copy log 19; the table row STREAM_WRITE_PAYLOAD run as the byte-stream write is log 10. -/
def Obligations.HostWritesCheckBeforeAccess : Prop :=
  (∀ (s : State) (bytes : List Byte), s.available → bytes.length ≠ 8 →
    exec (.hStreamWrite bytes) s = .next { s with
      ctl := .idle
      responses := s.replied (.error .errFault .sizeMismatch) }) ∧
  ∀ (s : State) (i : Instr) (addr value : Word32), s.available →
    (i = .hCtrlWrite addr value ∨ i = .hStreamWrite (payloadBytes addr value) ∨
      i = .streamWritePayload addr value ∨ i = .hWrite32 addr value) →
    ∀ r : OpResult,
      (r = .error .errFault .userCopy ∧ s.oracle.nextCopyIn.1 = false ∨
        s.oracle.nextCopyIn.1 = true ∧
          (r = .error s.cfg.disabledWriteError .programmingDisabled ∧ s.cfg.programmingEnabled = false ∨
            s.cfg.programmingEnabled = true ∧
              (r = .error .errFault .addrRange ∧ 256 ≤ addr.toNat ∨
                r = .error .errFault .addrAlign ∧ addr.toNat < 256 ∧ addr.toNat % 4 ≠ 0))) →
      exec i s = .next { s with
        oracle := s.oracle.nextCopyIn.2
        ctl := .idle
        responses := s.replied r }

/-- R205, R206, R252: a stream read returns `min(n, 256 - off)` bytes of the virtual space from `off`, none past the
end or for no bytes, when the clock is available at every word, as OA3 has it; ErrFault when the copy-out then fails;
ErrResource when the clock fails at any word. Choices: decisions D6, D13, D14, D16, D23, D25, D34; that a shadow read
checks no power D20; the user copy log 19; OA3 is the premise of its second clause; the draws log 7. -/
def Obligations.StreamReadReturnsTheSlice : Prop :=
  ∀ (s : State) (off n k words : Nat), s.available → s.clockOn = false → k = min n (256 - off) →
    words = (off + k + 3) / 4 →
    ((256 ≤ off ∨ n = 0) → exec (.hStreamRead off n) s = .next { s with
      work := { s.work with buf := [] }
      ctl := .idle
      responses := s.replied (.ok (.bytes [])) }) ∧
    (∀ (co : Bool) (o : Oracle), off < 256 → 0 < n →
      (∀ b ∈ (drawMany Oracle.nextClock words s.oracle).1, b = true) →
      (drawMany Oracle.nextClock words s.oracle).2.nextCopyOut = (co, o) →
      exec (.hStreamRead off n) s = .next { s with
        oracle := o
        work := { s.work with
          ret := shadowWord s (words - 1)
          buf := (List.range k).map fun x => virtualByte s (off + x) }
        trace := s.trace ++ (List.range words).flatMap (shadowReadEvents s)
        ctl := .idle
        responses := s.replied (if co then .ok (.bytes ((List.range k).map fun x => virtualByte s (off + x)))
          else .error .errFault .userCopy) }) ∧
    (∀ w, off < 256 → 0 < n → w < words → (∀ b ∈ (drawMany Oracle.nextClock w s.oracle).1, b = true) →
      (drawMany Oracle.nextClock w s.oracle).2.nextClock.1 = false →
      exec (.hStreamRead off n) s = .next { s with
        oracle := (drawMany Oracle.nextClock w s.oracle).2.nextClock.2
        work := { s.work with
          ret := if w = 0 then s.work.ret else shadowWord s (w - 1)
          buf := (List.range (off + k)).map fun x => if x < 4 * w then virtualByte s x else 0 }
        trace := s.trace ++ (List.range w).flatMap (shadowReadEvents s) ++ [.clkOn false]
        ctl := .idle
        responses := s.replied (.error .errResource .clockUnavailable) })

/-! ### Entry, the lock, the step -/

/-- R67, R245, R272: with the lock free and the window unmapped, every operation and request but INIT, TEARDOWN, the
register primitives and the translator ends with ErrResource(Unmapped) and no bus access; the primitives, the words
written to MODE or ADR among them, are refused. Choices: decision D15; the table words are log 10, the check before
the operands log 17. -/
def Obligations.UnmappedEndsWithoutAccess : Prop :=
  ∀ (s : State) (i : Instr), s.owner = none → s.mapped = false →
    match i with
    | .init | .compose _ _ _ | .physWord _ _ | .wordIndex _ => True
    | .teardown => exec i s = .refused .notMapped
    | .cwAread | .cwMread | .cwProg | .cwPwron | .cwPwrdn | .cwRefresh | .cwUndefined _ | .adrProg _ _ _
    | .adrRead _ _ | .rdReg _ | .wrReg _ _ | .setBits _ _ => exec i s = .refused .primitiveUnmapped
    | _ => exec i s = .next { s with
        ctl := .idle
        responses := s.replied (.error .errResource .unmapped) }

/-- R250: while the lock is held every operation but the translator's waits at the port and does nothing else.
Choices: decision D17; the port is log 8; that the table words (the command, address, STATUS, payload and read-mode
rows) take the lock is log 10, that the translator takes none is log 17. -/
def Obligations.LockedOperationsWait : Prop :=
  ∀ (s : State) (i : Instr) (q : RequesterId), s.owner = some q →
    match i with
    | .compose _ _ _ | .physWord _ _ | .wordIndex _ => True
    | _ => exec i s = .next { s with port := s.port ++ [(s.caller, i)] }

/-- R23, R200, log 8: what a step runs: the held operation, else the lone request, else nothing; and a table word
placed at the port is decoded and run by the very next step. Choices: the step and the port are log 2 and log 8; which
place a bare table word takes is log 9. -/
def Obligations.StepRunsTheRequest : Prop :=
  ∀ s : State,
    (∀ op phase callers, s.ctl = .run op phase callers → step s = resume s) ∧
    (∀ q i, s.ctl = .idle → s.port = [(q, i)] → step s = exec i { s with caller := q, port := [] }) ∧
    (s.ctl = .idle → s.port = [] → step s = .next s) ∧
    (∀ nbits w i, decodeTableWord nbits w = some i →
      step (s.withFetchWord nbits w) = exec i { s with ctl := .idle, owner := none, port := [] })

/-- R250, D17, log 8: among several waiting requests the step runs one of them, the others stay in their order, and
the choice takes the scheduler's draw and leaves every other answer. Choices: decision D17; the port and the free
choice are log 8. -/
def Obligations.StepServesOneOfTheWaiting : Prop :=
  ∀ s : State, s.ctl = .idle → 2 ≤ s.port.length →
    ∃ (before after : List (RequesterId × Instr)) (q : RequesterId) (i : Instr),
      s.port = before ++ (q, i) :: after ∧
      step s = exec i { s with caller := q, port := before ++ after, oracle := s.oracle.nextSched.2 }

/-- R23, D1: a tick advances the sequencer by one primitive of the innermost frame, returns one frame to its caller,
or ends the operation; and a step of the machine is a run of ticks that goes on until the operation ends or BUSY holds
it, and answers what that run answers, a next state, a fault or a refusal. Choices: decision D1; the tick, the frames
and the step are log 2. -/
def Obligations.StepIsARunOfTicks : Prop :=
  ∀ s : State,
    (∀ op p phase callers, s.ctl = .run op (p :: phase) callers →
      tick s = runPrim p { s with ctl := .run op phase callers }) ∧
    (∀ op f callers, s.ctl = .run op [] (f :: callers) →
      tick s = .next { s with ctl := .run f.op f.phase callers }) ∧
    (∀ op, s.ctl = .run op [] [] → tick s = .next (s.endOp (.ok (returnValue s op)))) ∧
    (∃ k, 1 ≤ k ∧ k ≤ opSteps + 1 ∧ tickRun k s = step s ∧
      ∀ j, 0 < j → j < k → ∃ u, tickRun j s = .next u ∧ u.rests = false)

/-- R14, R23, R255: from an Idle block, every step of every run, the first of an operation as one that goes on after a
hold, runs to the end of the operation or until BUSY holds it: no bound of the model cuts it short. Choices: the
step's size is log 2. -/
def Obligations.OperationsEndOrAreHeld : Prop :=
  ∀ (s t : State) (n : Nat), s.ctl = .idle → Sys2Proof.core.run n s = .next t → t.ctl = .idle ∨ t.held = true

/-! ### Whole-machine rules -/

/-- R25, R28, R31: no step changes the configuration, DIR_CMD or ONE_WAY. Choices: decision D21. -/
def Obligations.StepKeepsConfiguration : Prop :=
  ∀ s t : State, step s = .next t → t.cfg = s.cfg ∧ t.dirCmd = s.dirCmd ∧ t.oneWay = s.oneWay

/-- R35, R52: every step keeps the fuse array's canonical form. Choices: the form is the model's, log 6. -/
def Obligations.StepKeepsFusesCanonical : Prop :=
  ∀ s t : State, s.fuses.wf = true → step s = .next t → t.fuses.wf = true

/-- R169 (and R35, R38, R142, R224, R271): neither a step of the machine nor one tick inside it undoes anything: no
cell falls, one that changes has been pulsed in it, and no entry leaves the logs or the trace; and a later reset
leaves every cell. Choices: the order of the three cell states and the canonical form are log 6; the step and the tick
log 2; a later reset log 21; decision D22; that a pulse is complete with its write is log 20. -/
def Obligations.StepUndoesNothing : Prop :=
  (∀ s t : State, s.fuses.wf = true → (step s = .next t ∨ tick s = .next t) →
    (∀ a, cellRank (s.fuses.read a) ≤ cellRank (t.fuses.read a)) ∧
    s.attemptLog <+: t.attemptLog ∧ s.trace <+: t.trace ∧
    ∃ added : List PhysBit, t.pulseLog = s.pulseLog ++ added ∧
      ∀ a, (∀ pa ∈ added, a ≠ pa.toNat) → t.fuses.read a = s.fuses.read a) ∧
  (∀ (s : State) (a : Nat), s.resetAgain.fuses.read a = s.fuses.read a)

/-- R32, R40, R63, R232: no step lowers the refresh count, and a step without a refresh command leaves the shadow; in
a run under OA5 no shadow bit goes from 1 to 0. Choices: decision D20, log 12; that a refresh is complete with its
write D8, log 20; OA5 over a run is log 22. -/
def Obligations.ShadowChangesOnlyAtRefresh : Prop :=
  (∀ s t : State, step s = .next t →
    s.refreshCount ≤ t.refreshCount ∧ (t.refreshCount = s.refreshCount → t.shadow = s.shadow)) ∧
  (∀ (run : List State) (s t : State), IsRun run → run.head? = some s → run.getLast? = some t → OA5 run →
    ∀ k : Fin 64, s.shadow.get k &&& ~~~(t.shadow.get k) = 0)

/-- R185, R250, R255, R261: a step keeps the lock held exactly while an operation is in progress, and the clock gate
on only inside a shadow read. Choices: decisions D16, D17. -/
def Obligations.StepKeepsLockAndClock : Prop :=
  ∀ s t : State, s.lockInv = true → s.clockInv = true → step s = .next t →
    t.lockInv = true ∧ t.clockInv = true

/-- R37: PROGRAM_BIT's writes stay among the program commands issued, in order, under a valid configuration. Choices:
log 14. -/
def Obligations.StepKeepsAttemptsLogged : Prop :=
  ∀ s t : State, s.cfg.wf = true → s.attemptsLogged → step s = .next t → t.attemptsLogged

/-- R50, R53, R114: a step adds only events at the offsets the block may access, writes to MODE and ADR alone.
Choices: decision D21. -/
def Obligations.StepKeepsTraceToNamedOffsets : Prop :=
  ∀ s t : State, s.traceInv = true → step s = .next t → t.traceInv = true

/-- R207: with programming disabled, no host request issues a program pulse, nor writes a register. Choices: decisions
D11, D12; that the payload row runs as the byte-stream write is log 10, and H_WRITE32 is the operation of R99. -/
def Obligations.DisabledHostNeverPulses : Prop :=
  ∀ (s t : State) (i : Instr), s.cfg.programmingEnabled = false → s.owner = none → s.ctl = .idle →
    (match i with
    | .hCtrlRead _ | .hCtrlWrite _ _ | .hCtrlOther _ | .hStreamWrite _ | .hStreamRead _ _ | .hWrite32 _ _
    | .streamWritePayload _ _ => True
    | _ => False) →
    exec i s = .next t →
    t.pulseLog = s.pulseLog ∧ t.attemptLog = s.attemptLog ∧ t.fuses = s.fuses ∧ t.shadow = s.shadow ∧
    t.modeLast = s.modeLast ∧ t.adrLast = s.adrLast ∧ t.powered = s.powered ∧
    ∃ added : List BusEvent, t.trace = s.trace ++ added ∧
      ∀ e ∈ added, match e with
        | .wr _ _ => False
        | _ => True

/-! ### Reset -/

/-- R41, R270, R271: the values the spec gives at reset; a later reset gives them too, keeps the configuration and
every fuse cell, and takes a draw for each register of the window. Choices: decision D22; that the logs restart, and
the draws, are log 21. -/
def Obligations.ResetValues : Prop :=
  (State.reset.mapped = false ∧ State.reset.clockOn = false ∧ State.reset.owner = none ∧
    State.reset.ctl = .idle ∧ State.reset.powered = none ∧ State.reset.pulseLog = [] ∧
    State.reset.attemptLog = [] ∧ State.reset.trace = [] ∧ State.reset.modeLast = none ∧
    State.reset.adrLast = none ∧ State.reset.refreshCount = 0) ∧
  ∀ s : State,
    s.resetAgain.fuses = s.fuses ∧ s.resetAgain.cfg = s.cfg ∧
    s.resetAgain.mapped = false ∧ s.resetAgain.clockOn = false ∧ s.resetAgain.owner = none ∧
    s.resetAgain.ctl = .idle ∧ s.resetAgain.powered = none ∧ s.resetAgain.pulseLog = [] ∧
    s.resetAgain.attemptLog = [] ∧ s.resetAgain.trace = [] ∧ s.resetAgain.modeLast = none ∧
    s.resetAgain.adrLast = none ∧ s.resetAgain.refreshCount = 0 ∧
    s.resetAgain.shadow = Config.freeShadow s.oracle.drawn ∧
    s.resetAgain.dirCmd = Config.freeWord (s.oracle.drawn + 1) ∧
    s.resetAgain.oneWay = Config.freeWord (s.oracle.drawn + 2)

/-- R9, R37, R185, R250: the invariants hold at reset, and after a later reset of a machine with a valid configuration
and a canonical fuse array. Choices: decisions D2, D16, D17; the default masks are log 1, the cells log 6, a later
reset log 21; decision D22. -/
def Obligations.ResetMeetsTheInvariants : Prop :=
  (State.reset.cfg.wf = true ∧ State.reset.fuses.wf = true ∧ State.reset.lockInv = true ∧
    State.reset.clockInv = true ∧ State.reset.attemptsLogged ∧ State.reset.traceInv = true) ∧
  ∀ s : State, s.cfg.wf = true → s.fuses.wf = true →
    s.resetAgain.cfg.wf = true ∧ s.resetAgain.fuses.wf = true ∧ s.resetAgain.lockInv = true ∧
    s.resetAgain.clockInv = true ∧ s.resetAgain.attemptsLogged ∧ s.resetAgain.traceInv = true
end

