-- ==== Sys2Proof/Laws/Decode.lean ====
section
/-! SUPPORT. Byte order, single-bit masks, the command decoder on the command words, and the round trip of each
place's encoding. -/

namespace Sys2Proof

/-! ### Byte order -/

theorem wordOfBytes_bytesOfWord (v : Word32) :
    wordOfBytes (byteOfWord v 0) (byteOfWord v 1) (byteOfWord v 2) (byteOfWord v 3) = v := by
  apply BitVec.eq_of_getLsbD_eq
  intro i hi
  have h : i < 8 ∨ (8 ≤ i ∧ i < 16) ∨ (16 ≤ i ∧ i < 24) ∨ (24 ≤ i ∧ i < 32) := by omega
  rcases h with h | ⟨h, h'⟩ | ⟨h, h'⟩ | ⟨h, h'⟩ <;>
    (simp [wordOfBytes, byteOfWord, BitVec.getLsbD_extractLsb']; grind)

theorem byteOfWord_wordOfBytes (b0 b1 b2 b3 : Byte) :
    bytesOfWord (wordOfBytes b0 b1 b2 b3) = [b0, b1, b2, b3] := by
  simp only [bytesOfWord, List.cons.injEq, and_true]
  refine ⟨?_, ?_, ?_, ?_⟩ <;>
  · apply BitVec.eq_of_getLsbD_eq
    intro i hi
    simp [wordOfBytes, byteOfWord, BitVec.getLsbD_extractLsb']
    grind

@[simp] theorem length_bytesOfWord (v : Word32) : (bytesOfWord v).length = 4 := rfl

@[simp] theorem length_payloadBytes (a v : Word32) : (payloadBytes a v).length = 8 := rfl

/-! ### Single-bit masks -/

theorem isSingleBit_iff {v : Word32} : isSingleBit v = true ↔ ∃ k, k < 32 ∧ v = BitVec.twoPow 32 k := by
  simp only [isSingleBit, List.any_eq_true, List.mem_range, beq_iff_eq, BitVec.twoPow_eq]

/-- A mask has no bit in common with another single-bit mask. -/
theorem and_eq_zero_of_isSingleBit {a b : Word32} (ha : isSingleBit a = true) (hb : isSingleBit b = true)
    (h : a ≠ b) : a &&& b = 0 := by
  obtain ⟨i, hi, rfl⟩ := isSingleBit_iff.mp ha
  obtain ⟨j, hj, rfl⟩ := isSingleBit_iff.mp hb
  have hij : i ≠ j := fun e => h (by rw [e])
  apply BitVec.eq_of_getLsbD_eq
  intro k hk
  simp only [BitVec.getLsbD_and, BitVec.getLsbD_twoPow]
  grind

theorem ne_zero_of_isSingleBit {a : Word32} (ha : isSingleBit a = true) : a ≠ 0 := by
  obtain ⟨i, hi, rfl⟩ := isSingleBit_iff.mp ha
  intro h
  have := congrArg (fun v => v.getLsbD i) h
  simp [hi] at this

/-- A word meets a single-bit mask in nothing or in the mask. -/
theorem and_isSingleBit {b : Word32} (hb : isSingleBit b = true) (v : Word32) : v &&& b = 0 ∨ v &&& b = b := by
  obtain ⟨j, hj, rfl⟩ := isSingleBit_iff.mp hb
  rcases h : v.getLsbD j
  · left
    apply BitVec.eq_of_getLsbD_eq
    intro k hk
    simp only [BitVec.getLsbD_and, BitVec.getLsbD_twoPow]
    grind
  · right
    apply BitVec.eq_of_getLsbD_eq
    intro k hk
    simp only [BitVec.getLsbD_and, BitVec.getLsbD_twoPow]
    grind

/-! ### Valid configurations -/

/-- What `Config.wf` says of the five MODE masks: each is nonzero, and no two have a bit in common. -/
structure MasksApart (c : Config) : Prop where
  bitA : isSingleBit c.mAread = true
  bitR : isSingleBit c.mMread = true
  bitG : isSingleBit c.mPrg = true
  bitP : isSingleBit c.mPwrDn = true
  bitM : isSingleBit c.mCmd = true
  ar : c.mAread &&& c.mMread = 0
  ag : c.mAread &&& c.mPrg = 0
  ap : c.mAread &&& c.mPwrDn = 0
  am : c.mAread &&& c.mCmd = 0
  rg : c.mMread &&& c.mPrg = 0
  rp : c.mMread &&& c.mPwrDn = 0
  rm : c.mMread &&& c.mCmd = 0
  gp : c.mPrg &&& c.mPwrDn = 0
  gm : c.mPrg &&& c.mCmd = 0
  pm : c.mPwrDn &&& c.mCmd = 0

theorem Config.masksApart {c : Config} (h : c.wf = true) : MasksApart c := by
  simp only [Config.wf, Config.modeMasks, List.all_cons, List.all_nil, Bool.and_true, Bool.and_eq_true,
    decide_eq_true_eq, List.nodup_cons, List.mem_cons, List.not_mem_nil, or_false, not_or,
    List.nodup_nil, and_true, not_false_eq_true] at h
  obtain ⟨⟨⟨⟨⟨hA, hR, hG, hP, hM⟩, ⟨nar, nag, nap, nam⟩, ⟨nrg, nrp, nrm⟩, ⟨ngp, ngm⟩, npm⟩, -⟩, -⟩, -⟩ := h
  exact ⟨hA, hR, hG, hP, hM, and_eq_zero_of_isSingleBit hA hR nar, and_eq_zero_of_isSingleBit hA hG nag,
    and_eq_zero_of_isSingleBit hA hP nap, and_eq_zero_of_isSingleBit hA hM nam,
    and_eq_zero_of_isSingleBit hR hG nrg, and_eq_zero_of_isSingleBit hR hP nrp,
    and_eq_zero_of_isSingleBit hR hM nrm, and_eq_zero_of_isSingleBit hG hP ngp,
    and_eq_zero_of_isSingleBit hG hM ngm, and_eq_zero_of_isSingleBit hP hM npm⟩

/-- REFRESH_CMD is none of the other command words (D2). -/
theorem Config.refreshApart {c : Config} (h : c.wf = true) : c.refreshCmd ∉ c.plainWords := by
  simp only [Config.wf, Bool.and_eq_true] at h
  simpa using h.1.2

/-! ### The decoder on the command words (R86, R220) -/

/-- Bit by bit, words over the five masks that share no bit. -/
theorem MasksApart.bits {c : Config} (h : MasksApart c) (k : Nat) :
    (c.mAread.getLsbD k && c.mMread.getLsbD k) = false ∧ (c.mAread.getLsbD k && c.mPrg.getLsbD k) = false ∧
    (c.mAread.getLsbD k && c.mPwrDn.getLsbD k) = false ∧ (c.mAread.getLsbD k && c.mCmd.getLsbD k) = false ∧
    (c.mMread.getLsbD k && c.mPrg.getLsbD k) = false ∧ (c.mMread.getLsbD k && c.mPwrDn.getLsbD k) = false ∧
    (c.mMread.getLsbD k && c.mCmd.getLsbD k) = false ∧ (c.mPrg.getLsbD k && c.mPwrDn.getLsbD k) = false ∧
    (c.mPrg.getLsbD k && c.mCmd.getLsbD k) = false ∧ (c.mPwrDn.getLsbD k && c.mCmd.getLsbD k) = false := by
  have f : ∀ {a b : Word32}, a &&& b = 0 → (a.getLsbD k && b.getLsbD k) = false := fun e => by
    rw [← BitVec.getLsbD_and, e]
    simp
  exact ⟨f h.ar, f h.ag, f h.ap, f h.am, f h.rg, f h.rp, f h.rm, f h.gp, f h.gm, f h.pm⟩

/-- The parts R220 takes of a word made of CMD and one other mask or none. -/
theorem MasksApart.parts {c : Config} (h : MasksApart c) :
    (c.mCmd &&& c.opMask = 0 ∧ c.mCmd &&& c.restMask = 0 ∧ c.mCmd &&& c.mPwrDn = 0) ∧
    (c.cwPwrdn &&& c.mCmd = c.mCmd ∧ c.cwPwrdn &&& c.restMask = 0 ∧ c.cwPwrdn &&& c.mPwrDn = c.mPwrDn ∧
      c.cwPwrdn &&& c.opMask = 0) ∧
    (c.cwAread &&& c.mCmd = c.mCmd ∧ c.cwAread &&& c.restMask = 0 ∧ c.cwAread &&& c.mPwrDn = 0 ∧
      c.cwAread &&& c.opMask = c.mAread) ∧
    (c.cwMread &&& c.mCmd = c.mCmd ∧ c.cwMread &&& c.restMask = 0 ∧ c.cwMread &&& c.mPwrDn = 0 ∧
      c.cwMread &&& c.opMask = c.mMread) ∧
    (c.cwProg &&& c.mCmd = c.mCmd ∧ c.cwProg &&& c.restMask = 0 ∧ c.cwProg &&& c.mPwrDn = 0 ∧
      c.cwProg &&& c.opMask = c.mPrg) := by
  refine ⟨⟨?_, ?_, ?_⟩, ⟨?_, ?_, ?_, ?_⟩, ⟨?_, ?_, ?_, ?_⟩, ⟨?_, ?_, ?_, ?_⟩, ⟨?_, ?_, ?_, ?_⟩⟩ <;>
  · apply BitVec.eq_of_getLsbD_eq
    intro k hk
    have hb := h.bits k
    simp only [Config.opMask, Config.restMask, Config.cwPwrdn, Config.cwAread, Config.cwMread, Config.cwProg,
      BitVec.getLsbD_and, BitVec.getLsbD_or, BitVec.getLsbD_not, BitVec.ofNat_eq_ofNat, BitVec.getLsbD_zero]
    grind

theorem MasksApart.opMask_ne {c : Config} (h : MasksApart c) :
    c.mAread ≠ 0#32 ∧ c.mMread ≠ 0#32 ∧ c.mPrg ≠ 0#32 ∧ c.mPwrDn ≠ 0#32 ∧ c.mCmd ≠ 0#32 ∧ c.mMread ≠ c.mAread ∧
    c.mPrg ≠ c.mAread ∧ c.mPrg ≠ c.mMread := by
  have z : ∀ {a b : Word32}, isSingleBit a = true → a &&& b = 0 → b ≠ a := fun ha e hb => by
    subst hb
    exact ne_zero_of_isSingleBit ha (by simpa using e)
  exact ⟨ne_zero_of_isSingleBit h.bitA, ne_zero_of_isSingleBit h.bitR, ne_zero_of_isSingleBit h.bitG,
    ne_zero_of_isSingleBit h.bitP, ne_zero_of_isSingleBit h.bitM, z h.bitA h.ar, z h.bitA h.ag, z h.bitR h.rg⟩

theorem decodeCommand_refresh (c : Config) : decodeCommand c c.cwRefresh = .refresh := by
  simp [decodeCommand, Config.cwRefresh]

theorem decodeCommand_pwron {c : Config} (h : c.wf = true) : decodeCommand c c.cwPwron = .powerOn := by
  obtain ⟨p, -⟩ := (Config.masksApart h).parts
  have n := (Config.masksApart h).opMask_ne
  have r := Config.refreshApart h
  simp only [Config.plainWords, List.mem_cons, not_or] at r
  have hr : c.mCmd ≠ c.refreshCmd := Ne.symm r.2.2.2.1
  simp [decodeCommand, Config.cwPwron, p, n, hr]

theorem decodeCommand_pwrdn {c : Config} (h : c.wf = true) : decodeCommand c c.cwPwrdn = .powerDown := by
  obtain ⟨-, p, -⟩ := (Config.masksApart h).parts
  have n := (Config.masksApart h).opMask_ne
  have r := Config.refreshApart h
  simp only [Config.plainWords, List.mem_cons, not_or] at r
  simp [decodeCommand, p, n, Ne.symm r.2.2.2.2.1]

theorem decodeCommand_aread {c : Config} (h : c.wf = true) : decodeCommand c c.cwAread = .read .array := by
  obtain ⟨-, -, p, -⟩ := (Config.masksApart h).parts
  have n := (Config.masksApart h).opMask_ne
  have r := Config.refreshApart h
  simp only [Config.plainWords, List.mem_cons, not_or] at r
  simp [decodeCommand, p, n, Ne.symm r.1]

theorem decodeCommand_mread {c : Config} (h : c.wf = true) : decodeCommand c c.cwMread = .read .margin := by
  obtain ⟨-, -, -, p, -⟩ := (Config.masksApart h).parts
  have n := (Config.masksApart h).opMask_ne
  have r := Config.refreshApart h
  simp only [Config.plainWords, List.mem_cons, not_or] at r
  simp [decodeCommand, p, n, Ne.symm r.2.1]

theorem decodeCommand_prog {c : Config} (h : c.wf = true) : decodeCommand c c.cwProg = .program := by
  obtain ⟨-, -, -, -, p⟩ := (Config.masksApart h).parts
  have n := (Config.masksApart h).opMask_ne
  have r := Config.refreshApart h
  simp only [Config.plainWords, List.mem_cons, not_or] at r
  simp [decodeCommand, p, n, Ne.symm r.2.2.1]

end Sys2Proof
end

