-- ==== Sys2Proof/Laws/Memory.lean ====
section
/-! SUPPORT. The fuse array as memory: reads after writes, the canonical form, and a pulse's rise. -/

namespace Sys2Proof.Machine
open Sys2Proof

theorem cellRank_le_cellMax_left (a b : CellState) : cellRank a ≤ cellRank (cellMax a b) := by
  cases a <;> cases b <;> decide

@[simp] theorem Memory.read_nil (a : Nat) : Memory.read [] a = unlistedCell := rfl

theorem Memory.read_cons (b : Nat) (c : CellState) (m : Memory) (a : Nat) :
    Memory.read ((b, c) :: m) a = if a = b then c else m.read a := rfl

theorem Memory.wfFrom_mono {lo lo' : Nat} (h : lo' ≤ lo) {m : Memory} (hm : Memory.wfFrom lo m = true) :
    Memory.wfFrom lo' m = true := by
  cases m with
  | nil => rfl
  | cons e rest =>
    obtain ⟨a, c⟩ := e
    simp only [Memory.wfFrom, Bool.and_eq_true, decide_eq_true_eq] at hm ⊢
    exact ⟨⟨⟨by omega, hm.1.1.2⟩, hm.1.2⟩, hm.2⟩

/-- Below the first address a canonical memory may hold, every cell is unlisted. -/
theorem Memory.read_of_lt {lo : Nat} {m : Memory} (hm : Memory.wfFrom lo m = true) {a : Nat} (h : a < lo) :
    m.read a = unlistedCell := by
  induction m generalizing lo with
  | nil => rfl
  | cons e rest ih =>
    obtain ⟨b, c⟩ := e
    simp only [Memory.wfFrom, Bool.and_eq_true, decide_eq_true_eq] at hm
    rw [Memory.read_cons, if_neg (by omega)]
    exact ih hm.2 (by omega)

/-- A write keeps the canonical form. -/
theorem Memory.write_wfFrom {lo : Nat} {m : Memory} (hm : Memory.wfFrom lo m = true) {a : Nat} (ha : lo ≤ a)
    (hb : a < nBits) (c : CellState) : Memory.wfFrom lo (m.write a c) = true := by
  induction m generalizing lo with
  | nil =>
    by_cases hc : c = unlistedCell <;> simp [Memory.write, Memory.wfFrom, hc, ha, hb]
  | cons e rest ih =>
    obtain ⟨b, d⟩ := e
    simp only [Memory.wfFrom, Bool.and_eq_true, decide_eq_true_eq] at hm
    obtain ⟨⟨⟨h1, h2⟩, h3⟩, h4⟩ := hm
    unfold Memory.write
    by_cases hlt : a < b
    · have hr : Memory.wfFrom (a + 1) rest = true := Memory.wfFrom_mono (by omega) h4
      by_cases hc : c = unlistedCell
      · simp [hlt, hc, Memory.wfFrom, h1, h2, h4, h3]
      · simp [hlt, hc, Memory.wfFrom, ha, hb, h2, h4, h3, Nat.succ_le_of_lt hlt]
    · by_cases heq : a = b
      · subst heq
        by_cases hc : c = unlistedCell
        · simpa [hc] using Memory.wfFrom_mono (by omega) h4
        · simp [hc, Memory.wfFrom, h1, h2, h4]
      · have := ih h4 (by omega)
        simp [hlt, heq, Memory.wfFrom, h1, h2, h3, this]

theorem Memory.write_wf {m : Memory} (hm : m.wf = true) {a : Nat} (ha : a < nBits) (c : CellState) :
    (m.write a c).wf = true :=
  Memory.write_wfFrom hm (Nat.zero_le a) ha c

/-- A cell reads as last written; the address need only not stand before the canonical range. -/
theorem Memory.read_write_same {lo : Nat} {m : Memory} (hm : Memory.wfFrom lo m = true) (a : Nat)
    (c : CellState) : (m.write a c).read a = c := by
  induction m generalizing lo with
  | nil => by_cases hc : c = unlistedCell <;> simp [Memory.write, hc, Memory.read_cons]
  | cons e rest ih =>
    obtain ⟨b, d⟩ := e
    simp only [Memory.wfFrom, Bool.and_eq_true, decide_eq_true_eq] at hm
    obtain ⟨-, h4⟩ := hm
    unfold Memory.write
    by_cases hlt : a < b
    · by_cases hc : c = unlistedCell
      · have := Memory.read_of_lt h4 (a := a) (by omega)
        simp [hlt, hc, Memory.read_cons, Nat.ne_of_lt hlt, this]
      · simp [hlt, hc, Memory.read_cons]
    · by_cases heq : a = b
      · subst heq
        by_cases hc : c = unlistedCell
        · simpa [hc] using Memory.read_of_lt h4 (a := a) (by omega)
        · simp [hc, Memory.read_cons]
      · simp [hlt, heq, Memory.read_cons, ih h4]

/-- Every other cell reads as before. -/
theorem Memory.read_write_other {lo : Nat} {m : Memory} (hm : Memory.wfFrom lo m = true) {a a' : Nat}
    (h : a' ≠ a) (c : CellState) : (m.write a c).read a' = m.read a' := by
  induction m generalizing lo with
  | nil => by_cases hc : c = unlistedCell <;> simp [Memory.write, hc, Memory.read_cons, h]
  | cons e rest ih =>
    obtain ⟨b, d⟩ := e
    simp only [Memory.wfFrom, Bool.and_eq_true, decide_eq_true_eq] at hm
    obtain ⟨-, h4⟩ := hm
    unfold Memory.write
    by_cases hlt : a < b
    · by_cases hc : c = unlistedCell <;> simp [hlt, hc, Memory.read_cons, h]
    · by_cases heq : a = b
      · subst heq
        by_cases hc : c = unlistedCell <;> simp [hc, Memory.read_cons, h]
      · simp [hlt, heq, Memory.read_cons, ih h4]

end Sys2Proof.Machine
end

