-- ==== Sys2Proof/Laws/State.lean ====
section
/-! SUPPORT. What each small update of the state does to each field. -/

namespace Sys2Proof.Machine
open Sys2Proof

variable (s : State)

/-! ### emit -/

@[simp] theorem State.emit_cfg (e : BusEvent) : (s.emit e).cfg = s.cfg := rfl
@[simp] theorem State.emit_mapped (e : BusEvent) : (s.emit e).mapped = s.mapped := rfl
@[simp] theorem State.emit_clockOn (e : BusEvent) : (s.emit e).clockOn = s.clockOn := rfl
@[simp] theorem State.emit_owner (e : BusEvent) : (s.emit e).owner = s.owner := rfl
@[simp] theorem State.emit_ctl (e : BusEvent) : (s.emit e).ctl = s.ctl := rfl
@[simp] theorem State.emit_work (e : BusEvent) : (s.emit e).work = s.work := rfl
@[simp] theorem State.emit_dirCmd (e : BusEvent) : (s.emit e).dirCmd = s.dirCmd := rfl
@[simp] theorem State.emit_oneWay (e : BusEvent) : (s.emit e).oneWay = s.oneWay := rfl
@[simp] theorem State.emit_shadow (e : BusEvent) : (s.emit e).shadow = s.shadow := rfl
@[simp] theorem State.emit_fuses (e : BusEvent) : (s.emit e).fuses = s.fuses := rfl
@[simp] theorem State.emit_powered (e : BusEvent) : (s.emit e).powered = s.powered := rfl
@[simp] theorem State.emit_pulseLog (e : BusEvent) : (s.emit e).pulseLog = s.pulseLog := rfl
@[simp] theorem State.emit_attemptLog (e : BusEvent) : (s.emit e).attemptLog = s.attemptLog := rfl
@[simp] theorem State.emit_trace (e : BusEvent) : (s.emit e).trace = s.trace ++ [e] := rfl
@[simp] theorem State.emit_modeLast (e : BusEvent) : (s.emit e).modeLast = s.modeLast := rfl
@[simp] theorem State.emit_adrLast (e : BusEvent) : (s.emit e).adrLast = s.adrLast := rfl
@[simp] theorem State.emit_refreshCount (e : BusEvent) : (s.emit e).refreshCount = s.refreshCount := rfl
@[simp] theorem State.emit_caller (e : BusEvent) : (s.emit e).caller = s.caller := rfl
@[simp] theorem State.emit_port (e : BusEvent) : (s.emit e).port = s.port := rfl
@[simp] theorem State.emit_responses (e : BusEvent) : (s.emit e).responses = s.responses := rfl
@[simp] theorem State.emit_oracle (e : BusEvent) : (s.emit e).oracle = s.oracle := rfl

/-! ### setOracle -/

@[simp] theorem State.setOracle_cfg (o : Oracle) : (s.setOracle o).cfg = s.cfg := rfl
@[simp] theorem State.setOracle_mapped (o : Oracle) : (s.setOracle o).mapped = s.mapped := rfl
@[simp] theorem State.setOracle_clockOn (o : Oracle) : (s.setOracle o).clockOn = s.clockOn := rfl
@[simp] theorem State.setOracle_owner (o : Oracle) : (s.setOracle o).owner = s.owner := rfl
@[simp] theorem State.setOracle_ctl (o : Oracle) : (s.setOracle o).ctl = s.ctl := rfl
@[simp] theorem State.setOracle_work (o : Oracle) : (s.setOracle o).work = s.work := rfl
@[simp] theorem State.setOracle_dirCmd (o : Oracle) : (s.setOracle o).dirCmd = s.dirCmd := rfl
@[simp] theorem State.setOracle_oneWay (o : Oracle) : (s.setOracle o).oneWay = s.oneWay := rfl
@[simp] theorem State.setOracle_shadow (o : Oracle) : (s.setOracle o).shadow = s.shadow := rfl
@[simp] theorem State.setOracle_fuses (o : Oracle) : (s.setOracle o).fuses = s.fuses := rfl
@[simp] theorem State.setOracle_powered (o : Oracle) : (s.setOracle o).powered = s.powered := rfl
@[simp] theorem State.setOracle_pulseLog (o : Oracle) : (s.setOracle o).pulseLog = s.pulseLog := rfl
@[simp] theorem State.setOracle_attemptLog (o : Oracle) : (s.setOracle o).attemptLog = s.attemptLog := rfl
@[simp] theorem State.setOracle_trace (o : Oracle) : (s.setOracle o).trace = s.trace := rfl
@[simp] theorem State.setOracle_modeLast (o : Oracle) : (s.setOracle o).modeLast = s.modeLast := rfl
@[simp] theorem State.setOracle_adrLast (o : Oracle) : (s.setOracle o).adrLast = s.adrLast := rfl
@[simp] theorem State.setOracle_refreshCount (o : Oracle) : (s.setOracle o).refreshCount = s.refreshCount := rfl
@[simp] theorem State.setOracle_caller (o : Oracle) : (s.setOracle o).caller = s.caller := rfl
@[simp] theorem State.setOracle_port (o : Oracle) : (s.setOracle o).port = s.port := rfl
@[simp] theorem State.setOracle_responses (o : Oracle) : (s.setOracle o).responses = s.responses := rfl
@[simp] theorem State.setOracle_oracle (o : Oracle) : (s.setOracle o).oracle = o := rfl

/-! ### setWork -/

@[simp] theorem State.setWork_cfg (w : Work) : (s.setWork w).cfg = s.cfg := rfl
@[simp] theorem State.setWork_mapped (w : Work) : (s.setWork w).mapped = s.mapped := rfl
@[simp] theorem State.setWork_clockOn (w : Work) : (s.setWork w).clockOn = s.clockOn := rfl
@[simp] theorem State.setWork_owner (w : Work) : (s.setWork w).owner = s.owner := rfl
@[simp] theorem State.setWork_ctl (w : Work) : (s.setWork w).ctl = s.ctl := rfl
@[simp] theorem State.setWork_work (w : Work) : (s.setWork w).work = w := rfl
@[simp] theorem State.setWork_dirCmd (w : Work) : (s.setWork w).dirCmd = s.dirCmd := rfl
@[simp] theorem State.setWork_oneWay (w : Work) : (s.setWork w).oneWay = s.oneWay := rfl
@[simp] theorem State.setWork_shadow (w : Work) : (s.setWork w).shadow = s.shadow := rfl
@[simp] theorem State.setWork_fuses (w : Work) : (s.setWork w).fuses = s.fuses := rfl
@[simp] theorem State.setWork_powered (w : Work) : (s.setWork w).powered = s.powered := rfl
@[simp] theorem State.setWork_pulseLog (w : Work) : (s.setWork w).pulseLog = s.pulseLog := rfl
@[simp] theorem State.setWork_attemptLog (w : Work) : (s.setWork w).attemptLog = s.attemptLog := rfl
@[simp] theorem State.setWork_trace (w : Work) : (s.setWork w).trace = s.trace := rfl
@[simp] theorem State.setWork_modeLast (w : Work) : (s.setWork w).modeLast = s.modeLast := rfl
@[simp] theorem State.setWork_adrLast (w : Work) : (s.setWork w).adrLast = s.adrLast := rfl
@[simp] theorem State.setWork_refreshCount (w : Work) : (s.setWork w).refreshCount = s.refreshCount := rfl
@[simp] theorem State.setWork_caller (w : Work) : (s.setWork w).caller = s.caller := rfl
@[simp] theorem State.setWork_port (w : Work) : (s.setWork w).port = s.port := rfl
@[simp] theorem State.setWork_responses (w : Work) : (s.setWork w).responses = s.responses := rfl
@[simp] theorem State.setWork_oracle (w : Work) : (s.setWork w).oracle = s.oracle := rfl

/-! ### setRet -/

@[simp] theorem State.setRet_cfg (v : Word32) : (s.setRet v).cfg = s.cfg := rfl
@[simp] theorem State.setRet_mapped (v : Word32) : (s.setRet v).mapped = s.mapped := rfl
@[simp] theorem State.setRet_clockOn (v : Word32) : (s.setRet v).clockOn = s.clockOn := rfl
@[simp] theorem State.setRet_owner (v : Word32) : (s.setRet v).owner = s.owner := rfl
@[simp] theorem State.setRet_ctl (v : Word32) : (s.setRet v).ctl = s.ctl := rfl
@[simp] theorem State.setRet_work (v : Word32) : (s.setRet v).work = { s.work with ret := v } := rfl
@[simp] theorem State.setRet_dirCmd (v : Word32) : (s.setRet v).dirCmd = s.dirCmd := rfl
@[simp] theorem State.setRet_oneWay (v : Word32) : (s.setRet v).oneWay = s.oneWay := rfl
@[simp] theorem State.setRet_shadow (v : Word32) : (s.setRet v).shadow = s.shadow := rfl
@[simp] theorem State.setRet_fuses (v : Word32) : (s.setRet v).fuses = s.fuses := rfl
@[simp] theorem State.setRet_powered (v : Word32) : (s.setRet v).powered = s.powered := rfl
@[simp] theorem State.setRet_pulseLog (v : Word32) : (s.setRet v).pulseLog = s.pulseLog := rfl
@[simp] theorem State.setRet_attemptLog (v : Word32) : (s.setRet v).attemptLog = s.attemptLog := rfl
@[simp] theorem State.setRet_trace (v : Word32) : (s.setRet v).trace = s.trace := rfl
@[simp] theorem State.setRet_modeLast (v : Word32) : (s.setRet v).modeLast = s.modeLast := rfl
@[simp] theorem State.setRet_adrLast (v : Word32) : (s.setRet v).adrLast = s.adrLast := rfl
@[simp] theorem State.setRet_refreshCount (v : Word32) : (s.setRet v).refreshCount = s.refreshCount := rfl
@[simp] theorem State.setRet_caller (v : Word32) : (s.setRet v).caller = s.caller := rfl
@[simp] theorem State.setRet_port (v : Word32) : (s.setRet v).port = s.port := rfl
@[simp] theorem State.setRet_responses (v : Word32) : (s.setRet v).responses = s.responses := rfl
@[simp] theorem State.setRet_oracle (v : Word32) : (s.setRet v).oracle = s.oracle := rfl

/-! ### setCtl -/

@[simp] theorem State.setCtl_cfg (c : Ctl) : (s.setCtl c).cfg = s.cfg := rfl
@[simp] theorem State.setCtl_mapped (c : Ctl) : (s.setCtl c).mapped = s.mapped := rfl
@[simp] theorem State.setCtl_clockOn (c : Ctl) : (s.setCtl c).clockOn = s.clockOn := rfl
@[simp] theorem State.setCtl_owner (c : Ctl) : (s.setCtl c).owner = s.owner := rfl
@[simp] theorem State.setCtl_ctl (c : Ctl) : (s.setCtl c).ctl = c := rfl
@[simp] theorem State.setCtl_work (c : Ctl) : (s.setCtl c).work = s.work := rfl
@[simp] theorem State.setCtl_dirCmd (c : Ctl) : (s.setCtl c).dirCmd = s.dirCmd := rfl
@[simp] theorem State.setCtl_oneWay (c : Ctl) : (s.setCtl c).oneWay = s.oneWay := rfl
@[simp] theorem State.setCtl_shadow (c : Ctl) : (s.setCtl c).shadow = s.shadow := rfl
@[simp] theorem State.setCtl_fuses (c : Ctl) : (s.setCtl c).fuses = s.fuses := rfl
@[simp] theorem State.setCtl_powered (c : Ctl) : (s.setCtl c).powered = s.powered := rfl
@[simp] theorem State.setCtl_pulseLog (c : Ctl) : (s.setCtl c).pulseLog = s.pulseLog := rfl
@[simp] theorem State.setCtl_attemptLog (c : Ctl) : (s.setCtl c).attemptLog = s.attemptLog := rfl
@[simp] theorem State.setCtl_trace (c : Ctl) : (s.setCtl c).trace = s.trace := rfl
@[simp] theorem State.setCtl_modeLast (c : Ctl) : (s.setCtl c).modeLast = s.modeLast := rfl
@[simp] theorem State.setCtl_adrLast (c : Ctl) : (s.setCtl c).adrLast = s.adrLast := rfl
@[simp] theorem State.setCtl_refreshCount (c : Ctl) : (s.setCtl c).refreshCount = s.refreshCount := rfl
@[simp] theorem State.setCtl_caller (c : Ctl) : (s.setCtl c).caller = s.caller := rfl
@[simp] theorem State.setCtl_port (c : Ctl) : (s.setCtl c).port = s.port := rfl
@[simp] theorem State.setCtl_responses (c : Ctl) : (s.setCtl c).responses = s.responses := rfl
@[simp] theorem State.setCtl_oracle (c : Ctl) : (s.setCtl c).oracle = s.oracle := rfl

/-! ### noteMode -/

@[simp] theorem State.noteMode_cfg (v : Word32) : (s.noteMode v).cfg = s.cfg := rfl
@[simp] theorem State.noteMode_mapped (v : Word32) : (s.noteMode v).mapped = s.mapped := rfl
@[simp] theorem State.noteMode_clockOn (v : Word32) : (s.noteMode v).clockOn = s.clockOn := rfl
@[simp] theorem State.noteMode_owner (v : Word32) : (s.noteMode v).owner = s.owner := rfl
@[simp] theorem State.noteMode_ctl (v : Word32) : (s.noteMode v).ctl = s.ctl := rfl
@[simp] theorem State.noteMode_work (v : Word32) : (s.noteMode v).work = s.work := rfl
@[simp] theorem State.noteMode_dirCmd (v : Word32) : (s.noteMode v).dirCmd = s.dirCmd := rfl
@[simp] theorem State.noteMode_oneWay (v : Word32) : (s.noteMode v).oneWay = s.oneWay := rfl
@[simp] theorem State.noteMode_shadow (v : Word32) : (s.noteMode v).shadow = s.shadow := rfl
@[simp] theorem State.noteMode_fuses (v : Word32) : (s.noteMode v).fuses = s.fuses := rfl
@[simp] theorem State.noteMode_powered (v : Word32) : (s.noteMode v).powered = s.powered := rfl
@[simp] theorem State.noteMode_pulseLog (v : Word32) : (s.noteMode v).pulseLog = s.pulseLog := rfl
@[simp] theorem State.noteMode_attemptLog (v : Word32) : (s.noteMode v).attemptLog = s.attemptLog := rfl
@[simp] theorem State.noteMode_trace (v : Word32) : (s.noteMode v).trace = s.trace ++ [.wr offMode v] := rfl
@[simp] theorem State.noteMode_modeLast (v : Word32) : (s.noteMode v).modeLast = some v := rfl
@[simp] theorem State.noteMode_adrLast (v : Word32) : (s.noteMode v).adrLast = s.adrLast := rfl
@[simp] theorem State.noteMode_refreshCount (v : Word32) : (s.noteMode v).refreshCount = s.refreshCount := rfl
@[simp] theorem State.noteMode_caller (v : Word32) : (s.noteMode v).caller = s.caller := rfl
@[simp] theorem State.noteMode_port (v : Word32) : (s.noteMode v).port = s.port := rfl
@[simp] theorem State.noteMode_responses (v : Word32) : (s.noteMode v).responses = s.responses := rfl
@[simp] theorem State.noteMode_oracle (v : Word32) : (s.noteMode v).oracle = s.oracle := rfl

/-! ### noteAdr -/

@[simp] theorem State.noteAdr_cfg (v : Word32) : (s.noteAdr v).cfg = s.cfg := rfl
@[simp] theorem State.noteAdr_mapped (v : Word32) : (s.noteAdr v).mapped = s.mapped := rfl
@[simp] theorem State.noteAdr_clockOn (v : Word32) : (s.noteAdr v).clockOn = s.clockOn := rfl
@[simp] theorem State.noteAdr_owner (v : Word32) : (s.noteAdr v).owner = s.owner := rfl
@[simp] theorem State.noteAdr_ctl (v : Word32) : (s.noteAdr v).ctl = s.ctl := rfl
@[simp] theorem State.noteAdr_work (v : Word32) : (s.noteAdr v).work = s.work := rfl
@[simp] theorem State.noteAdr_dirCmd (v : Word32) : (s.noteAdr v).dirCmd = s.dirCmd := rfl
@[simp] theorem State.noteAdr_oneWay (v : Word32) : (s.noteAdr v).oneWay = s.oneWay := rfl
@[simp] theorem State.noteAdr_shadow (v : Word32) : (s.noteAdr v).shadow = s.shadow := rfl
@[simp] theorem State.noteAdr_fuses (v : Word32) : (s.noteAdr v).fuses = s.fuses := rfl
@[simp] theorem State.noteAdr_powered (v : Word32) : (s.noteAdr v).powered = s.powered := rfl
@[simp] theorem State.noteAdr_pulseLog (v : Word32) : (s.noteAdr v).pulseLog = s.pulseLog := rfl
@[simp] theorem State.noteAdr_attemptLog (v : Word32) : (s.noteAdr v).attemptLog = s.attemptLog := rfl
@[simp] theorem State.noteAdr_trace (v : Word32) : (s.noteAdr v).trace = s.trace ++ [.wr offAdr v] := rfl
@[simp] theorem State.noteAdr_modeLast (v : Word32) : (s.noteAdr v).modeLast = s.modeLast := rfl
@[simp] theorem State.noteAdr_adrLast (v : Word32) : (s.noteAdr v).adrLast = some v := rfl
@[simp] theorem State.noteAdr_refreshCount (v : Word32) : (s.noteAdr v).refreshCount = s.refreshCount := rfl
@[simp] theorem State.noteAdr_caller (v : Word32) : (s.noteAdr v).caller = s.caller := rfl
@[simp] theorem State.noteAdr_port (v : Word32) : (s.noteAdr v).port = s.port := rfl
@[simp] theorem State.noteAdr_responses (v : Word32) : (s.noteAdr v).responses = s.responses := rfl
@[simp] theorem State.noteAdr_oracle (v : Word32) : (s.noteAdr v).oracle = s.oracle := rfl

/-! ### setPowered -/

@[simp] theorem State.setPowered_cfg (b : Bool) : (s.setPowered b).cfg = s.cfg := rfl
@[simp] theorem State.setPowered_mapped (b : Bool) : (s.setPowered b).mapped = s.mapped := rfl
@[simp] theorem State.setPowered_clockOn (b : Bool) : (s.setPowered b).clockOn = s.clockOn := rfl
@[simp] theorem State.setPowered_owner (b : Bool) : (s.setPowered b).owner = s.owner := rfl
@[simp] theorem State.setPowered_ctl (b : Bool) : (s.setPowered b).ctl = s.ctl := rfl
@[simp] theorem State.setPowered_work (b : Bool) : (s.setPowered b).work = s.work := rfl
@[simp] theorem State.setPowered_dirCmd (b : Bool) : (s.setPowered b).dirCmd = s.dirCmd := rfl
@[simp] theorem State.setPowered_oneWay (b : Bool) : (s.setPowered b).oneWay = s.oneWay := rfl
@[simp] theorem State.setPowered_shadow (b : Bool) : (s.setPowered b).shadow = s.shadow := rfl
@[simp] theorem State.setPowered_fuses (b : Bool) : (s.setPowered b).fuses = s.fuses := rfl
@[simp] theorem State.setPowered_powered (b : Bool) : (s.setPowered b).powered = some b := rfl
@[simp] theorem State.setPowered_pulseLog (b : Bool) : (s.setPowered b).pulseLog = s.pulseLog := rfl
@[simp] theorem State.setPowered_attemptLog (b : Bool) : (s.setPowered b).attemptLog = s.attemptLog := rfl
@[simp] theorem State.setPowered_trace (b : Bool) : (s.setPowered b).trace = s.trace := rfl
@[simp] theorem State.setPowered_modeLast (b : Bool) : (s.setPowered b).modeLast = s.modeLast := rfl
@[simp] theorem State.setPowered_adrLast (b : Bool) : (s.setPowered b).adrLast = s.adrLast := rfl
@[simp] theorem State.setPowered_refreshCount (b : Bool) : (s.setPowered b).refreshCount = s.refreshCount := rfl
@[simp] theorem State.setPowered_caller (b : Bool) : (s.setPowered b).caller = s.caller := rfl
@[simp] theorem State.setPowered_port (b : Bool) : (s.setPowered b).port = s.port := rfl
@[simp] theorem State.setPowered_responses (b : Bool) : (s.setPowered b).responses = s.responses := rfl
@[simp] theorem State.setPowered_oracle (b : Bool) : (s.setPowered b).oracle = s.oracle := rfl

/-! ### setClock -/

@[simp] theorem State.setClock_cfg (b : Bool) : (s.setClock b).cfg = s.cfg := rfl
@[simp] theorem State.setClock_mapped (b : Bool) : (s.setClock b).mapped = s.mapped := rfl
@[simp] theorem State.setClock_clockOn (b : Bool) : (s.setClock b).clockOn = b := rfl
@[simp] theorem State.setClock_owner (b : Bool) : (s.setClock b).owner = s.owner := rfl
@[simp] theorem State.setClock_ctl (b : Bool) : (s.setClock b).ctl = s.ctl := rfl
@[simp] theorem State.setClock_work (b : Bool) : (s.setClock b).work = s.work := rfl
@[simp] theorem State.setClock_dirCmd (b : Bool) : (s.setClock b).dirCmd = s.dirCmd := rfl
@[simp] theorem State.setClock_oneWay (b : Bool) : (s.setClock b).oneWay = s.oneWay := rfl
@[simp] theorem State.setClock_shadow (b : Bool) : (s.setClock b).shadow = s.shadow := rfl
@[simp] theorem State.setClock_fuses (b : Bool) : (s.setClock b).fuses = s.fuses := rfl
@[simp] theorem State.setClock_powered (b : Bool) : (s.setClock b).powered = s.powered := rfl
@[simp] theorem State.setClock_pulseLog (b : Bool) : (s.setClock b).pulseLog = s.pulseLog := rfl
@[simp] theorem State.setClock_attemptLog (b : Bool) : (s.setClock b).attemptLog = s.attemptLog := rfl
@[simp] theorem State.setClock_trace (b : Bool) : (s.setClock b).trace = s.trace := rfl
@[simp] theorem State.setClock_modeLast (b : Bool) : (s.setClock b).modeLast = s.modeLast := rfl
@[simp] theorem State.setClock_adrLast (b : Bool) : (s.setClock b).adrLast = s.adrLast := rfl
@[simp] theorem State.setClock_refreshCount (b : Bool) : (s.setClock b).refreshCount = s.refreshCount := rfl
@[simp] theorem State.setClock_caller (b : Bool) : (s.setClock b).caller = s.caller := rfl
@[simp] theorem State.setClock_port (b : Bool) : (s.setClock b).port = s.port := rfl
@[simp] theorem State.setClock_responses (b : Bool) : (s.setClock b).responses = s.responses := rfl
@[simp] theorem State.setClock_oracle (b : Bool) : (s.setClock b).oracle = s.oracle := rfl

/-! ### setMapped -/

@[simp] theorem State.setMapped_cfg (b : Bool) : (s.setMapped b).cfg = s.cfg := rfl
@[simp] theorem State.setMapped_mapped (b : Bool) : (s.setMapped b).mapped = b := rfl
@[simp] theorem State.setMapped_clockOn (b : Bool) : (s.setMapped b).clockOn = s.clockOn := rfl
@[simp] theorem State.setMapped_owner (b : Bool) : (s.setMapped b).owner = s.owner := rfl
@[simp] theorem State.setMapped_ctl (b : Bool) : (s.setMapped b).ctl = s.ctl := rfl
@[simp] theorem State.setMapped_work (b : Bool) : (s.setMapped b).work = s.work := rfl
@[simp] theorem State.setMapped_dirCmd (b : Bool) : (s.setMapped b).dirCmd = s.dirCmd := rfl
@[simp] theorem State.setMapped_oneWay (b : Bool) : (s.setMapped b).oneWay = s.oneWay := rfl
@[simp] theorem State.setMapped_shadow (b : Bool) : (s.setMapped b).shadow = s.shadow := rfl
@[simp] theorem State.setMapped_fuses (b : Bool) : (s.setMapped b).fuses = s.fuses := rfl
@[simp] theorem State.setMapped_powered (b : Bool) : (s.setMapped b).powered = s.powered := rfl
@[simp] theorem State.setMapped_pulseLog (b : Bool) : (s.setMapped b).pulseLog = s.pulseLog := rfl
@[simp] theorem State.setMapped_attemptLog (b : Bool) : (s.setMapped b).attemptLog = s.attemptLog := rfl
@[simp] theorem State.setMapped_trace (b : Bool) : (s.setMapped b).trace = s.trace := rfl
@[simp] theorem State.setMapped_modeLast (b : Bool) : (s.setMapped b).modeLast = s.modeLast := rfl
@[simp] theorem State.setMapped_adrLast (b : Bool) : (s.setMapped b).adrLast = s.adrLast := rfl
@[simp] theorem State.setMapped_refreshCount (b : Bool) : (s.setMapped b).refreshCount = s.refreshCount := rfl
@[simp] theorem State.setMapped_caller (b : Bool) : (s.setMapped b).caller = s.caller := rfl
@[simp] theorem State.setMapped_port (b : Bool) : (s.setMapped b).port = s.port := rfl
@[simp] theorem State.setMapped_responses (b : Bool) : (s.setMapped b).responses = s.responses := rfl
@[simp] theorem State.setMapped_oracle (b : Bool) : (s.setMapped b).oracle = s.oracle := rfl

/-! ### noteAttempt -/

@[simp] theorem State.noteAttempt_cfg : (s.noteAttempt).cfg = s.cfg := rfl
@[simp] theorem State.noteAttempt_mapped : (s.noteAttempt).mapped = s.mapped := rfl
@[simp] theorem State.noteAttempt_clockOn : (s.noteAttempt).clockOn = s.clockOn := rfl
@[simp] theorem State.noteAttempt_owner : (s.noteAttempt).owner = s.owner := rfl
@[simp] theorem State.noteAttempt_ctl : (s.noteAttempt).ctl = s.ctl := rfl
@[simp] theorem State.noteAttempt_work : (s.noteAttempt).work = s.work := rfl
@[simp] theorem State.noteAttempt_dirCmd : (s.noteAttempt).dirCmd = s.dirCmd := rfl
@[simp] theorem State.noteAttempt_oneWay : (s.noteAttempt).oneWay = s.oneWay := rfl
@[simp] theorem State.noteAttempt_shadow : (s.noteAttempt).shadow = s.shadow := rfl
@[simp] theorem State.noteAttempt_fuses : (s.noteAttempt).fuses = s.fuses := rfl
@[simp] theorem State.noteAttempt_powered : (s.noteAttempt).powered = s.powered := rfl
@[simp] theorem State.noteAttempt_pulseLog : (s.noteAttempt).pulseLog = s.pulseLog := rfl
@[simp] theorem State.noteAttempt_attemptLog : (s.noteAttempt).attemptLog = s.attemptLog ++ (s.adrLast.map physBitOf).toList := rfl
@[simp] theorem State.noteAttempt_trace : (s.noteAttempt).trace = s.trace := rfl
@[simp] theorem State.noteAttempt_modeLast : (s.noteAttempt).modeLast = s.modeLast := rfl
@[simp] theorem State.noteAttempt_adrLast : (s.noteAttempt).adrLast = s.adrLast := rfl
@[simp] theorem State.noteAttempt_refreshCount : (s.noteAttempt).refreshCount = s.refreshCount := rfl
@[simp] theorem State.noteAttempt_caller : (s.noteAttempt).caller = s.caller := rfl
@[simp] theorem State.noteAttempt_port : (s.noteAttempt).port = s.port := rfl
@[simp] theorem State.noteAttempt_responses : (s.noteAttempt).responses = s.responses := rfl
@[simp] theorem State.noteAttempt_oracle : (s.noteAttempt).oracle = s.oracle := rfl

/-! ### acquire -/

@[simp] theorem State.acquire_cfg : (s.acquire).cfg = s.cfg := rfl
@[simp] theorem State.acquire_mapped : (s.acquire).mapped = s.mapped := rfl
@[simp] theorem State.acquire_clockOn : (s.acquire).clockOn = s.clockOn := rfl
@[simp] theorem State.acquire_owner : (s.acquire).owner = some s.caller := rfl
@[simp] theorem State.acquire_ctl : (s.acquire).ctl = s.ctl := rfl
@[simp] theorem State.acquire_work : (s.acquire).work = s.work := rfl
@[simp] theorem State.acquire_dirCmd : (s.acquire).dirCmd = s.dirCmd := rfl
@[simp] theorem State.acquire_oneWay : (s.acquire).oneWay = s.oneWay := rfl
@[simp] theorem State.acquire_shadow : (s.acquire).shadow = s.shadow := rfl
@[simp] theorem State.acquire_fuses : (s.acquire).fuses = s.fuses := rfl
@[simp] theorem State.acquire_powered : (s.acquire).powered = s.powered := rfl
@[simp] theorem State.acquire_pulseLog : (s.acquire).pulseLog = s.pulseLog := rfl
@[simp] theorem State.acquire_attemptLog : (s.acquire).attemptLog = s.attemptLog := rfl
@[simp] theorem State.acquire_trace : (s.acquire).trace = s.trace := rfl
@[simp] theorem State.acquire_modeLast : (s.acquire).modeLast = s.modeLast := rfl
@[simp] theorem State.acquire_adrLast : (s.acquire).adrLast = s.adrLast := rfl
@[simp] theorem State.acquire_refreshCount : (s.acquire).refreshCount = s.refreshCount := rfl
@[simp] theorem State.acquire_caller : (s.acquire).caller = s.caller := rfl
@[simp] theorem State.acquire_port : (s.acquire).port = s.port := rfl
@[simp] theorem State.acquire_responses : (s.acquire).responses = s.responses := rfl
@[simp] theorem State.acquire_oracle : (s.acquire).oracle = s.oracle := rfl

/-! ### wait -/

@[simp] theorem State.wait_cfg (i : Instr) : (s.wait i).cfg = s.cfg := rfl
@[simp] theorem State.wait_mapped (i : Instr) : (s.wait i).mapped = s.mapped := rfl
@[simp] theorem State.wait_clockOn (i : Instr) : (s.wait i).clockOn = s.clockOn := rfl
@[simp] theorem State.wait_owner (i : Instr) : (s.wait i).owner = s.owner := rfl
@[simp] theorem State.wait_ctl (i : Instr) : (s.wait i).ctl = s.ctl := rfl
@[simp] theorem State.wait_work (i : Instr) : (s.wait i).work = s.work := rfl
@[simp] theorem State.wait_dirCmd (i : Instr) : (s.wait i).dirCmd = s.dirCmd := rfl
@[simp] theorem State.wait_oneWay (i : Instr) : (s.wait i).oneWay = s.oneWay := rfl
@[simp] theorem State.wait_shadow (i : Instr) : (s.wait i).shadow = s.shadow := rfl
@[simp] theorem State.wait_fuses (i : Instr) : (s.wait i).fuses = s.fuses := rfl
@[simp] theorem State.wait_powered (i : Instr) : (s.wait i).powered = s.powered := rfl
@[simp] theorem State.wait_pulseLog (i : Instr) : (s.wait i).pulseLog = s.pulseLog := rfl
@[simp] theorem State.wait_attemptLog (i : Instr) : (s.wait i).attemptLog = s.attemptLog := rfl
@[simp] theorem State.wait_trace (i : Instr) : (s.wait i).trace = s.trace := rfl
@[simp] theorem State.wait_modeLast (i : Instr) : (s.wait i).modeLast = s.modeLast := rfl
@[simp] theorem State.wait_adrLast (i : Instr) : (s.wait i).adrLast = s.adrLast := rfl
@[simp] theorem State.wait_refreshCount (i : Instr) : (s.wait i).refreshCount = s.refreshCount := rfl
@[simp] theorem State.wait_caller (i : Instr) : (s.wait i).caller = s.caller := rfl
@[simp] theorem State.wait_port (i : Instr) : (s.wait i).port = s.port ++ [(s.caller, i)] := rfl
@[simp] theorem State.wait_responses (i : Instr) : (s.wait i).responses = s.responses := rfl
@[simp] theorem State.wait_oracle (i : Instr) : (s.wait i).oracle = s.oracle := rfl

/-! ### endOp -/

@[simp] theorem State.endOp_cfg (r : OpResult) : (s.endOp r).cfg = s.cfg := rfl
@[simp] theorem State.endOp_mapped (r : OpResult) : (s.endOp r).mapped = s.mapped := rfl
@[simp] theorem State.endOp_clockOn (r : OpResult) : (s.endOp r).clockOn = s.clockOn := rfl
@[simp] theorem State.endOp_owner (r : OpResult) : (s.endOp r).owner = none := rfl
@[simp] theorem State.endOp_ctl (r : OpResult) : (s.endOp r).ctl = .idle := rfl
@[simp] theorem State.endOp_work (r : OpResult) : (s.endOp r).work = s.work := rfl
@[simp] theorem State.endOp_dirCmd (r : OpResult) : (s.endOp r).dirCmd = s.dirCmd := rfl
@[simp] theorem State.endOp_oneWay (r : OpResult) : (s.endOp r).oneWay = s.oneWay := rfl
@[simp] theorem State.endOp_shadow (r : OpResult) : (s.endOp r).shadow = s.shadow := rfl
@[simp] theorem State.endOp_fuses (r : OpResult) : (s.endOp r).fuses = s.fuses := rfl
@[simp] theorem State.endOp_powered (r : OpResult) : (s.endOp r).powered = s.powered := rfl
@[simp] theorem State.endOp_pulseLog (r : OpResult) : (s.endOp r).pulseLog = s.pulseLog := rfl
@[simp] theorem State.endOp_attemptLog (r : OpResult) : (s.endOp r).attemptLog = s.attemptLog := rfl
@[simp] theorem State.endOp_trace (r : OpResult) : (s.endOp r).trace = s.trace := rfl
@[simp] theorem State.endOp_modeLast (r : OpResult) : (s.endOp r).modeLast = s.modeLast := rfl
@[simp] theorem State.endOp_adrLast (r : OpResult) : (s.endOp r).adrLast = s.adrLast := rfl
@[simp] theorem State.endOp_refreshCount (r : OpResult) : (s.endOp r).refreshCount = s.refreshCount := rfl
@[simp] theorem State.endOp_caller (r : OpResult) : (s.endOp r).caller = s.caller := rfl
@[simp] theorem State.endOp_port (r : OpResult) : (s.endOp r).port = s.port := rfl
@[simp] theorem State.endOp_responses (r : OpResult) : (s.endOp r).responses = s.responses ++ [(s.owner.getD s.caller, r)] := rfl
@[simp] theorem State.endOp_oracle (r : OpResult) : (s.endOp r).oracle = s.oracle := rfl

/-! ### raiseError -/

@[simp] theorem State.raiseError_cfg (k : ErrorKind) (y : Reason) : (s.raiseError k y).cfg = s.cfg := rfl
@[simp] theorem State.raiseError_mapped (k : ErrorKind) (y : Reason) : (s.raiseError k y).mapped = s.mapped := rfl
@[simp] theorem State.raiseError_clockOn (k : ErrorKind) (y : Reason) : (s.raiseError k y).clockOn = s.clockOn := rfl
@[simp] theorem State.raiseError_owner (k : ErrorKind) (y : Reason) : (s.raiseError k y).owner = none := rfl
@[simp] theorem State.raiseError_ctl (k : ErrorKind) (y : Reason) : (s.raiseError k y).ctl = .idle := rfl
@[simp] theorem State.raiseError_work (k : ErrorKind) (y : Reason) : (s.raiseError k y).work = s.work := rfl
@[simp] theorem State.raiseError_dirCmd (k : ErrorKind) (y : Reason) : (s.raiseError k y).dirCmd = s.dirCmd := rfl
@[simp] theorem State.raiseError_oneWay (k : ErrorKind) (y : Reason) : (s.raiseError k y).oneWay = s.oneWay := rfl
@[simp] theorem State.raiseError_shadow (k : ErrorKind) (y : Reason) : (s.raiseError k y).shadow = s.shadow := rfl
@[simp] theorem State.raiseError_fuses (k : ErrorKind) (y : Reason) : (s.raiseError k y).fuses = s.fuses := rfl
@[simp] theorem State.raiseError_powered (k : ErrorKind) (y : Reason) : (s.raiseError k y).powered = s.powered := rfl
@[simp] theorem State.raiseError_pulseLog (k : ErrorKind) (y : Reason) : (s.raiseError k y).pulseLog = s.pulseLog := rfl
@[simp] theorem State.raiseError_attemptLog (k : ErrorKind) (y : Reason) : (s.raiseError k y).attemptLog = s.attemptLog := rfl
@[simp] theorem State.raiseError_trace (k : ErrorKind) (y : Reason) : (s.raiseError k y).trace = s.trace := rfl
@[simp] theorem State.raiseError_modeLast (k : ErrorKind) (y : Reason) : (s.raiseError k y).modeLast = s.modeLast := rfl
@[simp] theorem State.raiseError_adrLast (k : ErrorKind) (y : Reason) : (s.raiseError k y).adrLast = s.adrLast := rfl
@[simp] theorem State.raiseError_refreshCount (k : ErrorKind) (y : Reason) : (s.raiseError k y).refreshCount = s.refreshCount := rfl
@[simp] theorem State.raiseError_caller (k : ErrorKind) (y : Reason) : (s.raiseError k y).caller = s.caller := rfl
@[simp] theorem State.raiseError_port (k : ErrorKind) (y : Reason) : (s.raiseError k y).port = s.port := rfl
@[simp] theorem State.raiseError_responses (k : ErrorKind) (y : Reason) : (s.raiseError k y).responses = s.responses ++ [(s.owner.getD s.caller, .error k y)] := rfl
@[simp] theorem State.raiseError_oracle (k : ErrorKind) (y : Reason) : (s.raiseError k y).oracle = s.oracle := rfl

/-! ### answer -/

@[simp] theorem State.answer_cfg (v : Value) : (s.answer v).cfg = s.cfg := rfl
@[simp] theorem State.answer_mapped (v : Value) : (s.answer v).mapped = s.mapped := rfl
@[simp] theorem State.answer_clockOn (v : Value) : (s.answer v).clockOn = s.clockOn := rfl
@[simp] theorem State.answer_owner (v : Value) : (s.answer v).owner = s.owner := rfl
@[simp] theorem State.answer_ctl (v : Value) : (s.answer v).ctl = s.ctl := rfl
@[simp] theorem State.answer_work (v : Value) : (s.answer v).work = s.work := rfl
@[simp] theorem State.answer_dirCmd (v : Value) : (s.answer v).dirCmd = s.dirCmd := rfl
@[simp] theorem State.answer_oneWay (v : Value) : (s.answer v).oneWay = s.oneWay := rfl
@[simp] theorem State.answer_shadow (v : Value) : (s.answer v).shadow = s.shadow := rfl
@[simp] theorem State.answer_fuses (v : Value) : (s.answer v).fuses = s.fuses := rfl
@[simp] theorem State.answer_powered (v : Value) : (s.answer v).powered = s.powered := rfl
@[simp] theorem State.answer_pulseLog (v : Value) : (s.answer v).pulseLog = s.pulseLog := rfl
@[simp] theorem State.answer_attemptLog (v : Value) : (s.answer v).attemptLog = s.attemptLog := rfl
@[simp] theorem State.answer_trace (v : Value) : (s.answer v).trace = s.trace := rfl
@[simp] theorem State.answer_modeLast (v : Value) : (s.answer v).modeLast = s.modeLast := rfl
@[simp] theorem State.answer_adrLast (v : Value) : (s.answer v).adrLast = s.adrLast := rfl
@[simp] theorem State.answer_refreshCount (v : Value) : (s.answer v).refreshCount = s.refreshCount := rfl
@[simp] theorem State.answer_caller (v : Value) : (s.answer v).caller = s.caller := rfl
@[simp] theorem State.answer_port (v : Value) : (s.answer v).port = s.port := rfl
@[simp] theorem State.answer_responses (v : Value) : (s.answer v).responses = s.responses ++ [(s.caller, .ok v)] := rfl
@[simp] theorem State.answer_oracle (v : Value) : (s.answer v).oracle = s.oracle := rfl

/-! ### pulseAt -/

@[simp] theorem pulseAt_cfg (a : Word32) : (pulseAt a s).cfg = s.cfg := rfl
@[simp] theorem pulseAt_mapped (a : Word32) : (pulseAt a s).mapped = s.mapped := rfl
@[simp] theorem pulseAt_clockOn (a : Word32) : (pulseAt a s).clockOn = s.clockOn := rfl
@[simp] theorem pulseAt_owner (a : Word32) : (pulseAt a s).owner = s.owner := rfl
@[simp] theorem pulseAt_ctl (a : Word32) : (pulseAt a s).ctl = s.ctl := rfl
@[simp] theorem pulseAt_work (a : Word32) : (pulseAt a s).work = s.work := rfl
@[simp] theorem pulseAt_dirCmd (a : Word32) : (pulseAt a s).dirCmd = s.dirCmd := rfl
@[simp] theorem pulseAt_oneWay (a : Word32) : (pulseAt a s).oneWay = s.oneWay := rfl
@[simp] theorem pulseAt_shadow (a : Word32) : (pulseAt a s).shadow = s.shadow := rfl
@[simp] theorem pulseAt_fuses (a : Word32) : (pulseAt a s).fuses = s.fuses.write a.toNat (cellMax (s.fuses.read a.toNat) s.oracle.nextPulse.1) := rfl
@[simp] theorem pulseAt_powered (a : Word32) : (pulseAt a s).powered = s.powered := rfl
@[simp] theorem pulseAt_pulseLog (a : Word32) : (pulseAt a s).pulseLog = s.pulseLog ++ [physBitOf a] := rfl
@[simp] theorem pulseAt_attemptLog (a : Word32) : (pulseAt a s).attemptLog = s.attemptLog := rfl
@[simp] theorem pulseAt_trace (a : Word32) : (pulseAt a s).trace = s.trace := rfl
@[simp] theorem pulseAt_modeLast (a : Word32) : (pulseAt a s).modeLast = s.modeLast := rfl
@[simp] theorem pulseAt_adrLast (a : Word32) : (pulseAt a s).adrLast = s.adrLast := rfl
@[simp] theorem pulseAt_refreshCount (a : Word32) : (pulseAt a s).refreshCount = s.refreshCount := rfl
@[simp] theorem pulseAt_caller (a : Word32) : (pulseAt a s).caller = s.caller := rfl
@[simp] theorem pulseAt_port (a : Word32) : (pulseAt a s).port = s.port := rfl
@[simp] theorem pulseAt_responses (a : Word32) : (pulseAt a s).responses = s.responses := rfl
@[simp] theorem pulseAt_oracle (a : Word32) : (pulseAt a s).oracle = s.oracle.nextPulse.2 := rfl

/-! ### refreshCommand -/

@[simp] theorem refreshCommand_cfg : (refreshCommand s).cfg = s.cfg := rfl
@[simp] theorem refreshCommand_mapped : (refreshCommand s).mapped = s.mapped := rfl
@[simp] theorem refreshCommand_clockOn : (refreshCommand s).clockOn = s.clockOn := rfl
@[simp] theorem refreshCommand_owner : (refreshCommand s).owner = s.owner := rfl
@[simp] theorem refreshCommand_ctl : (refreshCommand s).ctl = s.ctl := rfl
@[simp] theorem refreshCommand_work : (refreshCommand s).work = s.work := rfl
@[simp] theorem refreshCommand_dirCmd : (refreshCommand s).dirCmd = s.dirCmd := rfl
@[simp] theorem refreshCommand_oneWay : (refreshCommand s).oneWay = s.oneWay := rfl
@[simp] theorem refreshCommand_shadow : (refreshCommand s).shadow = s.oracle.nextShadow.1 := rfl
@[simp] theorem refreshCommand_fuses : (refreshCommand s).fuses = s.fuses := rfl
@[simp] theorem refreshCommand_powered : (refreshCommand s).powered = s.powered := rfl
@[simp] theorem refreshCommand_pulseLog : (refreshCommand s).pulseLog = s.pulseLog := rfl
@[simp] theorem refreshCommand_attemptLog : (refreshCommand s).attemptLog = s.attemptLog := rfl
@[simp] theorem refreshCommand_trace : (refreshCommand s).trace = s.trace := rfl
@[simp] theorem refreshCommand_modeLast : (refreshCommand s).modeLast = s.modeLast := rfl
@[simp] theorem refreshCommand_adrLast : (refreshCommand s).adrLast = s.adrLast := rfl
@[simp] theorem refreshCommand_refreshCount : (refreshCommand s).refreshCount = s.refreshCount + 1 := rfl
@[simp] theorem refreshCommand_caller : (refreshCommand s).caller = s.caller := rfl
@[simp] theorem refreshCommand_port : (refreshCommand s).port = s.port := rfl
@[simp] theorem refreshCommand_responses : (refreshCommand s).responses = s.responses := rfl
@[simp] theorem refreshCommand_oracle : (refreshCommand s).oracle = s.oracle.nextShadow.2 := rfl

/-! ### push and enter -/

theorem State.push_run {s : State} {op : Instr} {phase : List Prim} {callers : List Frame}
    (h : s.ctl = .run op phase callers) (ps : List Prim) : s.push ps = s.setCtl (.run op (ps ++ phase) callers) := by
  unfold State.push
  rw [h]
  rfl

@[simp] theorem State.push_setCtl (op : Instr) (phase ps : List Prim) (callers : List Frame) :
    (s.setCtl (.run op phase callers)).push ps = s.setCtl (.run op (ps ++ phase) callers) := rfl

theorem State.enter_run {s : State} {caller : Instr} {phase : List Prim} {callers : List Frame}
    (h : s.ctl = .run caller phase callers) (op : Instr) (ps : List Prim) :
    s.enter op ps = s.setCtl (.run op ps (⟨caller, phase⟩ :: callers)) := by
  unfold State.enter
  rw [h]
  rfl

@[simp] theorem State.enter_setCtl (caller op : Instr) (phase ps : List Prim) (callers : List Frame) :
    (s.setCtl (.run caller phase callers)).enter op ps = s.setCtl (.run op ps (⟨caller, phase⟩ :: callers)) := rfl

@[simp] theorem State.push_cfg (ps : List Prim) : (s.push ps).cfg = s.cfg := by
  unfold State.push
  split <;> rfl
@[simp] theorem State.push_mapped (ps : List Prim) : (s.push ps).mapped = s.mapped := by
  unfold State.push
  split <;> rfl
@[simp] theorem State.push_clockOn (ps : List Prim) : (s.push ps).clockOn = s.clockOn := by
  unfold State.push
  split <;> rfl
@[simp] theorem State.push_owner (ps : List Prim) : (s.push ps).owner = s.owner := by
  unfold State.push
  split <;> rfl
@[simp] theorem State.push_work (ps : List Prim) : (s.push ps).work = s.work := by
  unfold State.push
  split <;> rfl
@[simp] theorem State.push_dirCmd (ps : List Prim) : (s.push ps).dirCmd = s.dirCmd := by
  unfold State.push
  split <;> rfl
@[simp] theorem State.push_oneWay (ps : List Prim) : (s.push ps).oneWay = s.oneWay := by
  unfold State.push
  split <;> rfl
@[simp] theorem State.push_shadow (ps : List Prim) : (s.push ps).shadow = s.shadow := by
  unfold State.push
  split <;> rfl
@[simp] theorem State.push_fuses (ps : List Prim) : (s.push ps).fuses = s.fuses := by
  unfold State.push
  split <;> rfl
@[simp] theorem State.push_powered (ps : List Prim) : (s.push ps).powered = s.powered := by
  unfold State.push
  split <;> rfl
@[simp] theorem State.push_pulseLog (ps : List Prim) : (s.push ps).pulseLog = s.pulseLog := by
  unfold State.push
  split <;> rfl
@[simp] theorem State.push_attemptLog (ps : List Prim) : (s.push ps).attemptLog = s.attemptLog := by
  unfold State.push
  split <;> rfl
@[simp] theorem State.push_trace (ps : List Prim) : (s.push ps).trace = s.trace := by
  unfold State.push
  split <;> rfl
@[simp] theorem State.push_modeLast (ps : List Prim) : (s.push ps).modeLast = s.modeLast := by
  unfold State.push
  split <;> rfl
@[simp] theorem State.push_adrLast (ps : List Prim) : (s.push ps).adrLast = s.adrLast := by
  unfold State.push
  split <;> rfl
@[simp] theorem State.push_refreshCount (ps : List Prim) : (s.push ps).refreshCount = s.refreshCount := by
  unfold State.push
  split <;> rfl
@[simp] theorem State.push_caller (ps : List Prim) : (s.push ps).caller = s.caller := by
  unfold State.push
  split <;> rfl
@[simp] theorem State.push_port (ps : List Prim) : (s.push ps).port = s.port := by
  unfold State.push
  split <;> rfl
@[simp] theorem State.push_responses (ps : List Prim) : (s.push ps).responses = s.responses := by
  unfold State.push
  split <;> rfl
@[simp] theorem State.push_oracle (ps : List Prim) : (s.push ps).oracle = s.oracle := by
  unfold State.push
  split <;> rfl

@[simp] theorem State.enter_cfg (op : Instr) (ps : List Prim) : (s.enter op ps).cfg = s.cfg := by
  unfold State.enter
  split <;> rfl
@[simp] theorem State.enter_mapped (op : Instr) (ps : List Prim) : (s.enter op ps).mapped = s.mapped := by
  unfold State.enter
  split <;> rfl
@[simp] theorem State.enter_clockOn (op : Instr) (ps : List Prim) : (s.enter op ps).clockOn = s.clockOn := by
  unfold State.enter
  split <;> rfl
@[simp] theorem State.enter_owner (op : Instr) (ps : List Prim) : (s.enter op ps).owner = s.owner := by
  unfold State.enter
  split <;> rfl
@[simp] theorem State.enter_work (op : Instr) (ps : List Prim) : (s.enter op ps).work = s.work := by
  unfold State.enter
  split <;> rfl
@[simp] theorem State.enter_dirCmd (op : Instr) (ps : List Prim) : (s.enter op ps).dirCmd = s.dirCmd := by
  unfold State.enter
  split <;> rfl
@[simp] theorem State.enter_oneWay (op : Instr) (ps : List Prim) : (s.enter op ps).oneWay = s.oneWay := by
  unfold State.enter
  split <;> rfl
@[simp] theorem State.enter_shadow (op : Instr) (ps : List Prim) : (s.enter op ps).shadow = s.shadow := by
  unfold State.enter
  split <;> rfl
@[simp] theorem State.enter_fuses (op : Instr) (ps : List Prim) : (s.enter op ps).fuses = s.fuses := by
  unfold State.enter
  split <;> rfl
@[simp] theorem State.enter_powered (op : Instr) (ps : List Prim) : (s.enter op ps).powered = s.powered := by
  unfold State.enter
  split <;> rfl
@[simp] theorem State.enter_pulseLog (op : Instr) (ps : List Prim) : (s.enter op ps).pulseLog = s.pulseLog := by
  unfold State.enter
  split <;> rfl
@[simp] theorem State.enter_attemptLog (op : Instr) (ps : List Prim) : (s.enter op ps).attemptLog = s.attemptLog := by
  unfold State.enter
  split <;> rfl
@[simp] theorem State.enter_trace (op : Instr) (ps : List Prim) : (s.enter op ps).trace = s.trace := by
  unfold State.enter
  split <;> rfl
@[simp] theorem State.enter_modeLast (op : Instr) (ps : List Prim) : (s.enter op ps).modeLast = s.modeLast := by
  unfold State.enter
  split <;> rfl
@[simp] theorem State.enter_adrLast (op : Instr) (ps : List Prim) : (s.enter op ps).adrLast = s.adrLast := by
  unfold State.enter
  split <;> rfl
@[simp] theorem State.enter_refreshCount (op : Instr) (ps : List Prim) : (s.enter op ps).refreshCount = s.refreshCount := by
  unfold State.enter
  split <;> rfl
@[simp] theorem State.enter_caller (op : Instr) (ps : List Prim) : (s.enter op ps).caller = s.caller := by
  unfold State.enter
  split <;> rfl
@[simp] theorem State.enter_port (op : Instr) (ps : List Prim) : (s.enter op ps).port = s.port := by
  unfold State.enter
  split <;> rfl
@[simp] theorem State.enter_responses (op : Instr) (ps : List Prim) : (s.enter op ps).responses = s.responses := by
  unfold State.enter
  split <;> rfl
@[simp] theorem State.enter_oracle (op : Instr) (ps : List Prim) : (s.enter op ps).oracle = s.oracle := by
  unfold State.enter
  split <;> rfl

/-! ### resetAgain -/

@[simp] theorem State.resetAgain_cfg : s.resetAgain.cfg = s.cfg := rfl
@[simp] theorem State.resetAgain_fuses : s.resetAgain.fuses = s.fuses := rfl
@[simp] theorem State.resetAgain_mapped : s.resetAgain.mapped = false := rfl
@[simp] theorem State.resetAgain_clockOn : s.resetAgain.clockOn = false := rfl
@[simp] theorem State.resetAgain_owner : s.resetAgain.owner = none := rfl
@[simp] theorem State.resetAgain_ctl : s.resetAgain.ctl = .idle := rfl
@[simp] theorem State.resetAgain_powered : s.resetAgain.powered = none := rfl
@[simp] theorem State.resetAgain_pulseLog : s.resetAgain.pulseLog = [] := rfl
@[simp] theorem State.resetAgain_attemptLog : s.resetAgain.attemptLog = [] := rfl
@[simp] theorem State.resetAgain_trace : s.resetAgain.trace = [] := rfl
@[simp] theorem State.resetAgain_modeLast : s.resetAgain.modeLast = none := rfl
@[simp] theorem State.resetAgain_adrLast : s.resetAgain.adrLast = none := rfl
@[simp] theorem State.resetAgain_refreshCount : s.resetAgain.refreshCount = 0 := rfl

@[simp] theorem State.setCtl_setCtl (c d : Ctl) : (s.setCtl c).setCtl d = s.setCtl d := rfl

theorem State.setCtl_self {s : State} {c : Ctl} (h : s.ctl = c) : s.setCtl c = s := by
  subst h
  rfl

end Sys2Proof.Machine
end

