-- ==== Sys2Proof/Laws/Ops.lean ====
section
/-! SUPPORT. What each shared operation answers: register reads and writes at the named offsets, and command
words under a valid configuration. -/

namespace Sys2Proof.Machine
open Sys2Proof Host

variable (s : State)

/-! ### Offsets -/

@[simp] theorem isReadableOffset_named :
    isReadableOffset offMode = true ∧ isReadableOffset offAdr = true ∧ isReadableOffset offRdData = true ∧
    isReadableOffset offStatus = true ∧ isReadableOffset offDirCmd = false ∧
    isReadableOffset offOneWay = false := by decide

theorem isReadableOffset_of_isShadowOffset {off : Word32} (h : isShadowOffset off = true) :
    isReadableOffset off = true := by
  simp [isReadableOffset, h]

/-- A virtual address that passes both checks gives a shadow offset, at its own word. -/
theorem isShadowOffset_add {addr : Word32} (hr : addrInRange addr = true) (ha : addrAligned addr = true) :
    isShadowOffset (shadowOff + addr) = true ∧ (shadowIndex (shadowOff + addr)).toNat = addr.toNat / 4 := by
  have hr : addr.toNat < 256 := of_decide_eq_true hr
  have ha : addr.toNat % 4 = 0 := eq_of_beq ha
  have e : (shadowOff + addr).toNat = 256 + addr.toNat := by
    simp only [shadowOff, BitVec.ofNat_eq_ofNat, BitVec.toNat_add, BitVec.toNat_ofNat, Nat.reducePow,
      Nat.reduceMod]
    omega
  constructor
  · simp only [isShadowOffset, e, Bool.and_eq_true, decide_eq_true_eq, beq_iff_eq]
    omega
  · simp only [shadowIndex, BitVec.extractLsb'_toNat, e, Nat.shiftRight_eq_div_pow, Nat.reducePow]
    omega

/-! ### Reads -/

/-- A read of an admitted offset: the answer goes to the trace and to `ret`, nothing else changes. -/
theorem regRead_of_readable {off : Word32} (h : isReadableOffset off = true) :
    regRead off s = .next (((s.setOracle (readAnswer off s).2).emit (.rd off (readAnswer off s).1)).setRet
      (readAnswer off s).1) := by
  simp [regRead, h, busRead]

theorem regRead_of_not_readable {off : Word32} (h : isReadableOffset off = false) :
    regRead off s = .refused .offsetUndefined := by
  simp [regRead, h]

@[simp] theorem readAnswer_mode : readAnswer offMode s = s.oracle.nextMode := by
  simp [readAnswer, isShadowOffset, offMode]

@[simp] theorem readAnswer_adr : readAnswer offAdr s = s.oracle.nextAdr := by
  simp [readAnswer, isShadowOffset, offMode, offAdr]

@[simp] theorem readAnswer_status : readAnswer offStatus s = s.oracle.nextStatus := by
  simp [readAnswer, isShadowOffset, offMode, offAdr, offStatus]

@[simp] theorem readAnswer_rdData : readAnswer offRdData s = s.oracle.nextRdData := by
  simp [readAnswer, isShadowOffset, offMode, offAdr, offStatus, offRdData]

theorem readAnswer_shadow {off : Word32} (h : isShadowOffset off = true) :
    readAnswer off s = (s.shadow.get (shadowIndex off).toFin, s.oracle) := by
  simp [readAnswer, h]

@[simp] theorem regRead_mode : regRead offMode s =
    .next (((s.setOracle s.oracle.nextMode.2).emit (.rd offMode s.oracle.nextMode.1)).setRet
      s.oracle.nextMode.1) := by
  simp [regRead_of_readable]

@[simp] theorem regRead_status : regRead offStatus s =
    .next (((s.setOracle s.oracle.nextStatus.2).emit (.rd offStatus s.oracle.nextStatus.1)).setRet
      s.oracle.nextStatus.1) := by
  simp [regRead_of_readable]

@[simp] theorem regRead_rdData : regRead offRdData s =
    .next (((s.setOracle s.oracle.nextRdData.2).emit (.rd offRdData s.oracle.nextRdData.1)).setRet
      s.oracle.nextRdData.1) := by
  simp [regRead_of_readable]

@[simp] theorem regRead_adr : regRead offAdr s =
    .next (((s.setOracle s.oracle.nextAdr.2).emit (.rd offAdr s.oracle.nextAdr.1)).setRet
      s.oracle.nextAdr.1) := by
  simp [regRead_of_readable]

theorem regRead_shadow {off : Word32} (h : isShadowOffset off = true) : regRead off s =
    .next ((s.emit (.rd off (s.shadow.get (shadowIndex off).toFin))).setRet
      (s.shadow.get (shadowIndex off).toFin)) := by
  rw [regRead_of_readable s (isReadableOffset_of_isShadowOffset h), readAnswer_shadow s h]
  rfl

/-! ### Writes -/

@[simp] theorem regWrite_adr (v : Word32) : regWrite offAdr v s = .next (s.noteAdr v) := by
  simp [regWrite, isWritableOffset, offAdr, offMode]

@[simp] theorem regWrite_mode (v : Word32) : regWrite offMode v s = modeWrite v s := by
  simp [regWrite, isWritableOffset]

theorem regWrite_of_not_writable {off : Word32} (h : isWritableOffset off = false) (v : Word32) :
    regWrite off v s = .refused .offsetUndefined := by
  simp [regWrite, h]

/-! ### Command words -/

/-- The words the pseudocode builds, under their names. -/
theorem command_words (c : Config) :
    c.mAread ||| c.mCmd = c.cwAread ∧ c.mMread ||| c.mCmd = c.cwMread ∧ c.mPrg ||| c.mCmd = c.cwProg ∧
    c.mPwrDn ||| c.mCmd = c.cwPwrdn := ⟨rfl, rfl, rfl, rfl⟩

theorem modeWrite_refresh {s : State} {c : Config} (hc : s.cfg = c) :
    modeWrite c.cwRefresh s = .next (refreshCommand (s.noteMode c.cwRefresh)) := by
  subst hc
  simp [modeWrite, applyCommand, decodeCommand_refresh]

theorem modeWrite_pwron {s : State} {c : Config} (hc : s.cfg = c) (h : c.wf = true) :
    modeWrite c.cwPwron s = .next ((s.noteMode c.cwPwron).setPowered true) := by
  subst hc
  simp [modeWrite, applyCommand, decodeCommand_pwron h]

theorem modeWrite_pwrdn {s : State} {c : Config} (hc : s.cfg = c) (h : c.wf = true) :
    modeWrite c.cwPwrdn s = .next ((s.noteMode c.cwPwrdn).setPowered false) := by
  subst hc
  simp [modeWrite, applyCommand, decodeCommand_pwrdn h]

theorem modeWrite_aread {s : State} {c : Config} (hc : s.cfg = c) (h : c.wf = true) :
    modeWrite c.cwAread s = readCommand (s.noteMode c.cwAread) := by
  subst hc
  simp [modeWrite, applyCommand, decodeCommand_aread h]

theorem modeWrite_mread {s : State} {c : Config} (hc : s.cfg = c) (h : c.wf = true) :
    modeWrite c.cwMread s = readCommand (s.noteMode c.cwMread) := by
  subst hc
  simp [modeWrite, applyCommand, decodeCommand_mread h]

theorem modeWrite_prog {s : State} {c : Config} (hc : s.cfg = c) (h : c.wf = true) :
    modeWrite c.cwProg s = programCommand (s.noteMode c.cwProg) := by
  subst hc
  simp [modeWrite, applyCommand, decodeCommand_prog h]

theorem readCommand_of_powered {s : State} {a : Word32} (hp : s.powered = some true) (ha : s.adrLast = some a)
    (hw : isPhysWord a = true) : readCommand s = .next s := by
  simp [readCommand, hp, ha, hw]

theorem programCommand_of_adr {s : State} {a : Word32} (ha : s.adrLast = some a) (hb : isPhysBit a = true) :
    programCommand s = .next (pulseAt a s) := by
  simp [programCommand, ha, hb]

/-- What a write to MODE can lead to: the event and `modeLast`, then one command's effect. -/
theorem modeWrite_next {v : Word32} {s t : State} (h : modeWrite v s = .next t) :
    t = refreshCommand (s.noteMode v) ∨ (∃ on, t = (s.noteMode v).setPowered on) ∨ t = s.noteMode v ∨
    ∃ a, s.adrLast = some a ∧ isPhysBit a = true ∧ t = pulseAt a (s.noteMode v) := by
  simp only [modeWrite, applyCommand] at h
  split at h
  · cases h
    exact .inl rfl
  · cases h
    exact .inr (.inl ⟨false, rfl⟩)
  · cases h
    exact .inr (.inl ⟨true, rfl⟩)
  · simp only [readCommand] at h
    split at h
    · cases h
    · split at h
      · split at h
        · cases h
          exact .inr (.inr (.inl rfl))
        · cases h
      · cases h
  · simp only [programCommand] at h
    split at h
    · rename_i a ha
      split at h
      · cases h
        exact .inr (.inr (.inr ⟨a, ha, ‹_›, rfl⟩))
      · cases h
    · cases h
  · cases h

end Sys2Proof.Machine
end

