-- ==== Sys2Proof/Laws/Sequencer.lean ====
section
/-! SUPPORT. How the sequencer runs: one primitive at a time, and how each primitive acts on a state whose control
state stands outermost, so that a run is computed by rewriting from left to right. -/

namespace Sys2Proof.Machine
open Sys2Proof Host

variable (s : State) (op : Instr) (phase : List Prim) (callers : List Frame)

/-! ### Outcomes -/

/-- Apply a change to the next state of an outcome. -/
def mapNext (f : State → State) : Outcome State Fault Refusal → Outcome State Fault Refusal
  | .next t => .next (f t)
  | .fault r => .fault r
  | .refused r => .refused r

@[simp] theorem mapNext_next (f : State → State) (t : State) : mapNext f (.next t) = .next (f t) := rfl
@[simp] theorem mapNext_fault (f : State → State) (r : Fault) : mapNext f (.fault r) = .fault r := rfl
@[simp] theorem mapNext_refused (f : State → State) (r : Refusal) : mapNext f (.refused r) = .refused r := rfl

/-! ### The control state moves outermost -/

section
variable (c : Ctl)

@[simp] theorem State.emit_setCtl (e : BusEvent) : (s.setCtl c).emit e = (s.emit e).setCtl c := rfl
@[simp] theorem State.setOracle_setCtl (o : Oracle) : (s.setCtl c).setOracle o = (s.setOracle o).setCtl c := rfl
@[simp] theorem State.setWork_setCtl (w : Work) : (s.setCtl c).setWork w = (s.setWork w).setCtl c := rfl
@[simp] theorem State.setRet_setCtl (v : Word32) : (s.setCtl c).setRet v = (s.setRet v).setCtl c := rfl
@[simp] theorem State.endOp_setCtl (r : OpResult) : (s.setCtl c).endOp r = s.endOp r := rfl
@[simp] theorem State.raiseError_setCtl (k : ErrorKind) (y : Reason) :
    (s.setCtl c).raiseError k y = s.raiseError k y := rfl
@[simp] theorem readAnswer_setCtl (off : Word32) : readAnswer off (s.setCtl c) = readAnswer off s := rfl
@[simp] theorem busRead_setCtl (off : Word32) :
    busRead off (s.setCtl c) = ((busRead off s).1, (busRead off s).2.setCtl c) := rfl
@[simp] theorem State.noteMode_setCtl (v : Word32) : (s.setCtl c).noteMode v = (s.noteMode v).setCtl c := rfl
@[simp] theorem State.noteAdr_setCtl (v : Word32) : (s.setCtl c).noteAdr v = (s.noteAdr v).setCtl c := rfl
@[simp] theorem State.setPowered_setCtl (b : Bool) : (s.setCtl c).setPowered b = (s.setPowered b).setCtl c := rfl
@[simp] theorem State.setClock_setCtl (b : Bool) : (s.setCtl c).setClock b = (s.setClock b).setCtl c := rfl
@[simp] theorem State.setMapped_setCtl (b : Bool) : (s.setCtl c).setMapped b = (s.setMapped b).setCtl c := rfl
@[simp] theorem State.noteAttempt_setCtl : (s.setCtl c).noteAttempt = s.noteAttempt.setCtl c := rfl
@[simp] theorem pulseAt_setCtl (a : Word32) : pulseAt a (s.setCtl c) = (pulseAt a s).setCtl c := rfl
@[simp] theorem clockEnable_setCtl : clockEnable (s.setCtl c) = (clockEnable s).setCtl c := rfl
@[simp] theorem pollRead_setCtl : pollRead (s.setCtl c) = (pollRead s).setCtl c := rfl
@[simp] theorem clockDisable_setCtl : clockDisable (s.setCtl c) = (clockDisable s).setCtl c := rfl
@[simp] theorem refreshCommand_setCtl : refreshCommand (s.setCtl c) = (refreshCommand s).setCtl c := rfl

@[simp] theorem readCommand_setCtl : readCommand (s.setCtl c) = mapNext (State.setCtl · c) (readCommand s) := by
  simp only [readCommand, State.setCtl_powered, State.setCtl_adrLast]
  by_cases h : s.powered = some true
  · rcases s.adrLast with _ | a
    · simp [h]
    · rcases ha : isPhysWord a <;> simp [h, ha]
  · simp [h]

@[simp] theorem programCommand_setCtl :
    programCommand (s.setCtl c) = mapNext (State.setCtl · c) (programCommand s) := by
  simp only [programCommand, State.setCtl_adrLast]
  split
  · split <;> rfl
  · rfl

@[simp] theorem applyCommand_setCtl (v : Word32) :
    applyCommand v (s.setCtl c) = mapNext (State.setCtl · c) (applyCommand v s) := by
  simp only [applyCommand, State.setCtl_cfg, State.setCtl_modeLast]
  split <;> simp

@[simp] theorem modeWrite_setCtl (v : Word32) :
    modeWrite v (s.setCtl c) = mapNext (State.setCtl · c) (modeWrite v s) :=
  applyCommand_setCtl (s.noteMode v) c v

@[simp] theorem regRead_setCtl (off : Word32) :
    regRead off (s.setCtl c) = mapNext (State.setCtl · c) (regRead off s) := by
  unfold regRead
  split <;> rfl

@[simp] theorem regWrite_setCtl (off v : Word32) :
    regWrite off v (s.setCtl c) = mapNext (State.setCtl · c) (regWrite off v s) := by
  unfold regWrite
  split
  · split
    · exact modeWrite_setCtl s c v
    · rfl
  · rfl

@[simp] theorem pulseWrite_setCtl :
    pulseWrite (s.setCtl c) = mapNext (State.setCtl · c) (pulseWrite s) := by
  simp only [pulseWrite, State.setCtl_cfg, modeWrite_setCtl]
  cases modeWrite s.cfg.cwProg s <;> rfl

end

/-! ### One step -/

theorem seqStep_setCtl_cons (p : Prim) :
    seqStep (s.setCtl (.run op (p :: phase) callers)) = runPrim p (s.setCtl (.run op phase callers)) := by
  cases callers <;> rfl

theorem seqStep_cons {s : State} {op : Instr} {p : Prim} {phase : List Prim} {callers : List Frame}
    (h : s.ctl = .run op (p :: phase) callers) : seqStep s = runPrim p (s.setCtl (.run op phase callers)) := by
  unfold seqStep
  rw [h]

theorem seqStep_return {s : State} {op : Instr} {f : Frame} {callers : List Frame}
    (h : s.ctl = .run op [] (f :: callers)) : seqStep s = .next (s.setCtl (.run f.op f.phase callers)) := by
  unfold seqStep
  rw [h]

theorem seqStep_end {s : State} {op : Instr} (h : s.ctl = .run op [] []) :
    seqStep s = .next (s.endOp (.ok (returnValue s op))) := by
  unfold seqStep
  rw [h]

theorem seqStep_idle {s : State} (h : s.ctl = .idle) : seqStep s = .next s := by
  unfold seqStep
  rw [h]

/-! ### WAIT_READY -/

theorem pollRead_eq : pollRead s = ((s.setOracle s.oracle.nextStatus.2).emit (.rd offStatus s.oracle.nextStatus.1)).setRet
    s.oracle.nextStatus.1 := by
  simp [pollRead, busRead]

theorem pollTest_ready {s : State} (h : isReadyWord s.cfg s.work.ret = true) : pollTest s = s := by
  simp [pollTest, isReady, h]

/-- The state after one more busy poll. -/
def busyPolled (s : State) : State := s.setWork { s.work with polls := s.work.polls + 1 }

@[simp] theorem busyPolled_setCtl (c : Ctl) : busyPolled (s.setCtl c) = (busyPolled s).setCtl c := rfl

theorem pollTest_busy {s : State} (h : isReadyWord s.cfg s.work.ret = false)
    (hl : pollLimitReached s (s.work.polls + 1) = false) : pollTest s = (busyPolled s).push [.poll, .pollTest] := by
  have hl' : pollLimitReached (busyPolled s) (s.work.polls + 1) = false := hl
  simp only [busyPolled] at hl'
  simp [pollTest, isReady, h, hl', busyPolled]

theorem pollTest_timeout {s : State} (h : isReadyWord s.cfg s.work.ret = false)
    (hl : pollLimitReached s (s.work.polls + 1) = true) :
    pollTest s = (busyPolled s).raiseError .errTimeout .readyTimeout := by
  have hl' : pollLimitReached (busyPolled s) (s.work.polls + 1) = true := hl
  simp only [busyPolled] at hl'
  simp [pollTest, isReady, h, hl', busyPolled]

/-! ### Rest -/

@[simp] theorem State.rests_endOp (r : OpResult) : (s.endOp r).rests = true := rfl

@[simp] theorem State.rests_raiseError (k : ErrorKind) (y : Reason) : (s.raiseError k y).rests = true := rfl

/-- No rest stands before a phase that does not begin with a poll. -/
theorem State.rests_setCtl_of_head {phase : List Prim} (h : phase.head? ≠ some .poll) :
    (s.setCtl (.run op phase callers)).rests = false := by
  rcases phase with _ | ⟨p, phase⟩
  · rfl
  · have hp : p ≠ .poll := fun e => h (by rw [e]; rfl)
    cases p <;> first | rfl | exact absurd rfl hp

/-- Nor before the first poll. -/
theorem State.rests_setCtl_of_polls (h : s.work.polls = 0) : (s.setCtl (.run op phase callers)).rests = false := by
  by_cases hp : phase.head? = some .poll
  · obtain ⟨rest, rfl⟩ : ∃ rest, phase = .poll :: rest := by
      cases phase with
      | nil => simp at hp
      | cons p rest => exact ⟨rest, by simpa using hp⟩
    show (false || decide (0 < s.work.polls)) = false
    simp [h]
  · exact s.rests_setCtl_of_head op callers hp

/-- A second poll is rested before. -/
theorem State.rests_setCtl_poll (h : s.work.polls ≠ 0) :
    (s.setCtl (.run op (.poll :: phase) callers)).rests = true := by
  show (false || decide (0 < s.work.polls)) = true
  simpa using Nat.pos_of_ne_zero h

/-- No operation begins with a poll. -/
theorem program_head (c : Config) (i : Instr) : (program c i).head? ≠ some .poll := by
  cases i <;> simp only [program, statusReadyProg, waitReadyProg, rdRegProg, wrRegProg, powerProg, refreshProg, initProg,
    teardownProg, writeWordProg, readShadowProg, readBufProg, ctrlReadProg, ctrlWriteProg, ctrlOtherProg,
    streamWriteProg, streamReadProg, setBitsProg, programBitProg, readPhysProg] <;> (repeat' split) <;> simp

/-! ### Runs -/

theorem drive_zero : drive 0 s = .next s := rfl

theorem drive_succ (n : Nat) : drive (n + 1) s =
    match seqStep s with
    | .next t => if t.rests then .next t else drive n t
    | .fault r => .fault r
    | .refused r => .refused r := rfl

/-- How a run goes on after an outcome of a primitive, with `n` primitives to go. -/
def follow (n : Nat) : Outcome State Fault Refusal → Outcome State Fault Refusal
  | .next t => if t.rests then .next t else drive n t
  | .fault r => .fault r
  | .refused r => .refused r

/-- A run of at least one primitive, the control state outermost. With `follow_go` and `follow_rest` it computes a
run from left to right. -/
theorem drive_cons (n : Nat) (p : Prim) : drive (n + 1) (s.setCtl (.run op (p :: phase) callers)) =
    follow n (runPrim p (s.setCtl (.run op phase callers))) := by
  rw [drive_succ, seqStep_setCtl_cons]
  rfl

/-- A frame with nothing left returns to its caller. -/
theorem drive_return (n : Nat) (f : Frame) : drive (n + 1) (s.setCtl (.run op [] (f :: callers))) =
    follow n (.next (s.setCtl (.run f.op f.phase callers))) := by
  rw [drive_succ, seqStep_return rfl]
  rfl

/-- The outermost frame with nothing left ends the operation. -/
theorem drive_end (n : Nat) : drive (n + 1) (s.setCtl (.run op [] [])) =
    .next (s.endOp (.ok (returnValue s op))) := by
  rw [drive_succ, seqStep_end rfl]
  cases op <;> rfl

theorem follow_go {n : Nat} {t : State} (h : t.rests = false) : follow n (.next t) = drive n t := by
  simp [follow, h]

theorem follow_rest {n : Nat} {t : State} (h : t.rests = true) : follow n (.next t) = .next t := by
  simp [follow, h]

@[simp] theorem follow_fault (n : Nat) (r : Fault) : follow n (.fault r) = .fault r := rfl
@[simp] theorem follow_refused (n : Nat) (r : Refusal) : follow n (.refused r) = .refused r := rfl

/-- A primitive after which the run goes on. -/
theorem drive_go {s t : State} {n : Nat} (h : seqStep s = .next t) (hr : t.rests = false) :
    drive (n + 1) s = drive n t := by
  rw [drive_succ, h]
  simp [hr]

/-- A primitive after which the run rests. -/
theorem drive_rest {s t : State} {n : Nat} (h : seqStep s = .next t) (hr : t.rests = true) :
    drive (n + 1) s = .next t := by
  rw [drive_succ, h]
  simp [hr]

theorem drive_fault {s : State} {n : Nat} {r : Fault} (h : seqStep s = .fault r) :
    drive (n + 1) s = .fault r := by
  rw [drive_succ, h]

theorem drive_refused {s : State} {n : Nat} {r : Refusal} (h : seqStep s = .refused r) :
    drive (n + 1) s = .refused r := by
  rw [drive_succ, h]

/-- What every sequencer step keeps, every run keeps. -/
theorem drive_keeps {P : State → Prop} (hstep : ∀ s t, P s → seqStep s = .next t → P t) {n : Nat} {s t : State}
    (hs : P s) (h : drive n s = .next t) : P t := by
  induction n generalizing s with
  | zero =>
    cases h
    exact hs
  | succ n ih =>
    rw [drive_succ] at h
    split at h
    · rename_i u hu
      split at h
      · cases h
        exact hstep s _ hs hu
      · exact ih (hstep s u hs hu) h
    · cases h
    · cases h

/-- What every sequencer step relates, every run relates. -/
theorem drive_relates {R : State → State → Prop} (hrefl : ∀ s, R s s)
    (htrans : ∀ s t u, R s t → R t u → R s u) (hstep : ∀ s t, seqStep s = .next t → R s t) {n : Nat}
    {s t : State} (h : drive n s = .next t) : R s t :=
  drive_keeps (P := R s) (fun a b ha hb => htrans s a b ha (hstep a b hb)) (hrefl s) h

end Sys2Proof.Machine
end

