-- ==== Sys2Proof/Laws/Step.lean ====
section
/-! SUPPORT. What a primitive, a tick, an instruction and a step can do, said once: the cases an invariant's proof
goes through. -/

namespace Sys2Proof.Machine
open Sys2Proof Host

/-! ### The fields no primitive touches -/

/-- The fields that only the top-level entries or nothing at all may change. -/
structure Fixed (s t : State) : Prop where
  cfg : t.cfg = s.cfg
  dirCmd : t.dirCmd = s.dirCmd
  oneWay : t.oneWay = s.oneWay
  caller : t.caller = s.caller
  port : t.port = s.port

theorem Fixed.refl (s : State) : Fixed s s := ⟨rfl, rfl, rfl, rfl, rfl⟩

theorem Fixed.trans {s t u : State} (h1 : Fixed s t) (h2 : Fixed t u) : Fixed s u :=
  ⟨h2.1.trans h1.1, h2.2.trans h1.2, h2.3.trans h1.3, h2.4.trans h1.4, h2.5.trans h1.5⟩

/-! ### What a primitive can do -/

/-- What one primitive can do, `s` being past it: the memory side of the machine changes only by a bus write, the
rest by the block's own bookkeeping. -/
inductive PrimEffect (s : State) : State → Prop where
  /-- Working registers and the oracle's known answers. -/
  | work (w : Work) : PrimEffect s (s.setWork w)
  | oracle (o : Oracle) : PrimEffect s (s.setOracle o)
  /-- The operation goes on with other primitives. -/
  | push (w : Work) (qs : List Prim) : PrimEffect s ((s.setWork w).push qs)
  /-- An operation is called. -/
  | enter (i : Instr) (ps : List Prim) : PrimEffect s (s.enter i ps)
  /-- A register is read: an event, the answers left, and what the block keeps of the answer. -/
  | read (off v : Word32) (o : Oracle) (w : Work) (h : isReadableOffset off = true) :
      PrimEffect s (((s.setOracle o).emit (.rd off v)).setWork w)
  /-- A word is written to ADR. -/
  | adr (v : Word32) : PrimEffect s (s.noteAdr v)
  /-- A word is written to MODE, with an entry in `attemptLog` when PROGRAM_BIT writes it. -/
  | mode (v : Word32) (t : State) (h : modeWrite v s = .next t) : PrimEffect s t
  | pulse (t : State) (h : modeWrite s.cfg.cwProg s = .next t) : PrimEffect s t.noteAttempt
  /-- The clock gate. -/
  | clockOn (o : Oracle) (ok : Bool) : PrimEffect s (((s.setOracle o).emit (.clkOn ok)).setClock ok)
  | clockOff : PrimEffect s ((s.emit .clkOff).setClock false)
  /-- The window is mapped or unmapped. -/
  | mapping (o : Oracle) (b : Bool) : PrimEffect s ((s.setOracle o).setMapped b)
  /-- The operation ends in an error. -/
  | ends (o : Oracle) (w : Work) (r : OpResult) : PrimEffect s (((s.setOracle o).setWork w).endOp r)

theorem PrimEffect.same (s : State) : PrimEffect s s := PrimEffect.oracle s.oracle

theorem PrimEffect.ended (s : State) (r : OpResult) : PrimEffect s (s.endOp r) := PrimEffect.ends s.oracle s.work r

theorem pollTest_effect (s : State) : PrimEffect s (pollTest s) := by
  rcases h : isReadyWord s.cfg s.work.ret
  · rcases hl : pollLimitReached s (s.work.polls + 1)
    · rw [pollTest_busy h hl]
      exact .push { s.work with polls := s.work.polls + 1 } _
    · rw [pollTest_timeout h hl]
      exact .ends s.oracle { s.work with polls := s.work.polls + 1 } _
  · rw [pollTest_ready h]
    exact .same s

/-- Every primitive's next state is one of these effects. -/
theorem runPrim_effect {p : Prim} {s t : State} (h : runPrim p s = .next t) : PrimEffect s t := by
  cases p with
  | regRead off =>
    simp only [runPrim] at h
    unfold regRead at h
    split at h
    · cases h
      exact .read off _ _ _ ‹_›
    · cases h
  | regWrite off v =>
    simp only [runPrim] at h
    unfold regWrite at h
    split at h
    · split at h
      · exact .mode v t h
      · cases h
        exact .adr v
    · cases h
  | pulseWrite =>
    simp only [runPrim, pulseWrite] at h
    split at h
    · cases h
      exact .pulse _ ‹_›
    · cases h
    · cases h
  | clockEnable => cases h; exact .clockOn _ _
  | clockDisable => cases h; exact .clockOff
  | call op => cases h; exact .enter _ _
  | callWriteOr off mask => cases h; exact .enter _ _
  | callPulse => cases h; exact .enter _ _
  | raise kind why => cases h; exact .ended s _
  | refuse why => cases h
  | pollInit => cases h; exact .work _
  | poll =>
    cases h
    rw [pollRead_eq]
    exact .read offStatus _ _ { s.work with ret := s.oracle.nextStatus.1 } rfl
  | pollTest => cases h; exact pollTest_effect s
  | statusAnswer v => cases h; exact .oracle _
  | checkAddr addr =>
    cases h
    unfold checkAddr
    split
    · split
      · exact .same s
      · exact .ended s _
    · exact .ended s _
  | checkClock =>
    cases h
    unfold checkClock
    split
    · exact .same s
    · exact .ended s _
  | copyIn =>
    cases h
    unfold copyInStep
    dsimp only
    split
    · exact .oracle _
    · exact .ends s.oracle.nextCopyIn.2 s.work (.error .errFault .userCopy)
  | copyOut =>
    cases h
    unfold copyOutStep
    dsimp only
    split
    · exact .oracle _
    · exact .ends s.oracle.nextCopyOut.2 s.work (.error .errFault .userCopy)
  | writeGuard =>
    cases h
    unfold writeGuardStep
    split
    · exact .same s
    · exact .ended s _
  | mapWindow =>
    cases h
    unfold mapStep
    dsimp only
    split
    · exact .mapping _ true
    · exact .ends s.oracle.nextMapping.2 s.work (.error .errResource .mapFailed)
  | unmapWindow => cases h; exact .mapping s.oracle false
  | bufInit k => cases h; exact .work _
  | bufLoop a k => cases h; exact .push s.work _
  | bufStore a k => cases h; exact .work _
  | bufSlice off k => cases h; exact .work _
  | setCur => cases h; exact .work _
  | setM => cases h; exact .work _
  | wwEntry vw value => cases h; exact .push _ _
  | wwAread vw value => cases h; exact .push s.work _
  | wwMask vw value => cases h; exact .push _ _
  | wwPulse vw value =>
    cases h
    unfold wwPulseStep
    split
    · exact .push s.work _
    · split <;> exact .push s.work _
  | wwNextBit vw value => cases h; exact .push _ _
  | wwMread vw value => cases h; exact .push s.work _
  | wwCheck vw value =>
    cases h
    unfold wwCheckStep
    split <;> exact .push _ _
  | wwRefresh => cases h; exact .push s.work _
  | wwResult =>
    cases h
    unfold wwResultStep
    split
    · exact .ended s _
    · exact .same s

theorem modeWrite_fixed {v : Word32} {s t : State} (h : modeWrite v s = .next t) : Fixed s t := by
  rcases modeWrite_next h with rfl | ⟨on, rfl⟩ | rfl | ⟨a, -, -, rfl⟩ <;> constructor <;> simp

/-- Putting primitives before the phase changes the control state alone. -/
theorem State.push_eq (s : State) (qs : List Prim) : ∃ c, s.push qs = s.setCtl c := by
  unfold State.push
  split
  · exact ⟨_, rfl⟩
  · exact ⟨s.ctl, rfl⟩

/-- A call changes the control state alone. -/
theorem State.enter_eq (s : State) (i : Instr) (ps : List Prim) : ∃ c, s.enter i ps = s.setCtl c := by
  unfold State.enter
  split
  · exact ⟨_, rfl⟩
  · exact ⟨s.ctl, rfl⟩

/-- No primitive changes the configuration, DIR_CMD, ONE_WAY, the caller or the port. -/
theorem PrimEffect.fixed {s t : State} (h : PrimEffect s t) : Fixed s t := by
  cases h with
  | push w qs =>
    obtain ⟨c, e⟩ := (s.setWork w).push_eq qs
    rw [e]
    exact ⟨rfl, rfl, rfl, rfl, rfl⟩
  | enter i ps =>
    obtain ⟨c, e⟩ := s.enter_eq i ps
    rw [e]
    exact ⟨rfl, rfl, rfl, rfl, rfl⟩
  | mode v t h => exact modeWrite_fixed h
  | pulse t h => exact (modeWrite_fixed h).trans ⟨rfl, rfl, rfl, rfl, rfl⟩
  | _ => exact ⟨rfl, rfl, rfl, rfl, rfl⟩

/-- What a step of the sequencer can do: Idle stays, a frame returns to its caller, the outermost one ends the
operation, or one primitive runs. -/
inductive SeqStepped (s t : State) : Prop where
  | idle (h : s.ctl = .idle) (e : t = s)
  | returns (op : Instr) (f : Frame) (callers : List Frame) (h : s.ctl = .run op [] (f :: callers))
      (e : t = s.setCtl (.run f.op f.phase callers))
  | ends (op : Instr) (h : s.ctl = .run op [] []) (e : t = s.endOp (.ok (returnValue s op)))
  | prim (op : Instr) (p : Prim) (phase : List Prim) (callers : List Frame)
      (h : s.ctl = .run op (p :: phase) callers) (e : runPrim p (s.setCtl (.run op phase callers)) = .next t)

theorem seqStep_next {s t : State} (h : seqStep s = .next t) : SeqStepped s t := by
  rcases hc : s.ctl with _ | ⟨op, _ | ⟨p, phase⟩, callers⟩
  · rw [seqStep_idle hc] at h
    cases h
    exact .idle hc rfl
  · rcases callers with _ | ⟨f, callers⟩
    · rw [seqStep_end hc] at h
      cases h
      exact .ends op hc rfl
    · rw [seqStep_return hc] at h
      cases h
      exact .returns op f callers hc rfl
  · rw [seqStep_cons hc] at h
    exact .prim op p phase callers hc h

/-- What a step of the sequencer does besides moving the phase. -/
theorem seqStep_effect {s t : State} (h : seqStep s = .next t) : ∃ c, PrimEffect (s.setCtl c) t := by
  cases seqStep_next h with
  | idle h e =>
    subst e
    exact ⟨_, .same t⟩
  | returns op f callers h e =>
    subst e
    exact ⟨_, .same _⟩
  | ends op h e =>
    subst e
    exact ⟨s.ctl, .ended s _⟩
  | prim op p phase callers h e => exact ⟨_, runPrim_effect e⟩

/-! ### What a request can do -/

/-- What becomes of a request: it waits at the port, it is the translator's, it ends for want of a mapping, it takes
the free lock and begins, or it is refused. -/
inductive Admitted (i : Instr) (s : State) : Admission → Prop where
  | waits (q : RequesterId) (h : s.owner = some q) : Admitted i s (.settled (s.wait i))
  | answers (v : Value) : Admitted i s (.settled (s.answer v))
  | unmapped (h : s.owner = none) : Admitted i s (.settled (s.acquire.raiseError .errResource .unmapped))
  | begins (h : s.owner = none) : Admitted i s (.begins (s.begin i))
  | refused (why : Refusal) : Admitted i s (.refused why)

theorem Admitted.of_mapped (i : Instr) (s : State) : Admitted i s (admitMapped i s) := by
  unfold admitMapped
  rcases ho : s.owner with _ | q
  · rw [if_neg (by simp)]
    split
    · exact .begins ho
    · exact .unmapped ho
  · exact .waits q ho

theorem Admitted.of_primitive (i : Instr) (s : State) : Admitted i s (admitPrimitive i s) := by
  unfold admitPrimitive
  rcases ho : s.owner with _ | q
  · rw [if_neg (by simp)]
    split
    · exact .begins ho
    · exact .refused _
  · exact .waits q ho

theorem Admitted.of_init (i : Instr) (s : State) : Admitted i s (admitInit i s) := by
  unfold admitInit
  rcases ho : s.owner with _ | q
  · rw [if_neg (by simp)]
    split
    · exact .refused _
    · exact .begins ho
  · exact .waits q ho

theorem Admitted.of_teardown (i : Instr) (s : State) : Admitted i s (admitTeardown i s) := by
  unfold admitTeardown
  rcases ho : s.owner with _ | q
  · rw [if_neg (by simp)]
    split
    · exact .begins ho
    · exact .refused _
  · exact .waits q ho

theorem Admitted.of_row (r : Word32) (i : Instr) (s : State) : Admitted i s (admitRow r i s) := by
  unfold admitRow
  split
  · exact .answers _
  · exact .refused _

theorem admit_cases (i : Instr) (s : State) : Admitted i s (admitRequest i s) := by
  cases i <;> first
    | exact .of_mapped _ s
    | exact .of_primitive _ s
    | exact .of_init _ s
    | exact .of_teardown _ s
    | exact .of_row _ _ s
    | exact .answers _

/-- What an instruction does is what becomes of its admission. -/
theorem exec_eq_admit (i : Instr) (s : State) : exec i s = (admitRequest i s).run := by
  cases i <;> rfl

/-- How an instruction answers a next state. -/
inductive Entry (i : Instr) (s t : State) : Prop where
  | waits (q : RequesterId) (h : s.owner = some q) (e : t = s.wait i)
  | answers (v : Value) (e : t = s.answer v)
  | unmapped (h : s.owner = none) (e : t = s.acquire.raiseError .errResource .unmapped)
  | runs (h : s.owner = none) (e : resume (s.begin i) = .next t)

theorem exec_next {i : Instr} {s t : State} (h : exec i s = .next t) : Entry i s t := by
  rw [exec_eq_admit] at h
  have ha := admit_cases i s
  generalize admitRequest i s = a at h ha
  cases ha with
  | waits q ho => cases h; exact .waits q ho rfl
  | answers v => cases h; exact .answers v rfl
  | unmapped ho => cases h; exact .unmapped ho rfl
  | begins ho => exact .runs ho h
  | refused why => cases h

/-! ### What a step and a tick can do -/

/-- What the port gives: the only request, or one of several after the scheduler's draw; the others stay in order. -/
theorem takeRequest_some {s u : State} {i : Instr} (h : takeRequest s = some (i, u)) :
    ∃ (before after : List (RequesterId × Instr)) (q : RequesterId) (o : Oracle),
      s.port = before ++ (q, i) :: after ∧
      u = { s with caller := q, port := before ++ after, oracle := o } := by
  unfold takeRequest at h
  split at h
  · cases h
  · rename_i q i' hp
    cases h
    exact ⟨[], [], q, s.oracle, hp, rfl⟩
  · rename_i q i' e rest hp
    rcases hn : s.oracle.nextSched with ⟨n, o⟩
    simp only [hn] at h
    generalize hl : (q, i') :: e :: rest = l at h hp
    have hlen : rest.length + 2 = l.length := by simp [← hl]
    rw [hlen] at h
    have hk : n % l.length < l.length := Nat.mod_lt _ (by omega)
    rw [List.getD_eq_getElem _ _ hk] at h
    rcases hg : l[n % l.length] with ⟨q', j⟩
    simp only [hg, Option.some.injEq, Prod.mk.injEq] at h
    obtain ⟨rfl, rfl⟩ := h
    refine ⟨l.take (n % l.length), l.drop (n % l.length + 1), q', o, ?_, ?_⟩
    · rw [hp, ← hg, List.getElem_cons_drop, List.take_append_drop]
    · rw [List.eraseIdx_eq_take_drop_succ]

/-- How a step answers a next state: the operation in progress goes on, a request is run, or the block stays Idle. -/
inductive Stepped (s t : State) : Prop where
  | resumes (h : s.isIdle = false) (e : resume s = .next t)
  | serves (h : s.ctl = .idle) (i : Instr) (q : RequesterId) (port : List (RequesterId × Instr)) (o : Oracle)
      (e : exec i { s with caller := q, port := port, oracle := o } = .next t)
  | stays (h : s.ctl = .idle) (e : t = s)

theorem step_next {s t : State} (h : step s = .next t) : Stepped s t := by
  rcases hc : s.ctl with _ | ⟨op, phase, callers⟩
  · simp only [step, hc] at h
    split at h
    · rename_i i u hu
      obtain ⟨before, after, q, o, -, rfl⟩ := takeRequest_some hu
      exact .serves hc i q _ o h
    · cases h
      exact .stays hc rfl
  · exact .resumes (by simp [State.isIdle, hc]) (by simpa [step, hc] using h)

/-- How a tick answers a next state: a step of the sequencer, a request admitted, or nothing. -/
inductive Ticked (s t : State) : Prop where
  | seq (h : s.isIdle = false) (e : seqStep s = .next t)
  | serves (h : s.ctl = .idle) (i : Instr) (q : RequesterId) (port : List (RequesterId × Instr)) (o : Oracle)
      (e : (admitRequest i { s with caller := q, port := port, oracle := o }).start = .next t)
  | stays (h : s.ctl = .idle) (e : t = s)

theorem tick_next {s t : State} (h : tick s = .next t) : Ticked s t := by
  rcases hc : s.ctl with _ | ⟨op, phase, callers⟩
  · simp only [tick, hc] at h
    split at h
    · rename_i i u hu
      obtain ⟨before, after, q, o, -, rfl⟩ := takeRequest_some hu
      exact .serves hc i q _ o h
    · cases h
      exact .stays hc rfl
  · exact .seq (by simp [State.isIdle, hc]) (by simpa [tick, hc] using h)

/-! ### Invariants -/

/-- A relation that every primitive, every move of the control state, and what stands around an operation meet. -/
structure StepRelation (R : State → State → Prop) : Prop where
  trans : ∀ s t u, R s t → R t u → R s u
  prim : ∀ s t, PrimEffect s t → R s t
  ctl : ∀ s c, R s (State.setCtl s c)
  waits : ∀ s i, R s (State.wait s i)
  answers : ∀ s v, R s (State.answer s v)
  acquires : ∀ s, R s (State.acquire s)
  takes : ∀ (s : State) q port o, R s { s with caller := q, port := port, oracle := o }

variable {R : State → State → Prop} {s t : State}

theorem StepRelation.refl (h : StepRelation R) (s : State) : R s s := h.prim s s (.same s)

theorem StepRelation.seq (h : StepRelation R) (s t : State) (e : seqStep s = .next t) : R s t := by
  obtain ⟨c, e⟩ := seqStep_effect e
  exact h.trans _ _ _ (h.ctl s c) (h.prim _ _ e)

theorem StepRelation.begins (h : StepRelation R) (s : State) (i : Instr) : R s (s.begin i) :=
  h.trans _ _ _ (h.acquires s) (h.ctl _ _)

theorem StepRelation.ends (h : StepRelation R) (s : State) (r : OpResult) : R s (s.acquire.endOp r) :=
  h.trans _ _ _ (h.acquires s) (h.prim _ _ (.ended _ r))

theorem StepRelation.exec (h : StepRelation R) {i : Instr} (e : exec i s = .next t) : R s t := by
  cases exec_next e with
  | waits q _ e => exact e ▸ h.waits s i
  | answers v e => exact e ▸ h.answers s v
  | unmapped _ e => exact e ▸ h.ends s _
  | runs _ e => exact h.trans _ _ _ (h.begins s i) (drive_relates h.refl h.trans h.seq e)

theorem StepRelation.step (h : StepRelation R) (e : step s = .next t) : R s t := by
  cases step_next e with
  | resumes _ e => exact drive_relates h.refl h.trans h.seq e
  | serves _ i q port o e => exact h.trans _ _ _ (h.takes s q port o) (h.exec e)
  | stays _ e => exact e ▸ h.refl s

theorem StepRelation.tick (h : StepRelation R) (e : tick s = .next t) : R s t := by
  cases tick_next e with
  | seq _ e => exact h.seq _ _ e
  | serves _ i q port o e =>
    refine h.trans _ _ _ (h.takes s q port o) ?_
    have ha := admit_cases i { s with caller := q, port := port, oracle := o }
    generalize admitRequest i { s with caller := q, port := port, oracle := o } = a at e ha
    cases ha with
    | waits q ho => cases e; exact h.waits _ _
    | answers v => cases e; exact h.answers _ _
    | unmapped ho => cases e; exact h.ends _ _
    | begins ho => cases e; exact h.begins _ _
    | refused why => cases e
  | stays _ e => exact e ▸ h.refl s

end Sys2Proof.Machine
end

