-- ==== Sys2Proof/Laws/Budget.lean ====
section
/-! SUPPORT. How many steps of the sequencer an operation still takes before its end or its next hold: a measure that
every step of the sequencer lowers, but for the one that ends in a hold. -/

namespace Sys2Proof.Machine
open Sys2Proof Host

/-! ### The measure -/

/-- More than any operation takes: what the pseudocode does not call. -/
def tooMany : Nat := 3000

/-- Steps of `call op` until its frame has returned, for the operations the pseudocode calls. -/
def callCost : Instr → Nat
  | .cwAread => tooMany
  | .cwMread => tooMany
  | .cwProg => tooMany
  | .cwPwron => tooMany
  | .cwPwrdn => tooMany
  | .cwRefresh => tooMany
  | .cwUndefined _ => tooMany
  | .adrProg _ _ _ => tooMany
  | .adrRead _ _ => tooMany
  | .statusReady _ => tooMany
  | .streamWritePayload _ _ => tooMany
  | .rdmodeArray _ => tooMany
  | .rdmodeMargin _ => tooMany
  | .rdReg _ => 3
  | .wrReg _ _ => 3
  | .setBits _ _ => 6
  | .waitReady => 5
  | .power _ => 8
  | .refresh => 5
  | .init => tooMany
  | .teardown => tooMany
  | .compose _ _ _ => tooMany
  | .physWord _ _ => tooMany
  | .wordIndex _ => tooMany
  | .programBit _ _ _ => 13
  | .readPhys _ _ => 29
  | .writeWord _ _ => 1100
  | .readShadow _ => 9
  | .readBuf _ => 710
  | .hCtrlRead _ => tooMany
  | .hCtrlWrite _ _ => tooMany
  | .hCtrlOther _ => tooMany
  | .hStreamWrite _ => tooMany
  | .hStreamRead _ _ => tooMany
  | .hWrite32 _ _ => tooMany

/-- Steps of row `j` from WW_CHECK on, and of the rows after it. -/
def checkCost (j : BitVec 1) : Nat := if j = 0 then 553 else 8

/-- Steps of row `j` from WW_MREAD on, and of the rows after it. -/
def mreadCost (j : BitVec 1) : Nat := 31 + checkCost j

/-- Steps from WW_PULSE at bit `i` of row `j` on. -/
def pulseCost (j : BitVec 1) (i : Nat) : Nat := if i ≤ 32 then 15 * (32 - i) + 1 + mreadCost j else tooMany

/-- Steps a primitive leads to, itself among them, at row `j` and bit `i`. -/
def cost (j : BitVec 1) (i : Nat) : Prim → Nat
  | .regRead _ => 1
  | .regWrite _ _ => 1
  | .pulseWrite => 1
  | .clockEnable => 1
  | .clockDisable => 1
  | .call op => callCost op
  | .callWriteOr _ _ => 3
  | .callPulse => 3
  | .raise _ _ => 1
  | .refuse _ => 1
  | .pollInit => 1
  | .poll => 1
  | .pollTest => 1
  | .statusAnswer _ => 1
  | .checkAddr _ => 1
  | .checkClock => 1
  | .copyIn => 1
  | .copyOut => 1
  | .writeGuard => 1
  | .mapWindow => 1
  | .unmapWindow => 1
  | .bufInit _ => 1
  | .bufLoop a k => 1 + 11 * ((k - a + 3) / 4)
  | .bufStore _ _ => 1
  | .bufSlice _ _ => 1
  | .setCur => 1
  | .setM => 1
  | .wwEntry _ _ => 1098
  | .wwAread _ _ => 32 + pulseCost j 0
  | .wwMask _ _ => 1 + pulseCost j 0
  | .wwPulse _ _ => pulseCost j i
  | .wwNextBit _ _ => 1 + pulseCost j (i + 1)
  | .wwMread _ _ => mreadCost j
  | .wwCheck _ _ => checkCost j
  | .wwRefresh => 7
  | .wwResult => 1

/-- Steps a phase leads to. -/
def costs (j : BitVec 1) (i : Nat) (ps : List Prim) : Nat := (ps.map (cost j i)).sum

/-- The primitive is a state of the program-verify machine, or leads to one. -/
def isWordState : Prim → Bool
  | .call (.writeWord _ _) => true
  | .wwEntry _ _ | .wwAread _ _ | .wwMask _ _ | .wwPulse _ _ | .wwNextBit _ _ | .wwMread _ _ | .wwCheck _ _ => true
  | _ => false

/-- Returns still to come. -/
def State.depth (s : State) : Nat :=
  match s.ctl with
  | .idle => 0
  | .run _ _ callers => callers.length

/-- Steps still to come before the end or the next hold, if no wait finds BUSY set. -/
def State.toGo (s : State) : Nat := costs s.work.j s.work.i s.remaining + s.depth

/-- A wait has read STATUS and not tested it. -/
def State.tested (s : State) : Nat := if s.nextPrim = some .pollTest then 1 else 0

/-- One program-verify machine at most is under way. -/
def State.oneWord (s : State) : Prop := s.remaining.countP isWordState ≤ 1

@[simp] theorem costs_nil (j : BitVec 1) (i : Nat) : costs j i [] = 0 := rfl
@[simp] theorem costs_cons (j : BitVec 1) (i : Nat) (p : Prim) (ps : List Prim) :
    costs j i (p :: ps) = cost j i p + costs j i ps := by simp [costs]
@[simp] theorem costs_append (j : BitVec 1) (i : Nat) (ps qs : List Prim) :
    costs j i (ps ++ qs) = costs j i ps + costs j i qs := by simp [costs]

theorem cost_of_not_wordState {p : Prim} (h : isWordState p = false) (j j' : BitVec 1) (i i' : Nat) :
    cost j i p = cost j' i' p := by
  cases p <;> first | rfl | cases h

theorem costs_of_no_wordState {ps : List Prim} (h : ps.countP isWordState = 0) (j j' : BitVec 1) (i i' : Nat) :
    costs j i ps = costs j' i' ps := by
  induction ps with
  | nil => rfl
  | cons p ps ih =>
    rw [List.countP_cons] at h
    have hp : isWordState p = false := by
      rcases hb : isWordState p
      · rfl
      · simp [hb] at h
    rw [costs_cons, costs_cons, cost_of_not_wordState hp j j' i i', ih (by omega)]

/-! ### What a primitive does to the measure -/

/-- The primitives a primitive puts before the rest, and the frame it opens. -/
structure Pushed (p : Prim) (s t : State) (qs : List Prim) (n : Nat) : Prop where
  remaining : t.remaining = qs ++ s.remaining
  depth : t.depth = s.depth + n
  words : qs.countP isWordState ≤ if isWordState p then 1 else 0
  same : isWordState p = false → t.work.j = s.work.j ∧ t.work.i = s.work.i
  lower : costs t.work.j t.work.i qs + n < cost s.work.j s.work.i p ∨
    p = .pollTest ∧ t.held = true ∧ qs = [.poll, .pollTest] ∧ n = 0

theorem mreadCost_pos (j : BitVec 1) : 0 < mreadCost j := by
  unfold mreadCost
  omega

theorem pulseCost_pos (j : BitVec 1) (i : Nat) : 0 < pulseCost j i := by
  unfold pulseCost tooMany
  split <;> omega

theorem callCost_pos (op : Instr) : 0 < callCost op := by
  cases op <;> simp [callCost, tooMany]

theorem cost_pos (p : Prim) (j : BitVec 1) (i : Nat) : 0 < cost j i p := by
  cases p <;> simp only [cost]
  case wwCheck => unfold checkCost; split <;> omega
  case call op => exact callCost_pos op
  case wwPulse => exact pulseCost_pos j i
  case wwMread => exact mreadCost_pos j
  all_goals simp

variable {op : Instr} {phase : List Prim} {callers : List Frame}

theorem Pushed.of_same {p : Prim} {s t : State} (hc : t.ctl = s.ctl) (hj : t.work.j = s.work.j)
    (hi : t.work.i = s.work.i) : Pushed p s t [] 0 :=
  ⟨by simp [State.remaining, hc], by simp [State.depth, hc], by simp, fun _ => ⟨hj, hi⟩,
    .inl (by simpa using cost_pos p _ _)⟩

theorem Pushed.of_push {p : Prim} {s : State} (hc : s.ctl = .run op phase callers) {w : Work} {qs : List Prim}
    (hw : qs.countP isWordState ≤ if isWordState p then 1 else 0)
    (hs : isWordState p = false → w.j = s.work.j ∧ w.i = s.work.i)
    (hl : costs w.j w.i qs < cost s.work.j s.work.i p) :
    Pushed p s ((s.setWork w).push qs) qs 0 := by
  constructor
  · simp [State.push, State.setWork, State.remaining, hc]
  · simp [State.push, State.setWork, State.depth, hc]
  · exact hw
  · simpa [State.push, State.setWork, hc] using hs
  · exact .inl (by simpa [State.push, State.setWork, hc] using hl)

theorem Pushed.of_enter {p : Prim} {s : State} (hc : s.ctl = .run op phase callers) {i : Instr} {ps : List Prim}
    (hw : ps.countP isWordState ≤ if isWordState p then 1 else 0)
    (hl : costs s.work.j s.work.i ps + 1 < cost s.work.j s.work.i p) :
    Pushed p s (s.enter i ps) ps 1 := by
  constructor
  · simp [State.enter, State.remaining, hc]
  · simp [State.enter, State.depth, hc]
  · exact hw
  · simp [State.enter, hc]
  · exact .inl (by simpa [State.enter, hc] using hl)

theorem modeWrite_pushed {p : Prim} {v : Word32} {s t : State} (h : modeWrite v s = .next t) : Pushed p s t [] 0 := by
  rcases modeWrite_next h with rfl | ⟨on, rfl⟩ | rfl | ⟨a, -, -, rfl⟩ <;> exact .of_same (by simp) (by simp) (by simp)

/-- The program of a called operation costs two steps less than its call. -/
theorem program_cost (c : Config) (i : Instr) (j : BitVec 1) (k : Nat) (h : callCost i ≤ 2000) :
    costs j k (program c i) + 1 < callCost i ∧
    (program c i).countP isWordState ≤ if isWordState (.call i) then 1 else 0 := by
  cases i <;> first | (simp [callCost, tooMany] at h; done) | skip
  case setBits off mask =>
    simp only [program, setBitsProg]
    split <;> simp [cost, callCost, isWordState]
  case programBit w b r =>
    simp only [program, programBitProg]
    split <;> simp [cost, callCost, isWordState]
  case readPhys pw mode =>
    simp only [program, readPhysProg]
    split
    · simp [cost, callCost, isWordState]
    · split <;> simp [cost, callCost, isWordState]
  case readBuf n =>
    simp only [program, readBufProg]
    have : min n vsize ≤ 256 := Nat.min_le_right _ _
    simp [cost, callCost, isWordState]
    omega
  all_goals
    simp [program, rdRegProg, wrRegProg, waitReadyProg, powerProg, refreshProg, readShadowProg, writeWordProg, cost,
      callCost, isWordState]


/-- An error ends the operation; every other primitive puts primitives before the rest or opens a frame. -/
theorem runPrim_pushed {p : Prim} {s t : State} (hc : s.ctl = .run op phase callers)
    (hb : cost s.work.j s.work.i p ≤ 2000) (h : runPrim p s = .next t) : t.ctl = .idle ∨ ∃ qs n, Pushed p s t qs n := by
  cases p with
  | regRead off =>
    simp only [runPrim] at h
    unfold regRead at h
    split at h
    · cases h
      exact .inr ⟨_, _, .of_same rfl rfl rfl⟩
    · cases h
  | regWrite off v =>
    simp only [runPrim] at h
    unfold regWrite at h
    split at h
    · split at h
      · exact .inr ⟨_, _, modeWrite_pushed h⟩
      · cases h
        exact .inr ⟨_, _, .of_same rfl rfl rfl⟩
    · cases h
  | pulseWrite =>
    simp only [runPrim, pulseWrite] at h
    split at h
    · rename_i u hu
      cases h
      rcases modeWrite_next hu with rfl | ⟨on, rfl⟩ | rfl | ⟨a, -, -, rfl⟩ <;>
        exact .inr ⟨_, _, .of_same (by simp) (by simp) (by simp)⟩
    · cases h
    · cases h
  | clockEnable => cases h; exact .inr ⟨_, _, .of_same rfl rfl rfl⟩
  | clockDisable => cases h; exact .inr ⟨_, _, .of_same rfl rfl rfl⟩
  | call i =>
    cases h
    obtain ⟨h1, h2⟩ := program_cost s.cfg i s.work.j s.work.i hb
    exact .inr ⟨_, _, .of_enter hc h2 h1⟩
  | callWriteOr off mask =>
    cases h
    exact .inr ⟨_, _, .of_enter hc (by simp [wrRegProg, isWordState]) (by simp [wrRegProg, cost])⟩
  | callPulse => cases h; exact .inr ⟨_, _, .of_enter hc (by simp [isWordState]) (by simp [cost])⟩
  | raise kind why => cases h; exact .inl rfl
  | refuse why => cases h
  | pollInit => cases h; exact .inr ⟨_, _, .of_same rfl rfl rfl⟩
  | poll => cases h; exact .inr ⟨_, _, .of_same rfl rfl rfl⟩
  | pollTest =>
    cases h
    rcases hr : isReadyWord s.cfg s.work.ret
    · rcases hl : pollLimitReached s (s.work.polls + 1)
      · rw [pollTest_busy hr hl]
        refine .inr ⟨[.poll, .pollTest], 0, ⟨?_, ?_, by simp [isWordState], fun _ => ?_, .inr ⟨rfl, ?_, rfl, rfl⟩⟩⟩ <;>
          simp [State.push, State.setWork, State.remaining, State.depth, State.held, busyPolled, hc]
      · rw [pollTest_timeout hr hl]
        exact .inl rfl
    · rw [pollTest_ready hr]
      exact .inr ⟨_, _, .of_same rfl rfl rfl⟩
  | statusAnswer v => cases h; exact .inr ⟨_, _, .of_same rfl rfl rfl⟩
  | checkAddr addr =>
    cases h
    unfold checkAddr
    split
    · split
      · exact .inr ⟨_, _, .of_same rfl rfl rfl⟩
      · exact .inl rfl
    · exact .inl rfl
  | checkClock =>
    cases h
    unfold checkClock
    split
    · exact .inr ⟨_, _, .of_same rfl rfl rfl⟩
    · exact .inl rfl
  | copyIn =>
    cases h
    unfold copyInStep
    dsimp only
    split
    · exact .inr ⟨_, _, .of_same rfl rfl rfl⟩
    · exact .inl rfl
  | copyOut =>
    cases h
    unfold copyOutStep
    dsimp only
    split
    · exact .inr ⟨_, _, .of_same rfl rfl rfl⟩
    · exact .inl rfl
  | writeGuard =>
    cases h
    unfold writeGuardStep
    split
    · exact .inr ⟨_, _, .of_same rfl rfl rfl⟩
    · exact .inl rfl
  | mapWindow =>
    cases h
    unfold mapStep
    dsimp only
    split
    · exact .inr ⟨_, _, .of_same rfl rfl rfl⟩
    · exact .inl rfl
  | unmapWindow => cases h; exact .inr ⟨_, _, .of_same rfl rfl rfl⟩
  | bufInit k => cases h; exact .inr ⟨_, _, .of_same rfl rfl rfl⟩
  | bufLoop a k =>
    cases h
    refine .inr ⟨_, _, .of_push hc (w := s.work) ?_ (fun _ => ⟨rfl, rfl⟩) ?_⟩
    · unfold bufLoopProg
      split <;> simp [isWordState]
    · unfold bufLoopProg
      split <;> simp [cost, callCost]
      omega
  | bufStore a k => cases h; exact .inr ⟨_, _, .of_same rfl rfl rfl⟩
  | bufSlice off k => cases h; exact .inr ⟨_, _, .of_same rfl rfl rfl⟩
  | setCur => cases h; exact .inr ⟨_, _, .of_same rfl rfl rfl⟩
  | setM => cases h; exact .inr ⟨_, _, .of_same rfl rfl rfl⟩
  | wwEntry vw value =>
    cases h
    refine .inr ⟨_, _, .of_push hc (by simp [isWordState]) (by simp [isWordState]) ?_⟩
    simp [cost, pulseCost, mreadCost, checkCost]
  | wwAread vw value =>
    cases h
    refine .inr ⟨_, _, .of_push hc (w := s.work) (by simp [isWordState]) (by simp [isWordState]) ?_⟩
    simp [cost, callCost]
    omega
  | wwMask vw value =>
    cases h
    refine .inr ⟨_, _, .of_push hc (by simp [isWordState]) (by simp [isWordState]) ?_⟩
    simp [cost]
  | wwPulse vw value =>
    cases h
    unfold wwPulseStep
    split
    · rename_i hi
      refine .inr ⟨_, _, .of_push hc (w := s.work) (by simp [isWordState]) (by simp [isWordState]) ?_⟩
      simp [cost, hi, pulseCost]
    · rename_i hi
      have hle : s.work.i + 1 ≤ 32 ∧ s.work.i ≤ 32 := by
        simp only [cost, pulseCost, tooMany] at hb
        split at hb <;> omega
      split <;> refine .inr ⟨_, _, .of_push hc (w := s.work) (by simp [isWordState]) (by simp [isWordState]) ?_⟩ <;>
        simp only [costs_cons, costs_nil, cost, callCost, pulseCost, if_pos hle.1, if_pos hle.2] <;> omega
  | wwNextBit vw value =>
    cases h
    refine .inr ⟨_, _, .of_push hc (by simp [isWordState]) (by simp [isWordState]) ?_⟩
    simp [cost]
  | wwMread vw value =>
    cases h
    refine .inr ⟨_, _, .of_push hc (w := s.work) (by simp [isWordState]) (by simp [isWordState]) ?_⟩
    simp [cost, callCost, mreadCost]
    omega
  | wwCheck vw value =>
    cases h
    unfold wwCheckStep
    split
    · rename_i hj
      refine .inr ⟨_, _, .of_push hc (by simp [isWordState]) (by simp [isWordState]) ?_⟩
      simp [cost, pulseCost, mreadCost, checkCost, hj]
    · rename_i hj
      refine .inr ⟨_, _, .of_push hc (by simp [isWordState]) (by simp [isWordState]) ?_⟩
      have hj' : ¬s.work.j = 0#1 := hj
      simp [cost, checkCost, hj']
  | wwRefresh =>
    cases h
    refine .inr ⟨_, _, .of_push hc (w := s.work) (by simp [isWordState]) (by simp [isWordState]) ?_⟩
    simp [cost, callCost]
  | wwResult =>
    cases h
    unfold wwResultStep
    split
    · exact .inl rfl
    · exact .inr ⟨_, _, .of_same rfl rfl rfl⟩


/-! ### What a step of the sequencer does to the measure -/

/-- An operation in progress that has at most `n` steps before its end or its next hold. -/
def State.within (n : Nat) (s : State) : Prop := s.toGo + s.tested ≤ n ∧ s.oneWord

theorem State.tested_le (s : State) : s.tested ≤ 1 := by
  unfold State.tested
  split <;> omega

theorem State.tested_of_held {s : State} (h : s.held = true) : s.tested = 0 := by
  unfold State.held at h
  split at h
  · rename_i hc
    simp [State.tested, State.nextPrim, hc]
  · cases h

/-- What is to go before a primitive: its own steps, and what is to go after it. -/
theorem toGo_cons {s : State} {p : Prim} (hc : s.ctl = .run op (p :: phase) callers) :
    s.remaining = p :: (s.setCtl (.run op phase callers)).remaining ∧
    s.depth = (s.setCtl (.run op phase callers)).depth ∧ s.tested = if p = .pollTest then 1 else 0 := by
  simp [State.remaining, State.depth, State.tested, State.nextPrim, hc]

/-- A step of the sequencer ends the operation, or holds it, or has fewer steps to go; it never has more than before. -/
theorem seqStep_within {s t : State} {n : Nat} (hn : n ≤ 2000) (hi : s.isIdle = false) (hs : s.within n)
    (h : seqStep s = .next t) : t.ctl = .idle ∨ t.within n ∧ (t.held = true ∨ t.toGo < s.toGo) := by
  obtain ⟨hb, hw⟩ := hs
  cases seqStep_next h with
  | idle hc e => simp [State.isIdle, hc] at hi
  | ends op hc e => subst e; exact .inl rfl
  | returns op f callers hc e =>
    subst e
    have hg : (s.setCtl (.run f.op f.phase callers)).toGo + 1 = s.toGo := by
      simp [State.toGo, State.depth, State.remaining, hc]
      omega
    have := (s.setCtl (.run f.op f.phase callers)).tested_le
    refine .inr ⟨⟨by omega, ?_⟩, .inr (by omega)⟩
    simpa [State.oneWord, State.remaining, hc] using hw
  | prim op p phase callers hc e =>
    obtain ⟨hr, hd, ht⟩ := toGo_cons hc
    generalize hu : s.setCtl (.run op phase callers) = u at e hr hd
    have huw : u.work = s.work := hu ▸ rfl
    have huc : u.ctl = .run op phase callers := hu ▸ rfl
    simp only [State.toGo, hr, hd, costs_cons] at hb ⊢
    simp only [State.oneWord, hr, List.countP_cons] at hw
    rw [← huw] at hb ⊢
    rcases runPrim_pushed huc (by omega) e with h | ⟨qs, k, hp⟩
    · exact .inl h
    have hcost : costs t.work.j t.work.i u.remaining = costs u.work.j u.work.i u.remaining := by
      rcases hword : isWordState p
      · obtain ⟨hj, hi⟩ := hp.same hword
        rw [hj, hi]
      · rw [if_pos hword] at hw
        exact costs_of_no_wordState (by omega) _ _ _ _
    have hone : t.oneWord := by
      have := hp.words
      simp only [State.oneWord, hp.remaining, List.countP_append]
      omega
    have hle := t.tested_le
    refine .inr ⟨⟨?_, hone⟩, ?_⟩ <;> simp only [State.toGo, hp.remaining, hp.depth, costs_append, hcost] <;>
      rcases hp.lower with hlt | ⟨rfl, hh, rfl, rfl⟩
    · omega
    · rw [ht] at hb
      simp [State.tested_of_held hh, cost] at hb ⊢
      omega
    · exact .inr (by omega)
    · exact .inl hh

/-- Fewer steps than `n` to go: `n` of them reach the end or the next hold. -/
theorem drive_within {n m : Nat} (hm : m ≤ 2000) {s t : State} (hi : s.isIdle = false) (hs : s.within m) (hn : s.toGo < n)
    (h : drive n s = .next t) : t.ctl = .idle ∨ t.within m ∧ t.held = true := by
  induction n generalizing s with
  | zero => omega
  | succ n ih =>
    rcases hq : seqStep s with u | r | r
    · rcases hr : u.rests
      · rw [drive_go hq hr] at h
        rcases seqStep_within hm hi hs hq with he | ⟨hu, hl⟩
        · simp [State.rests, State.isIdle, he] at hr
        · simp [State.rests] at hr
          rcases hl with hl | hl
          · simp [hl] at hr
          · exact ih hr.1 hu (by omega) h
      · rw [drive_rest hq hr] at h
        cases h
        rcases seqStep_within hm hi hs hq with he | ⟨hu, hl⟩
        · exact .inl he
        · simp [State.rests] at hr
          rcases hr with hr | hr
          · left
            unfold State.isIdle at hr
            split at hr <;> first | assumption | cases hr
          · exact .inr ⟨hu, hr⟩
    · rw [drive_fault hq] at h
      cases h
    · rw [drive_refused hq] at h
      cases h

/-- The pseudocode of every operation is within a bound far below `opSteps`. -/
theorem program_costs (c : Config) (i : Instr) (j : BitVec 1) (k : Nat) :
    costs j k (program c i) ≤ 1200 ∧ (program c i).countP isWordState ≤ 1 := by
  have hw (a v : Word32) : costs j k (ctrlWriteProg a v) ≤ 1200 ∧ (ctrlWriteProg a v).countP isWordState ≤ 1 := by
    simp [ctrlWriteProg, cost, callCost, isWordState]
  have hb (bs : List Byte) : costs j k (streamWriteProg bs) ≤ 1200 ∧ (streamWriteProg bs).countP isWordState ≤ 1 := by
    unfold streamWriteProg
    split
    · simp [cost, isWordState]
    · exact hw _ _
  have hr (pw mode : Word32) : costs j k (readPhysProg c pw mode) ≤ 1200 ∧
      (readPhysProg c pw mode).countP isWordState ≤ 1 := by
    unfold readPhysProg
    split
    · simp [cost, isWordState]
    · split <;> simp [cost, callCost, isWordState]
  cases i
  case streamWritePayload => exact hb _
  case hStreamWrite => exact hb _
  case hWrite32 => exact hb _
  case hCtrlWrite => exact hw _ _
  case rdmodeArray => exact hr _ _
  case rdmodeMargin => exact hr _ _
  case readPhys => exact hr _ _
  case hStreamRead off n =>
    simp only [program, streamReadProg]
    split <;> simp [cost, callCost, isWordState]
  case setBits off mask =>
    simp only [program, setBitsProg]
    split <;> simp [cost, isWordState]
  case programBit w b r =>
    simp only [program, programBitProg]
    split <;> simp [cost, callCost, isWordState]
  case readBuf n =>
    have : min n vsize ≤ 256 := Nat.min_le_right _ _
    simp [program, readBufProg, cost, isWordState]
    omega
  all_goals
    simp [program, rdRegProg, wrRegProg, statusReadyProg, waitReadyProg, powerProg, refreshProg, initProg, teardownProg,
      readShadowProg, writeWordProg, ctrlReadProg, ctrlOtherProg, cost, callCost, isWordState]

/-- An operation that begins is within that bound. -/
theorem begin_within (s : State) (i : Instr) : (s.begin i).within 1201 := by
  obtain ⟨hp, hw⟩ := program_costs s.cfg i s.work.j s.work.i
  have := (s.begin i).tested_le
  refine ⟨?_, by simpa [State.oneWord, State.remaining, State.begin] using hw⟩
  have : (s.begin i).toGo = costs s.work.j s.work.i (program s.cfg i) := by
    simp [State.toGo, State.depth, State.remaining, State.begin, State.acquire, State.setCtl]
  omega

/-- No operation in progress, or one that a hold keeps within the bound. -/
def State.settled (s : State) : Prop := s.ctl = .idle ∨ s.within 1201 ∧ s.held = true

/-- A step settles a settled machine: `opSteps` never cuts an operation short. -/
theorem step_settled {s t : State} (hs : s.settled) (h : step s = .next t) : t.settled := by
  have hidle {u : State} (hc : u.ctl = .idle) : u.settled := .inl hc
  cases step_next h with
  | stays hc e => exact .inl (e ▸ hc)
  | resumes hi e =>
    rcases hs with hc | ⟨hw, -⟩
    · simp [State.isIdle, hc] at hi
    · exact drive_within (by omega) hi hw (by have := hw.1; unfold opSteps; omega) e
  | serves hc i q port o e =>
    cases exec_next e with
    | waits _ _ e => subst e; exact .inl hc
    | answers _ e => subst e; exact .inl hc
    | unmapped _ e => subst e; exact .inl rfl
    | runs _ e =>
      have hw := begin_within { s with caller := q, port := port, oracle := o } i
      exact drive_within (by omega) rfl hw (by have := hw.1; unfold opSteps; omega) e

end Sys2Proof.Machine
end

