-- ==== Sys2Proof/Laws/PerInstr.lean ====
section
/-! SUPPORT. Per instruction: decoding its encoding gives it back. -/

namespace Sys2Proof

theorem encodeAdrProg_fields (b : BitVec 5) (w : BitVec 6) (r : BitVec 1) :
    (encodeAdrProg b w r).extractLsb' 12 20 = 0#20 ∧ (encodeAdrProg b w r).extractLsb' 7 5 = b ∧
    (encodeAdrProg b w r).extractLsb' 1 6 = w ∧ (encodeAdrProg b w r).extractLsb' 0 1 = r := by
  refine ⟨?_, ?_, ?_, ?_⟩ <;>
  · apply BitVec.eq_of_getLsbD_eq
    intro k hk
    simp [encodeAdrProg, BitVec.getLsbD_extractLsb']
    grind

theorem encodeAdrRead_fields (w : BitVec 6) (r : BitVec 1) :
    (encodeAdrRead w r).extractLsb' 7 25 = 0#25 ∧ (encodeAdrRead w r).extractLsb' 1 6 = w ∧
    (encodeAdrRead w r).extractLsb' 0 1 = r := by
  refine ⟨?_, ?_, ?_⟩ <;>
  · apply BitVec.eq_of_getLsbD_eq
    intro k hk
    simp [encodeAdrRead, BitVec.getLsbD_extractLsb']
    grind

/-- A word outside the command map decodes as undefined (R88, D18). -/
theorem decodeCommand_undefined {c : Config} (h : c.wf = true) {v : Word32} (hv : v ∉ c.commandWords) :
    decodeCommand c v = .undefined := by
  have hm := Config.masksApart h
  simp only [Config.commandWords, Config.plainWords, List.mem_cons, not_or] at hv
  obtain ⟨h0, h1, h2, h3, h4, h5, -⟩ := hv
  have split : ∀ k, v.getLsbD k = (((v &&& c.opMask).getLsbD k || (v &&& c.mPwrDn).getLsbD k) ||
      ((v &&& c.mCmd).getLsbD k || (v &&& c.restMask).getLsbD k)) := by
    intro k
    simp only [Config.opMask, Config.restMask, BitVec.getLsbD_and, BitVec.getLsbD_or, BitVec.getLsbD_not]
    by_cases hk : k < 32
    · grind
    · simp [BitVec.getLsbD_of_ge v k (by omega)]
  by_contra hne
  unfold decodeCommand at hne
  split at hne
  · exact h0 ‹_›
  split at hne
  · exact hne rfl
  rename_i hcr
  simp only [not_or, ne_eq, not_not] at hcr
  obtain ⟨hc, hr⟩ := hcr
  have hc' : v &&& c.mCmd = c.mCmd := (and_isSingleBit hm.bitM v).resolve_left hc
  have join : ∀ x p : Word32, v &&& c.opMask = x → v &&& c.mPwrDn = p → v = x ||| p ||| c.mCmd := by
    intro x p hx hp
    apply BitVec.eq_of_getLsbD_eq
    intro k hk
    have := split k
    rw [hx, hp, hc', hr] at this
    simpa using this
  split at hne
  · split at hne
    · rename_i hp ho
      apply h5
      have := join _ _ ho ((and_isSingleBit hm.bitP v).resolve_left hp)
      simpa [Config.cwPwrdn] using this
    · exact hne rfl
  rename_i hp
  simp only [ne_eq, not_not] at hp
  split at hne
  · rename_i ho
    exact h4 (by simpa [Config.cwPwron] using join _ _ ho hp)
  split at hne
  · rename_i ho
    exact h1 (by simpa [Config.cwAread] using join _ _ ho hp)
  split at hne
  · rename_i ho
    exact h2 (by simpa [Config.cwMread] using join _ _ ho hp)
  split at hne
  · rename_i ho
    exact h3 (by simpa [Config.cwProg] using join _ _ ho hp)
  · exact hne rfl

/-- Of every well-formed instruction: what it is encoded as decodes to it, under every valid configuration. -/
def Laws.RoundTrip.Statement (i : Instr) : Prop :=
  ∀ (c : Config) (e : Channel × List Byte), c.wf = true → i.wf c = true → encode c i = some e →
    decode c e.1 e.2 = .ok i

theorem Laws.RoundTrip.cwAread : Laws.RoundTrip.Statement .cwAread := by
  intro c e hc hi he
  obtain rfl := Option.some.inj he
  simp [decode, bytesOfWord, decodeMode, wordOfBytes_bytesOfWord, decodeCommand_aread hc]

theorem Laws.RoundTrip.cwMread : Laws.RoundTrip.Statement .cwMread := by
  intro c e hc hi he
  obtain rfl := Option.some.inj he
  simp [decode, bytesOfWord, decodeMode, wordOfBytes_bytesOfWord, decodeCommand_mread hc]

theorem Laws.RoundTrip.cwProg : Laws.RoundTrip.Statement .cwProg := by
  intro c e hc hi he
  obtain rfl := Option.some.inj he
  simp [decode, bytesOfWord, decodeMode, wordOfBytes_bytesOfWord, decodeCommand_prog hc]

theorem Laws.RoundTrip.cwPwron : Laws.RoundTrip.Statement .cwPwron := by
  intro c e hc hi he
  obtain rfl := Option.some.inj he
  simp [decode, bytesOfWord, decodeMode, wordOfBytes_bytesOfWord, decodeCommand_pwron hc]

theorem Laws.RoundTrip.cwPwrdn : Laws.RoundTrip.Statement .cwPwrdn := by
  intro c e hc hi he
  obtain rfl := Option.some.inj he
  simp [decode, bytesOfWord, decodeMode, wordOfBytes_bytesOfWord, decodeCommand_pwrdn hc]

theorem Laws.RoundTrip.cwRefresh : Laws.RoundTrip.Statement .cwRefresh := by
  intro c e hc hi he
  obtain rfl := Option.some.inj he
  simp [decode, bytesOfWord, decodeMode, wordOfBytes_bytesOfWord, decodeCommand_refresh]

theorem Laws.RoundTrip.cwUndefined (v : Word32) : Laws.RoundTrip.Statement (.cwUndefined v) := by
  intro c e hc hi he
  obtain rfl := Option.some.inj he
  have hv : v ∉ c.commandWords := by simpa [Instr.wf] using hi
  simp [decode, bytesOfWord, decodeMode, wordOfBytes_bytesOfWord, decodeCommand_undefined hc hv]

theorem Laws.RoundTrip.adrProg (b : BitVec 5) (w : BitVec 6) (r : BitVec 1) : Laws.RoundTrip.Statement (.adrProg b w r) := by
  intro c e hc hi he
  obtain rfl := Option.some.inj he
  simp [decode, bytesOfWord, decodeAdrProg, wordOfBytes_bytesOfWord, encodeAdrProg_fields]

theorem Laws.RoundTrip.adrRead (w : BitVec 6) (r : BitVec 1) : Laws.RoundTrip.Statement (.adrRead w r) := by
  intro c e hc hi he
  obtain rfl := Option.some.inj he
  simp [decode, bytesOfWord, decodeAdrRead, wordOfBytes_bytesOfWord, encodeAdrRead_fields]

theorem Laws.RoundTrip.statusReady (v : Word32) : Laws.RoundTrip.Statement (.statusReady v) := by
  intro c e hc hi he
  obtain rfl := Option.some.inj he
  have hv : isReadyWord c v = true := hi
  simp [decode, bytesOfWord, decodeStatus, wordOfBytes_bytesOfWord, hv]

theorem Laws.RoundTrip.streamWritePayload (addr value : Word32) : Laws.RoundTrip.Statement (.streamWritePayload addr value) := by
  intro c e hc hi he
  obtain rfl := Option.some.inj he
  simp [decode, payloadBytes, bytesOfWord, wordOfBytes_bytesOfWord]

theorem Laws.RoundTrip.rdmodeArray (pw : Word32) : Laws.RoundTrip.Statement (.rdmodeArray pw) := by
  intro c e hc hi he
  obtain rfl := Option.some.inj he
  simp [decode, bytesOfWord, decodeReadMode, wordOfBytes_bytesOfWord]

theorem Laws.RoundTrip.rdmodeMargin (pw : Word32) : Laws.RoundTrip.Statement (.rdmodeMargin pw) := by
  intro c e hc hi he
  obtain rfl := Option.some.inj he
  have hn := (Config.masksApart hc).opMask_ne
  simp [decode, bytesOfWord, decodeReadMode, wordOfBytes_bytesOfWord, hn]

theorem Laws.RoundTrip.rdReg (off : Word32) : Laws.RoundTrip.Statement (.rdReg off) := by
  intro c e _ _ he
  cases he

theorem Laws.RoundTrip.wrReg (off v : Word32) : Laws.RoundTrip.Statement (.wrReg off v) := by
  intro c e _ _ he
  cases he

theorem Laws.RoundTrip.setBits (off mask : Word32) : Laws.RoundTrip.Statement (.setBits off mask) := by
  intro c e _ _ he
  cases he

theorem Laws.RoundTrip.waitReady : Laws.RoundTrip.Statement .waitReady := by
  intro c e _ _ he
  cases he

theorem Laws.RoundTrip.power (en : Bool) : Laws.RoundTrip.Statement (.power en) := by
  intro c e _ _ he
  cases he

theorem Laws.RoundTrip.refresh : Laws.RoundTrip.Statement .refresh := by
  intro c e _ _ he
  cases he

theorem Laws.RoundTrip.init : Laws.RoundTrip.Statement .init := by
  intro c e _ _ he
  cases he

theorem Laws.RoundTrip.teardown : Laws.RoundTrip.Statement .teardown := by
  intro c e _ _ he
  cases he

theorem Laws.RoundTrip.compose (w b r : Word32) : Laws.RoundTrip.Statement (.compose w b r) := by
  intro c e _ _ he
  cases he

theorem Laws.RoundTrip.physWord (vw r : Word32) : Laws.RoundTrip.Statement (.physWord vw r) := by
  intro c e _ _ he
  cases he

theorem Laws.RoundTrip.wordIndex (addr : Word32) : Laws.RoundTrip.Statement (.wordIndex addr) := by
  intro c e _ _ he
  cases he

theorem Laws.RoundTrip.programBit (w b r : Word32) : Laws.RoundTrip.Statement (.programBit w b r) := by
  intro c e _ _ he
  cases he

theorem Laws.RoundTrip.readPhys (pw mode : Word32) : Laws.RoundTrip.Statement (.readPhys pw mode) := by
  intro c e _ _ he
  cases he

theorem Laws.RoundTrip.writeWord (vw value : Word32) : Laws.RoundTrip.Statement (.writeWord vw value) := by
  intro c e _ _ he
  cases he

theorem Laws.RoundTrip.readShadow (addr : Word32) : Laws.RoundTrip.Statement (.readShadow addr) := by
  intro c e _ _ he
  cases he

theorem Laws.RoundTrip.readBuf (n : Nat) : Laws.RoundTrip.Statement (.readBuf n) := by
  intro c e _ _ he
  cases he

theorem Laws.RoundTrip.hCtrlRead (addr : Word32) : Laws.RoundTrip.Statement (.hCtrlRead addr) := by
  intro c e _ _ he
  cases he

theorem Laws.RoundTrip.hCtrlWrite (addr value : Word32) : Laws.RoundTrip.Statement (.hCtrlWrite addr value) := by
  intro c e _ _ he
  cases he

theorem Laws.RoundTrip.hCtrlOther (code : Word32) : Laws.RoundTrip.Statement (.hCtrlOther code) := by
  intro c e _ _ he
  cases he

theorem Laws.RoundTrip.hStreamWrite (bytes : List Byte) : Laws.RoundTrip.Statement (.hStreamWrite bytes) := by
  intro c e _ _ he
  cases he

theorem Laws.RoundTrip.hStreamRead (off n : Nat) : Laws.RoundTrip.Statement (.hStreamRead off n) := by
  intro c e _ _ he
  cases he

theorem Laws.RoundTrip.hWrite32 (addr value : Word32) : Laws.RoundTrip.Statement (.hWrite32 addr value) := by
  intro c e _ _ he
  cases he

end Sys2Proof
end

