-- ==== Sys2Proof/Laws/Runs.lean ====
section
/-! SUPPORT. How whole pieces of an operation run: the entries, and one lemma per sub-operation of the pseudocode,
composed by `Runs.append`. -/

namespace Sys2Proof.Machine
open Sys2Proof Host

/-! ### Admission -/

theorem admitMapped_available {s : State} (h : s.available) (i : Instr) :
    (admitMapped i s).run = drive opSteps (s.acquire.setCtl (.run i (program s.cfg i) [])) := by
  simp [admitMapped, h.1, h.2, Admission.run, State.begin, resume]

theorem admitPrimitive_available {s : State} (h : s.available) (i : Instr) :
    (admitPrimitive i s).run = drive opSteps (s.acquire.setCtl (.run i (program s.cfg i) [])) := by
  simp [admitPrimitive, h.1, h.2, Admission.run, State.begin, resume]

theorem admitTeardown_available {s : State} (h : s.available) (i : Instr) :
    (admitTeardown i s).run = drive opSteps (s.acquire.setCtl (.run i (program s.cfg i) [])) := by
  simp [admitTeardown, h.1, h.2, Admission.run, State.begin, resume]

theorem admitInit_unmapped {s : State} (ho : s.owner = none) (hm : s.mapped = false) (i : Instr) :
    (admitInit i s).run = drive opSteps (s.acquire.setCtl (.run i (program s.cfg i) [])) := by
  simp [admitInit, ho, hm, Admission.run, State.begin, resume]

/-! ### Pieces -/

/-- The primitives `ps` take `s` to `t` with `qs` in their place, in `k` steps without a rest, in any frame, whatever
stands after them: but a second poll must not, since a run rests before it. -/
def Goes (k : Nat) (ps : List Prim) (s : State) (qs : List Prim) (t : State) : Prop :=
  ∀ (op : Instr) (phase : List Prim) (callers : List Frame) (n : Nat), phase.head? ≠ some .poll →
    drive (n + k) (s.setCtl (.run op (ps ++ phase) callers)) = drive n (t.setCtl (.run op (qs ++ phase) callers))

/-- The primitives `ps` take `s` to `t` in `k` steps without a rest. -/
def Runs (k : Nat) (ps : List Prim) (s t : State) : Prop := Goes k ps s [] t

theorem head?_append_ne {qs phase : List Prim} (hq : qs.head? ≠ some .poll) (hp : phase.head? ≠ some .poll) :
    (qs ++ phase).head? ≠ some .poll := by
  cases qs with
  | nil => exact hp
  | cons q qs => exact hq

theorem Goes.refl (ps : List Prim) (s : State) : Goes 0 ps s ps s := fun _ _ _ _ _ => rfl

theorem Goes.trans {j k : Nat} {ps qs rs : List Prim} {s t u : State} (h1 : Goes j ps s qs t) (h2 : Goes k qs t rs u) :
    Goes (k + j) ps s rs u := by
  intro op phase callers n hp
  rw [← Nat.add_assoc, h1 op _ _ _ hp, h2 op _ _ _ hp]

/-- What stands after a piece does not matter to it. -/
theorem Goes.before {k : Nat} {ps qs rs : List Prim} {s t : State} (h : Goes k ps s qs t) (hr : rs.head? ≠ some .poll) :
    Goes k (ps ++ rs) s (qs ++ rs) t := by
  intro op phase callers n hp
  rw [List.append_assoc, List.append_assoc, h op _ _ _ (head?_append_ne hr hp)]

theorem Runs.goes {k : Nat} {ps qs : List Prim} {s t : State} (h : Runs k ps s t) (hq : qs.head? ≠ some .poll) :
    Goes k (ps ++ qs) s qs t := Goes.before h hq

theorem Runs.append {j k : Nat} {ps qs : List Prim} {s t u : State} (h1 : Runs j ps s t) (h2 : Runs k qs t u)
    (hq : qs.head? ≠ some .poll) : Runs (k + j) (ps ++ qs) s u := (h1.goes hq).trans h2

theorem Runs.congr {k k' : Nat} {ps ps' : List Prim} {s t t' : State} (h : Runs k ps s t) (hk : k' = k)
    (hp : ps' = ps) (ht : t' = t) : Runs k' ps' s t' := by
  subst hk hp ht
  exact h

/-- One primitive that puts others in its place. -/
theorem Goes.push {p : Prim} {qs : List Prim} {s u : State}
    (h : ∀ op phase callers,
      runPrim p (s.setCtl (.run op phase callers)) = .next (u.setCtl (.run op (qs ++ phase) callers)))
    (hq : qs.head? ≠ some .poll) : Goes 1 [p] s qs u := by
  intro op phase callers n hp
  rw [List.singleton_append, drive_cons, h,
    follow_go (u.rests_setCtl_of_head op callers (head?_append_ne hq hp))]

/-- One primitive that keeps to the state under its phase. -/
theorem Runs.single {p : Prim} {s t : State}
    (h : ∀ c, runPrim p (s.setCtl c) = .next (t.setCtl c)) : Runs 1 [p] s t :=
  Goes.push (fun op phase callers => h _) (by simp)

/-- A frame's whole phase and the return from it. -/
theorem Runs.framed {k : Nat} {p : Prim} {i : Instr} {ps : List Prim} {s t : State}
    (h : ∀ op phase callers, runPrim p (s.setCtl (.run op phase callers)) =
      .next (s.setCtl (.run i ps (⟨op, phase⟩ :: callers))))
    (hq : ps.head? ≠ some .poll) (hr : Runs k ps s t) : Runs (k + 2) [p] s t := by
  intro op phase callers n hp
  have hb := hr i [] (⟨op, phase⟩ :: callers) (n + 1) (by simp)
  rw [List.append_nil] at hb
  rw [List.singleton_append, show n + (k + 2) = n + 1 + k + 1 by omega, drive_cons, h,
    follow_go (s.rests_setCtl_of_head _ _ hq), hb, List.nil_append, drive_return,
    follow_go (t.rests_setCtl_of_head op callers hp), List.nil_append]

/-- A called operation (R13, R23). -/
theorem Runs.call {k : Nat} {i : Instr} {s t : State} (h : Runs k (program s.cfg i) s t) :
    Runs (k + 2) [.call i] s t :=
  Runs.framed (i := i) (ps := program s.cfg i) (fun op phase callers => by simp [runPrim]) (program_head _ _) h

/-- An operation that has run to its end (R14, R250). -/
theorem Runs.ends {k : Nat} {ps : List Prim} {s t : State} (h : Runs k ps s t) (op : Instr) {n : Nat} (hn : k < n) :
    drive n (s.setCtl (.run op ps [])) = .next (t.endOp (.ok (returnValue t op))) := by
  obtain ⟨m, rfl⟩ : ∃ m, n = (m + 1) + k := ⟨n - k - 1, by omega⟩
  have := h op [] [] (m + 1) (by simp)
  rw [List.append_nil] at this
  rw [this]
  exact drive_end t op m

/-- How a run goes on that ends the operation in progress whatever the frames: `ps` takes `s` to an end in `o` within
`k` steps. -/
def Stops (k : Nat) (ps : List Prim) (s : State) (o : Outcome State Fault Refusal) : Prop :=
  ∀ (op : Instr) (phase : List Prim) (callers : List Frame) (n : Nat), phase.head? ≠ some .poll →
    drive (n + k) (s.setCtl (.run op (ps ++ phase) callers)) = o

/-- One primitive that ends the operation, with an error, a fault or a refusal. -/
theorem Stops.single {p : Prim} {s : State} {o : Outcome State Fault Refusal} (h : ∀ c, runPrim p (s.setCtl c) = o)
    (ho : ∀ t, o = .next t → t.rests = true) (rest : List Prim) : Stops 1 (p :: rest) s o := by
  intro op phase callers n _
  rw [List.cons_append, drive_cons, h]
  rcases o with t | r | r
  · exact follow_rest (ho t rfl)
  · rfl
  · rfl

/-- A piece, then an end. -/
theorem Runs.stops {j k : Nat} {ps qs : List Prim} {s t : State} {o : Outcome State Fault Refusal} (h1 : Runs j ps s t)
    (h2 : Stops k qs t o) (hq : qs.head? ≠ some .poll) : Stops (k + j) (ps ++ qs) s o := by
  intro op phase callers n hp
  rw [← Nat.add_assoc, List.append_assoc, h1 op _ _ _ (head?_append_ne hq hp), List.nil_append, h2 op _ _ _ hp]

/-- A phase that others follow to their end. -/
theorem Goes.stops {j k : Nat} {ps qs : List Prim} {s t : State} {o : Outcome State Fault Refusal}
    (h1 : Goes j ps s qs t) (h2 : Stops k qs t o) : Stops (k + j) ps s o := by
  intro op phase callers n hp
  rw [← Nat.add_assoc, h1 op _ _ _ hp, h2 op _ _ _ hp]

theorem Stops.congr {k k' : Nat} {ps ps' : List Prim} {s : State} {o : Outcome State Fault Refusal}
    (h : Stops k ps s o) (hk : k' = k) (hp : ps' = ps) : Stops k' ps' s o := by
  subst hk hp
  exact h

/-- An end, whatever stands after it in the phase. -/
theorem Stops.before {k : Nat} {ps : List Prim} {s : State} {o : Outcome State Fault Refusal} (h : Stops k ps s o)
    {rest : List Prim} (hr : rest.head? ≠ some .poll) : Stops k (ps ++ rest) s o := by
  intro op phase callers n hp
  rw [List.append_assoc]
  exact h op _ callers n (head?_append_ne hr hp)

/-- An end inside a called operation ends its callers too (R13, R254). -/
theorem Stops.call {k : Nat} {i : Instr} {s : State} {o : Outcome State Fault Refusal}
    (h : Stops k (program s.cfg i) s o) (rest : List Prim) : Stops (k + 1) (.call i :: rest) s o := by
  intro op phase callers n _
  have hb := h i [] (⟨op, rest ++ phase⟩ :: callers) n (by simp)
  rw [List.append_nil] at hb
  rw [List.cons_append, show n + (k + 1) = n + k + 1 by omega, drive_cons]
  simp only [runPrim, State.setCtl_cfg, State.enter_setCtl]
  rw [follow_go (s.rests_setCtl_of_head _ _ (program_head _ _)), hb]

/-- An end of the operation in progress. -/
theorem Stops.ends {k : Nat} {ps : List Prim} {s : State} {o : Outcome State Fault Refusal} (h : Stops k ps s o)
    (op : Instr) {n : Nat} (hn : k ≤ n) : drive n (s.setCtl (.run op ps [])) = o := by
  obtain ⟨m, rfl⟩ : ∃ m, n = m + k := ⟨n - k, by omega⟩
  have := h op [] [] m (by simp)
  rwa [List.append_nil] at this

/-- The state an error leaves is a rest. -/
theorem rests_of_raise (s : State) (k : ErrorKind) (y : Reason) :
    ∀ t, (Outcome.next (s.raiseError k y) : Outcome State Fault Refusal) = .next t → t.rests = true := by
  intro t h
  cases h
  rfl

/-! ### The handshake's pieces -/

/-- What a WAIT_READY whose first read finds BUSY clear leaves (R120). -/
def readyPolled (s : State) (v : Word32) (o : Oracle) : State :=
  ((s.setWork { s.work with polls := 0, ret := v }).setOracle o).emit (.rd offStatus v)

@[simp] theorem readyPolled_oracle (s : State) (v : Word32) (o : Oracle) : (readyPolled s v o).oracle = o := rfl
@[simp] theorem readyPolled_cfg (s : State) (v : Word32) (o : Oracle) : (readyPolled s v o).cfg = s.cfg := rfl
@[simp] theorem readyPolled_powered (s : State) (v : Word32) (o : Oracle) :
    (readyPolled s v o).powered = s.powered := rfl

/-- The first poll of a WAIT_READY (R120): what stands before its tests. -/
theorem firstPoll_goes {s : State} {v : Word32} {o : Oracle} (ho : s.oracle.nextStatus = (v, o)) :
    Goes 2 [.pollInit, .poll, .pollTest] s [.pollTest] (readyPolled s v o) := by
  intro op phase callers n hp
  rw [List.cons_append, drive_cons]
  simp only [runPrim, State.setWork_setCtl, State.setCtl_work]
  rw [follow_go (State.rests_setCtl_of_polls _ _ _ _ rfl), List.cons_append, drive_cons]
  simp only [runPrim, pollRead_setCtl]
  rw [follow_go (State.rests_setCtl_of_head _ _ _ (by simp)), pollRead_eq]
  simp [ho, readyPolled, State.setRet, State.setWork, State.setOracle, State.emit]

/-- WAIT_READY whose first read finds BUSY clear (R120). -/
theorem Runs.waitReady {s : State} {v : Word32} {o : Oracle} (ho : s.oracle.nextStatus = (v, o))
    (hv : isReadyWord s.cfg v = true) : Runs 3 waitReadyProg s (readyPolled s v o) := by
  have h2 : Runs 1 [.pollTest] (readyPolled s v o) (readyPolled s v o) :=
    Runs.single fun c => by
      simp only [runPrim]
      rw [pollTest_ready (s := (readyPolled s v o).setCtl c) hv]
  exact (firstPoll_goes ho).trans h2

/-- WAIT_READY whose first read finds BUSY set, the poll limit being 1 (R120, R246). -/
theorem Stops.waitReady {s : State} {v : Word32} {o : Oracle} (ho : s.oracle.nextStatus = (v, o))
    (hv : isReadyWord s.cfg v = false) (hl : s.cfg.pollLimit = some 1) :
    Stops 3 waitReadyProg s (.next ((busyPolled (readyPolled s v o)).raiseError .errTimeout .readyTimeout)) := by
  refine (firstPoll_goes ho).stops (Stops.single (fun c => ?_) (rests_of_raise _ _ _) [])
  simp only [runPrim]
  rw [pollTest_timeout (s := (readyPolled s v o).setCtl c) hv]
  · rfl
  · simp [pollLimitReached, readyPolled, State.setWork, State.setOracle, State.emit, State.setCtl, hl]

/-- WAIT_READY whose first read finds BUSY set, below the poll limit, holds the block in its frames (R14, R120). -/
theorem drive_held {s : State} {v : Word32} {o : Oracle} (ho : s.oracle.nextStatus = (v, o))
    (hv : isReadyWord s.cfg v = false) (hl : pollLimitReached s 1 = false) (op : Instr) {phase : List Prim}
    (hp : phase.head? ≠ some .poll) (callers : List Frame) (n : Nat) :
    drive (n + 3) (s.setCtl (.run op (waitReadyProg ++ phase) callers)) =
      .next ((busyPolled (readyPolled s v o)).setCtl (.run op (.poll :: .pollTest :: phase) callers)) := by
  rw [show n + 3 = (n + 1) + 2 from rfl, show waitReadyProg = [.pollInit, .poll, .pollTest] from rfl,
    firstPoll_goes ho op phase callers (n + 1) hp, List.cons_append, drive_cons]
  simp only [runPrim]
  rw [pollTest_busy (s := (readyPolled s v o).setCtl (.run op ([] ++ phase) callers)) hv hl, follow_rest]
  · rfl
  · exact State.rests_setCtl_poll (busyPolled (readyPolled s v o)) op (.pollTest :: phase) callers
      (Nat.succ_ne_zero _)

/-- A write to ADR (R111). -/
theorem Runs.writeAdr (s : State) (v : Word32) : Runs 1 (wrRegProg offAdr v) s (s.noteAdr v) :=
  Runs.single fun _ => by simp [runPrim]

/-- A write to MODE that the macro takes (R111). -/
theorem Runs.writeMode {s t : State} {v : Word32} (h : modeWrite v s = .next t) :
    Runs 1 (wrRegProg offMode v) s t :=
  Runs.single fun _ => by simp [runPrim, h]

/-- A read of an admitted offset (R110). -/
theorem Runs.read {s : State} {off : Word32} {v : Word32} {o : Oracle} (h : isReadableOffset off = true)
    (ha : readAnswer off s = (v, o)) :
    Runs 1 (rdRegProg off) s (((s.setOracle o).emit (.rd off v)).setRet v) :=
  Runs.single fun _ => by simp [runPrim, regRead_of_readable _ h, ha]

theorem cleanReadback_or {c : Config} {mr : Word32} (h : cleanReadback c mr = true) :
    mr ||| c.mCmd = c.mCmd := by
  simp only [cleanReadback, Bool.and_eq_true, beq_iff_eq] at h
  obtain ⟨h1, h2⟩ := h
  apply BitVec.eq_of_getLsbD_eq
  intro k hk
  have e1 := congrArg (fun v => v.getLsbD k) h1
  have e2 := congrArg (fun v => v.getLsbD k) h2
  simp only [Config.restMask, BitVec.getLsbD_and, BitVec.getLsbD_or, BitVec.getLsbD_not] at e1 e2 ⊢
  grind

theorem cleanReadback_or_pwrdn {c : Config} {mr : Word32} (h : cleanReadback c mr = true) :
    mr ||| c.cwPwrdn = c.cwPwrdn := by
  rw [Config.cwPwrdn, BitVec.or_comm c.mPwrDn, ← BitVec.or_assoc, cleanReadback_or h]

/-- SET_BITS over a readback, when the macro takes the word (R112). -/
theorem Runs.setBits {s t : State} {mask mr : Word32} {o : Oracle} (ho : s.oracle.nextMode = (mr, o))
    (h : modeWrite (mr ||| mask) (((s.setOracle o).emit (.rd offMode mr)).setRet mr) = .next t) :
    Runs 4 (setBitsProg offMode mask) s t := by
  have h1 : Runs 1 [.regRead offMode] s (((s.setOracle o).emit (.rd offMode mr)).setRet mr) :=
    Runs.read (off := offMode) rfl (by simpa using ho)
  have h2 : Runs 3 [.callWriteOr offMode mask] (((s.setOracle o).emit (.rd offMode mr)).setRet mr) t :=
    Runs.framed (i := .wrReg offMode (mr ||| mask)) (ps := wrRegProg offMode (mr ||| mask))
      (fun op phase callers => by simp [runPrim]) (by simp [wrRegProg]) (Runs.writeMode h)
  exact h1.append h2 (by simp)

/-- POWER(true) over a clean readback (R121, R231). -/
theorem Runs.powerOn {s : State} {mr : Word32} {o : Oracle} (hw : s.cfg.wf = true)
    (ho : s.oracle.nextMode = (mr, o)) (hm : cleanReadback s.cfg mr = true) :
    Runs 6 (powerProg s.cfg true) s
      (((((s.setOracle o).emit (.rd offMode mr)).setRet mr).noteMode s.cfg.cwPwron).setPowered true) := by
  refine Runs.call (i := .setBits offMode _) (Runs.setBits ho ?_)
  simp only [if_true, cleanReadback_or hm]
  exact modeWrite_pwron rfl hw

/-- POWER(false) over a clean readback (R121, R231). -/
theorem Runs.powerOff {s : State} {mr : Word32} {o : Oracle} (hw : s.cfg.wf = true)
    (ho : s.oracle.nextMode = (mr, o)) (hm : cleanReadback s.cfg mr = true) :
    Runs 6 (powerProg s.cfg false) s
      (((((s.setOracle o).emit (.rd offMode mr)).setRet mr).noteMode s.cfg.cwPwrdn).setPowered false) := by
  refine Runs.call (i := .setBits offMode _) (Runs.setBits ho ?_)
  simp only [Bool.false_eq_true, if_false]
  rw [show s.cfg.mPwrDn ||| s.cfg.mCmd = s.cfg.cwPwrdn from rfl, cleanReadback_or_pwrdn hm]
  exact modeWrite_pwrdn rfl hw

/-- REFRESH (R122). -/
theorem Runs.refresh (s : State) :
    Runs 3 (refreshProg s.cfg) s (refreshCommand (s.noteMode s.cfg.cwRefresh)) :=
  Runs.call (i := .wrReg offMode s.cfg.cwRefresh) (Runs.writeMode (modeWrite_refresh rfl))

/-! ### The array operations' pieces -/

theorem isRow_iff {r : Word32} : isRow r = true ↔ r = 0 ∨ r = 1 := by
  simp [isRow]

/-- COMPOSE of a row lies in the fuse space, at the place of its three fields (R130, R134). -/
theorem composeAddr_toNat {r : Word32} (hr : isRow r = true) (w b : Word32) :
    (composeAddr w b r).toNat = b.toNat % 32 * 128 + w.toNat % 64 * 2 + r.toNat := by
  have hlt : r.toNat < 2 := by
    rcases isRow_iff.mp hr with rfl | rfl <;> decide
  have hb : (b &&& 0x1F).toNat = b.toNat % 32 := by
    rw [BitVec.toNat_and]
    exact Nat.and_two_pow_sub_one_eq_mod b.toNat 5
  have hw : (w &&& 0x3F).toNat = w.toNat % 64 := by
    rw [BitVec.toNat_and]
    exact Nat.and_two_pow_sub_one_eq_mod w.toNat 6
  have e1 := Nat.two_pow_add_eq_or_of_lt (i := 1) (a := w.toNat % 64) (b := r.toNat) (by omega)
  have e2 := Nat.two_pow_add_eq_or_of_lt (i := 7) (a := b.toNat % 32) (b := 2 ^ 1 * (w.toNat % 64) + r.toNat)
    (by omega)
  simp only [composeAddr, BitVec.or_assoc, BitVec.toNat_or, BitVec.toNat_shiftLeft, hb, hw, Nat.shiftLeft_eq]
  rw [Nat.mod_eq_of_lt (a := b.toNat % 32 * 2 ^ 7) (by omega), Nat.mod_eq_of_lt (a := w.toNat % 64 * 2 ^ 1) (by omega),
    Nat.mul_comm _ (2 ^ 7), Nat.mul_comm _ (2 ^ 1), ← e1, ← e2]
  omega

theorem isPhysBit_composeAddr {r : Word32} (hr : isRow r = true) (w b : Word32) :
    isPhysBit (composeAddr w b r) = true := by
  have hlt : r.toNat < 2 := by
    rcases isRow_iff.mp hr with rfl | rfl <;> decide
  simp only [isPhysBit, composeAddr_toNat hr, nBits, decide_eq_true_eq]
  omega

/-- PHYS_WORD is COMPOSE at bit 0 (R131). -/
theorem physWordAddr_eq (vw r : Word32) : physWordAddr vw r = composeAddr vw 0 r := by
  simp [physWordAddr, composeAddr]

theorem physWordAddr_toNat {r : Word32} (hr : isRow r = true) (vw : Word32) :
    (physWordAddr vw r).toNat = vw.toNat % 64 * 2 + r.toNat := by
  rw [physWordAddr_eq, composeAddr_toNat hr]
  simp

theorem isPhysWord_physWordAddr {r : Word32} (hr : isRow r = true) (vw : Word32) :
    isPhysWord (physWordAddr vw r) = true := by
  have hlt : r.toNat < 2 := by
    rcases isRow_iff.mp hr with rfl | rfl <;> decide
  simp only [isPhysWord, physWordAddr_toNat hr, nPhysWords, decide_eq_true_eq]
  omega

/-- What PROGRAM_BIT leaves, from the STATUS answer and the address (R140). -/
def pulsedBit (s : State) (v : Word32) (o : Oracle) (pa : Word32) : State :=
  (pulseAt pa (((readyPolled s v o).noteAdr pa).noteMode s.cfg.cwProg)).noteAttempt

/-- PROGRAM_BIT with the macro ready (R140). -/
theorem Runs.programBit {s : State} {v w b r : Word32} {o : Oracle} (hw : s.cfg.wf = true) (hr : isRow r = true)
    (ho : s.oracle.nextStatus = (v, o)) (hv : isReadyWord s.cfg v = true) :
    Runs 11 (programBitProg w b r) s (pulsedBit s v o (composeAddr w b r)) := by
  have h1 : Runs 5 [.call .waitReady] s (readyPolled s v o) := Runs.call (i := .waitReady) (Runs.waitReady ho hv)
  have h2 : Runs 3 [.call (.wrReg offAdr (composeAddr w b r))] (readyPolled s v o) _ :=
    Runs.call (i := .wrReg offAdr (composeAddr w b r)) (Runs.writeAdr _ _)
  have h3 : Runs 3 [.callPulse] ((readyPolled s v o).noteAdr (composeAddr w b r))
      (pulsedBit s v o (composeAddr w b r)) := by
    refine Runs.framed (i := .wrReg offMode s.cfg.cwProg) (ps := [.pulseWrite])
      (fun op phase callers => by simp [runPrim, readyPolled]) (by simp) (Runs.single fun c => ?_)
    simp only [runPrim, pulseWrite]
    rw [modeWrite_prog rfl (by exact hw),
      programCommand_of_adr (a := composeAddr w b r) (by rfl) (isPhysBit_composeAddr hr w b)]
    rfl
  exact (h1.append (h2.append h3 (by simp)) (by simp)).congr rfl (by simp [programBitProg, hr]) rfl

/-- What POWER(true) leaves over a clean readback (R121). -/
def poweredOn (s : State) (mr : Word32) (o : Oracle) : State :=
  ((((s.setOracle o).emit (.rd offMode mr)).setRet mr).noteMode s.cfg.cwPwron).setPowered true

/-- What READ_PHYS leaves after its read command `cw` (R150). -/
def readIssued (s : State) (pw cw st1 : Word32) (o2 : Oracle) : State :=
  ((readyPolled s st1 o2).noteAdr pw).noteMode cw

/-- What READ_PHYS leaves after the read of RD_DATA (R150). -/
def dataRead (s : State) (d : Word32) (o : Oracle) : State :=
  ((s.setOracle o).emit (.rd offRdData d)).setRet d

/-- What READ_PHYS with the command word `cw` leaves, from the answers it reads (R150). -/
def physRead (s : State) (pw cw mr st1 st2 d : Word32) (o1 o2 o3 o4 : Oracle) : State :=
  dataRead (readyPolled (readIssued (poweredOn s mr o1) pw cw st1 o2) st2 o3) d o4

@[simp] theorem poweredOn_cfg (s : State) (mr : Word32) (o : Oracle) : (poweredOn s mr o).cfg = s.cfg := rfl
@[simp] theorem poweredOn_oracle (s : State) (mr : Word32) (o : Oracle) : (poweredOn s mr o).oracle = o := rfl
@[simp] theorem poweredOn_powered (s : State) (mr : Word32) (o : Oracle) :
    (poweredOn s mr o).powered = some true := rfl
@[simp] theorem readIssued_cfg (s : State) (pw cw st1 : Word32) (o2 : Oracle) :
    (readIssued s pw cw st1 o2).cfg = s.cfg := rfl
@[simp] theorem readIssued_oracle (s : State) (pw cw st1 : Word32) (o2 : Oracle) :
    (readIssued s pw cw st1 o2).oracle = o2 := rfl

/-- A read command with power on and a valid address changes `modeLast` and the trace (R221). -/
theorem modeWrite_read {s : State} {pw mode : Word32} {c : Config} (hc : s.cfg = c) (hw : c.wf = true)
    (hmode : mode = c.mAread ∨ mode = c.mMread) (hp : s.powered = some true) (ha : s.adrLast = some pw)
    (hpw : isPhysWord pw = true) :
    modeWrite (mode ||| c.mCmd) s = .next (s.noteMode (mode ||| c.mCmd)) := by
  rcases hmode with rfl | rfl
  · exact (modeWrite_aread hc hw).trans (readCommand_of_powered (a := pw) hp ha hpw)
  · exact (modeWrite_mread hc hw).trans (readCommand_of_powered (a := pw) hp ha hpw)

/-- READ_PHYS to its first wait, over a clean readback (R150). -/
theorem Runs.powerCall {s : State} {c : Config} {mr : Word32} {o : Oracle} (hc : s.cfg = c) (hw : c.wf = true)
    (ho : s.oracle.nextMode = (mr, o)) (hm : cleanReadback c mr = true) :
    Runs 8 [.call (.power true)] s (poweredOn s mr o) := by
  subst hc
  exact Runs.call (i := .power true) (Runs.powerOn hw ho hm)

/-- READ_PHYS from its first wait to its read command (R150). -/
theorem Runs.readIssued {s : State} {c : Config} {pw mode st1 : Word32} {o2 : Oracle} (hc : s.cfg = c)
    (hw : c.wf = true) (hp : isPhysWord pw = true) (hmode : mode = c.mAread ∨ mode = c.mMread)
    (hpow : s.powered = some true) (h2 : s.oracle.nextStatus = (st1, o2)) (hs1 : isReadyWord c st1 = true) :
    Runs 11 [.call .waitReady, .call (.wrReg offAdr pw), .call (.wrReg offMode (mode ||| c.mCmd))] s
      (Machine.readIssued s pw (mode ||| c.mCmd) st1 o2) := by
  have hm : modeWrite (mode ||| c.mCmd) ((readyPolled s st1 o2).noteAdr pw) =
      .next (Machine.readIssued s pw (mode ||| c.mCmd) st1 o2) :=
    modeWrite_read (by simpa using hc) hw hmode (by simpa using hpow) rfl hp
  have a1 : Runs 5 [.call .waitReady] s _ := Runs.call (i := .waitReady) (Runs.waitReady h2 (by rw [hc, hs1]))
  have a2 : Runs 3 [.call (.wrReg offAdr pw)] (readyPolled s st1 o2) _ :=
    Runs.call (i := .wrReg offAdr pw) (Runs.writeAdr _ pw)
  have a3 : Runs 3 [.call (.wrReg offMode (mode ||| c.mCmd))] ((readyPolled s st1 o2).noteAdr pw) _ :=
    Runs.call (i := .wrReg offMode (mode ||| c.mCmd)) (Runs.writeMode hm)
  exact a1.append (a2.append a3 (by simp)) (by simp)

/-- The phase of READ_PHYS past its operand checks (R150). -/
theorem readPhysProg_eq {c : Config} {pw mode : Word32} (hmode : mode = c.mAread ∨ mode = c.mMread)
    (hp : isPhysWord pw = true) : readPhysProg c pw mode = [.call (.power true)] ++
      ([.call .waitReady, .call (.wrReg offAdr pw), .call (.wrReg offMode (mode ||| c.mCmd))] ++
        ([.call .waitReady] ++ [.call (.rdReg offRdData)])) := by
  have hm' : ¬(mode ≠ c.mAread ∧ mode ≠ c.mMread) := by
    rcases hmode with rfl | rfl <;> simp
  simp [readPhysProg, hm', hp]

/-- READ_PHYS in either mode, over a clean readback and with nothing busy (R150). -/
theorem Runs.readPhys {s : State} {c : Config} {pw mode mr st1 st2 d : Word32} {o1 o2 o3 o4 : Oracle}
    (hc : s.cfg = c) (hw : c.wf = true)
    (hp : isPhysWord pw = true) (hmode : mode = c.mAread ∨ mode = c.mMread)
    (h1 : s.oracle.nextMode = (mr, o1)) (hm : cleanReadback c mr = true)
    (h2 : o1.nextStatus = (st1, o2)) (hs1 : isReadyWord c st1 = true)
    (h3 : o2.nextStatus = (st2, o3)) (hs2 : isReadyWord c st2 = true) (h4 : o3.nextRdData = (d, o4)) :
    Runs 27 (readPhysProg c pw mode) s (physRead s pw (mode ||| c.mCmd) mr st1 st2 d o1 o2 o3 o4) := by
  have ra := Runs.powerCall hc hw h1 hm
  have rb := Runs.readIssued (s := poweredOn s mr o1) (c := c) (pw := pw) (mode := mode) (st1 := st1) (o2 := o2)
    (by simpa using hc) hw hp hmode (by simp) (by simpa using h2) hs1
  have rc : Runs 5 [.call .waitReady] (Machine.readIssued (poweredOn s mr o1) pw (mode ||| c.mCmd) st1 o2) _ :=
    Runs.call (i := .waitReady) (Runs.waitReady (v := st2) (o := o3) (by simpa using h3) (by simpa [hc] using hs2))
  have rd : Runs 3 [.call (.rdReg offRdData)]
      (readyPolled (Machine.readIssued (poweredOn s mr o1) pw (mode ||| c.mCmd) st1 o2) st2 o3)
      (physRead s pw (mode ||| c.mCmd) mr st1 st2 d o1 o2 o3 o4) :=
    Runs.call (i := .rdReg offRdData) (Runs.read rfl (by rw [readAnswer_rdData, readyPolled_oracle, h4]))
  rw [readPhysProg_eq hmode hp]
  exact ra.append (rb.append (rc.append rd (by simp)) (by simp)) (by simp)

/-- READ_PHYS timed out in its first wait: no address, no read command (R150, R246). -/
theorem Stops.readPhys_first {s : State} {c : Config} {pw mode mr st1 : Word32} {o1 o2 : Oracle}
    (hc : s.cfg = c) (hw : c.wf = true) (hp : isPhysWord pw = true) (hmode : mode = c.mAread ∨ mode = c.mMread)
    (h1 : s.oracle.nextMode = (mr, o1)) (hm : cleanReadback c mr = true) (hl : c.pollLimit = some 1)
    (h2 : o1.nextStatus = (st1, o2)) (hs1 : isReadyWord c st1 = false) :
    Stops 12 (readPhysProg c pw mode) s
      (.next ((busyPolled (readyPolled (poweredOn s mr o1) st1 o2)).raiseError .errTimeout .readyTimeout)) := by
  have ra := Runs.powerCall hc hw h1 hm
  rw [readPhysProg_eq hmode hp]
  refine ra.stops ((Stops.call (k := 3) (i := .waitReady) (Stops.waitReady ?_ ?_ ?_) _)) (by simp)
  · simpa using h2
  · simpa [hc] using hs1
  · simpa [hc] using hl

/-- READ_PHYS timed out in its second wait: RD_DATA is not read (R150, R246). -/
theorem Stops.readPhys_second {s : State} {c : Config} {pw mode mr st1 st2 : Word32} {o1 o2 o3 : Oracle}
    (hc : s.cfg = c) (hw : c.wf = true) (hp : isPhysWord pw = true) (hmode : mode = c.mAread ∨ mode = c.mMread)
    (h1 : s.oracle.nextMode = (mr, o1)) (hm : cleanReadback c mr = true) (hl : c.pollLimit = some 1)
    (h2 : o1.nextStatus = (st1, o2)) (hs1 : isReadyWord c st1 = true)
    (h3 : o2.nextStatus = (st2, o3)) (hs2 : isReadyWord c st2 = false) :
    Stops 23 (readPhysProg c pw mode) s
      (.next ((busyPolled (readyPolled (Machine.readIssued (poweredOn s mr o1) pw (mode ||| c.mCmd) st1 o2) st2
        o3)).raiseError .errTimeout .readyTimeout)) := by
  have ra := Runs.powerCall hc hw h1 hm
  have rb := Runs.readIssued (s := poweredOn s mr o1) (c := c) (pw := pw) (mode := mode) (st1 := st1) (o2 := o2)
    (by simpa using hc) hw hp hmode (by simp) (by simpa using h2) hs1
  rw [readPhysProg_eq hmode hp]
  refine ra.stops (rb.stops (Stops.call (k := 3) (i := .waitReady) (Stops.waitReady ?_ ?_ ?_) _) (by simp)) (by simp)
  · simpa using h3
  · simpa [hc] using hs2
  · simpa [hc] using hl

/-! ### The shadow reader's pieces -/

/-- The address checks pass (R180). -/
theorem Runs.checkAddr {s : State} {addr : Word32} (hr : addrInRange addr = true) (ha : addrAligned addr = true) :
    Runs 1 [.checkAddr addr] s s :=
  Runs.single fun _ => by simp [runPrim, Machine.checkAddr, hr, ha]

/-- What READ_SHADOW leaves, the clock available (R180). -/
def shadowRead (s : State) (o : Oracle) (k : Nat) : State :=
  { s with
    oracle := o
    work := { s.work with ret := shadowWord s k }
    trace := s.trace ++ shadowReadEvents s k
    clockOn := false }

/-- ClockEnable that succeeds (R180). -/
theorem Runs.clockEnable {s : State} {o : Oracle} (h : s.oracle.nextClock = (true, o)) :
    Runs 1 [.clockEnable] s (((s.setOracle o).emit (.clkOn true)).setClock true) :=
  Runs.single fun _ => by simp [runPrim, Machine.clockEnable, h]

/-- The answer to the read READ_SHADOW makes (R180). -/
theorem shadowOff_add {addr : Word32} (hr : addrInRange addr = true) (ha : addrAligned addr = true) :
    shadowOff + addr = BitVec.ofNat 32 (0x100 + 4 * (addr.toNat / 4)) ∧
    (shadowIndex (shadowOff + addr)).toFin = Fin.ofNat 64 (addr.toNat / 4) := by
  have h := (isShadowOffset_add hr ha).2
  have hr : addr.toNat < 256 := of_decide_eq_true hr
  have ha : addr.toNat % 4 = 0 := eq_of_beq ha
  constructor
  · apply BitVec.eq_of_toNat_eq
    simp only [shadowOff, BitVec.ofNat_eq_ofNat, BitVec.toNat_add, BitVec.toNat_ofNat, Nat.reducePow, Nat.reduceMod]
    omega
  · apply Fin.eq_of_val_eq
    rw [show (shadowIndex (shadowOff + addr)).toFin.val = addr.toNat / 4 from h, Fin.val_ofNat,
      Nat.mod_eq_of_lt (by omega)]

/-- READ_SHADOW of an address that passes its checks, the clock available (R180). -/
theorem Runs.readShadow {s : State} {addr : Word32} {o : Oracle} (hr : addrInRange addr = true)
    (ha : addrAligned addr = true) (h : s.oracle.nextClock = (true, o)) :
    Runs 7 (readShadowProg addr) s (shadowRead s o (addr.toNat / 4)) := by
  have hs := (isShadowOffset_add hr ha).1
  obtain ⟨e1, e2⟩ := shadowOff_add hr ha
  have r2 : Runs 1 [.checkClock] (((s.setOracle o).emit (.clkOn true)).setClock true)
      (((s.setOracle o).emit (.clkOn true)).setClock true) :=
    Runs.single fun _ => by simp [runPrim, Machine.checkClock]
  have r3 : Runs 3 [.call (.rdReg (shadowOff + addr))] (((s.setOracle o).emit (.clkOn true)).setClock true)
      (((((s.setOracle o).emit (.clkOn true)).setClock true).emit
        (.rd (BitVec.ofNat 32 (0x100 + 4 * (addr.toNat / 4))) (shadowWord s (addr.toNat / 4)))).setRet
          (shadowWord s (addr.toNat / 4))) := by
    refine Runs.call (i := .rdReg (shadowOff + addr)) (Runs.single fun c => ?_)
    simp only [runPrim]
    rw [regRead_shadow _ hs, e2, e1]
    rfl
  have r4 : Runs 1 [.clockDisable] (((((s.setOracle o).emit (.clkOn true)).setClock true).emit
        (.rd (BitVec.ofNat 32 (0x100 + 4 * (addr.toNat / 4))) (shadowWord s (addr.toNat / 4)))).setRet
          (shadowWord s (addr.toNat / 4))) (shadowRead s o (addr.toNat / 4)) := by
    refine Runs.single fun c => ?_
    simp [runPrim, clockDisable, shadowRead, shadowReadEvents, State.emit, State.setOracle, State.setClock,
      State.setRet, State.setCtl]
  exact (Runs.checkAddr hr ha).append ((Runs.clockEnable h).append (r2.append (r3.append r4 (by simp)) (by simp))
    (by simp)) (by simp)

/-- READ_SHADOW with the clock unavailable (R180, R244). -/
theorem Stops.readShadow {s : State} {addr : Word32} {o : Oracle} (hr : addrInRange addr = true)
    (ha : addrAligned addr = true) (h : s.oracle.nextClock = (false, o)) :
    Stops 3 (readShadowProg addr) s (.next ((((s.setOracle o).emit (.clkOn false)).setClock false).raiseError
      .errResource .clockUnavailable)) := by
  have r2 : Runs 1 [.clockEnable] s (((s.setOracle o).emit (.clkOn false)).setClock false) :=
    Runs.single fun _ => by simp [runPrim, Machine.clockEnable, h]
  refine (Runs.checkAddr hr ha).stops (r2.stops (Stops.single (fun c => ?_) (rests_of_raise _ _ _) _) (by simp)) (by simp)
  simp [runPrim, Machine.checkClock]

/-! ### The checks that end an operation, under any phase -/

variable (s : State) (c : Ctl)

theorem copyInStep_setCtl {ok : Bool} {o : Oracle} (h : s.oracle.nextCopyIn = (ok, o)) : copyInStep (s.setCtl c) =
    if ok then (s.setOracle o).setCtl c else (s.setOracle o).raiseError .errFault .userCopy := by
  simp [copyInStep, h]

theorem copyOutStep_setCtl {ok : Bool} {o : Oracle} (h : s.oracle.nextCopyOut = (ok, o)) :
    copyOutStep (s.setCtl c) =
      if ok then (s.setOracle o).setCtl c else (s.setOracle o).raiseError .errFault .userCopy := by
  simp [copyOutStep, h]

theorem writeGuardStep_setCtl : writeGuardStep (s.setCtl c) =
    if s.cfg.programmingEnabled then s.setCtl c
    else s.raiseError s.cfg.disabledWriteError .programmingDisabled := by
  unfold writeGuardStep
  rfl

theorem checkAddr_setCtl (addr : Word32) : Machine.checkAddr addr (s.setCtl c) =
    if addrInRange addr then
      if addrAligned addr then s.setCtl c else s.raiseError .errFault .addrAlign
    else s.raiseError .errFault .addrRange := by
  simp [Machine.checkAddr]

end Sys2Proof.Machine
end

