-- ==== Sys2Proof/Laws/WordRuns.lean ====
section
/-! SUPPORT. The program-verify state machine's pieces (R161): phases that one state of the machine leaves for
another, the pulses of a row, and a whole row. -/

namespace Sys2Proof.Machine
open Sys2Proof Host

/-! ### Draws -/

theorem drawMany_succ {A : Type} (next : Oracle → A × Oracle) (n : Nat) (o : Oracle) :
    drawMany next (n + 1) o = ((next o).1 :: (drawMany next n (next o).2).1, (drawMany next n (next o).2).2) := rfl

@[simp] theorem length_drawMany {A : Type} (next : Oracle → A × Oracle) (n : Nat) (o : Oracle) :
    (drawMany next n o).1.length = n := by
  induction n generalizing o with
  | zero => rfl
  | succ n ih => simp [drawMany_succ, ih]

theorem drawRead_eq (o : Oracle) : drawRead o =
    (⟨o.nextMode.1, o.nextMode.2.nextStatus.1, o.nextMode.2.nextStatus.2.nextStatus.1,
      o.nextMode.2.nextStatus.2.nextStatus.2.nextRdData.1⟩,
      o.nextMode.2.nextStatus.2.nextStatus.2.nextRdData.2) := rfl

/-! ### The pulses of a row -/

/-- What the pulses at `pas` with the ready answers `sts` leave unchanged, and what they add. -/
structure Pulsed (s t : State) (pas sts : List Word32) : Prop where
  trace : t.trace = s.trace ++ pulseEvents s.cfg pas sts
  pulseLog : t.pulseLog = s.pulseLog ++ pas.map physBitOf
  attemptLog : t.attemptLog = s.attemptLog ++ pas.map physBitOf
  oracle : t.oracle = (drawMany drawPulse pas.length s.oracle).2
  cells : ∀ x, (∀ pa ∈ pas, x ≠ pa.toNat) → t.fuses.read x = s.fuses.read x
  rises : ∀ x, cellRank (s.fuses.read x) ≤ cellRank (t.fuses.read x)
  canonical : t.fuses.wf = true
  powered : t.powered = s.powered
  shadow : t.shadow = s.shadow
  work : ∃ i polls ret, t.work = { s.work with i := i, polls := polls, ret := ret }
  refreshCount : t.refreshCount = s.refreshCount
  fixed : t.cfg = s.cfg ∧ t.mapped = s.mapped ∧ t.clockOn = s.clockOn ∧ t.owner = s.owner ∧ t.dirCmd = s.dirCmd ∧
    t.oneWay = s.oneWay ∧ t.caller = s.caller ∧ t.port = s.port ∧ t.responses = s.responses

theorem Pulsed.nil {s : State} (h : s.fuses.wf = true) : Pulsed s s [] [] := by
  constructor
  case work => exact ⟨s.work.i, s.work.polls, s.work.ret, rfl⟩
  all_goals simp [pulseEvents, h, drawMany]

@[simp] theorem pulsedBit_trace (s : State) (v : Word32) (o : Oracle) (pa : Word32) : (pulsedBit s v o pa).trace =
    s.trace ++ [.rd offStatus v, .wr offAdr pa, .wr offMode s.cfg.cwProg] := by
  simp [pulsedBit, pulseAt, State.noteAttempt, State.noteMode, State.noteAdr, readyPolled]

@[simp] theorem pulsedBit_oracle (s : State) (v : Word32) (o : Oracle) (pa : Word32) :
    (pulsedBit s v o pa).oracle = o.nextPulse.2 := rfl

@[simp] theorem pulsedBit_work (s : State) (v : Word32) (o : Oracle) (pa : Word32) :
    (pulsedBit s v o pa).work = { s.work with polls := 0, ret := v } := rfl

@[simp] theorem pulsedBit_fuses (s : State) (v : Word32) (o : Oracle) (pa : Word32) : (pulsedBit s v o pa).fuses =
    s.fuses.write pa.toNat (cellMax (s.fuses.read pa.toNat) o.nextPulse.1) := rfl

/-- What PROGRAM_BIT adds to the logs, and what it leaves (R142). -/
theorem pulsedBit_others (s : State) (v : Word32) (o : Oracle) (pa : Word32) :
    (pulsedBit s v o pa).pulseLog = s.pulseLog ++ [physBitOf pa] ∧
    (pulsedBit s v o pa).attemptLog = s.attemptLog ++ [physBitOf pa] ∧
    (pulsedBit s v o pa).powered = s.powered ∧ (pulsedBit s v o pa).shadow = s.shadow ∧
    (pulsedBit s v o pa).refreshCount = s.refreshCount ∧
    ((pulsedBit s v o pa).cfg = s.cfg ∧ (pulsedBit s v o pa).mapped = s.mapped ∧
    (pulsedBit s v o pa).clockOn = s.clockOn ∧ (pulsedBit s v o pa).owner = s.owner ∧
    (pulsedBit s v o pa).dirCmd = s.dirCmd ∧ (pulsedBit s v o pa).oneWay = s.oneWay ∧
    (pulsedBit s v o pa).caller = s.caller ∧ (pulsedBit s v o pa).port = s.port ∧
    (pulsedBit s v o pa).responses = s.responses) := by
  simp [pulsedBit, pulseAt, State.noteAttempt, State.noteMode, State.noteAdr, readyPolled]

/-- A cell that a pulse may raise does not fall, nor does any other. -/
theorem Memory.rises_write {lo : Nat} {m : Memory} (hm : Memory.wfFrom lo m = true) (a : Nat) (c : CellState) (x : Nat) :
    cellRank (m.read x) ≤ cellRank ((m.write a (cellMax (m.read a) c)).read x) := by
  by_cases h : x = a
  · rw [h, Memory.read_write_same hm]
    exact cellRank_le_cellMax_left _ _
  · rw [Memory.read_write_other hm h]

/-- One pulse of PROGRAM_BIT, then others (R140, R164). -/
theorem Pulsed.cons {s u t : State} {pa : Word32} {k : Nat} {pas sts : List Word32} (hf : s.fuses.wf = true)
    (hu : u = pulsedBit s s.oracle.nextStatus.1 s.oracle.nextStatus.2 pa)
    (h : Pulsed (u.setWork { u.work with i := k }) t pas sts) :
    Pulsed s t (pa :: pas) ((drawPulse s.oracle).1 :: sts) := by
  have h1 := pulsedBit_trace s s.oracle.nextStatus.1 s.oracle.nextStatus.2 pa
  have h2 := pulsedBit_oracle s s.oracle.nextStatus.1 s.oracle.nextStatus.2 pa
  have h3 := pulsedBit_work s s.oracle.nextStatus.1 s.oracle.nextStatus.2 pa
  have h4 := pulsedBit_fuses s s.oracle.nextStatus.1 s.oracle.nextStatus.2 pa
  obtain ⟨h5, h6, h7, h8, h9, h10⟩ := pulsedBit_others s s.oracle.nextStatus.1 s.oracle.nextStatus.2 pa
  rw [← hu] at h1 h2 h3 h4 h5 h6 h7 h8 h9 h10
  clear hu
  constructor
  case trace => simp [h.trace, h1, h10, pulseEvents, drawPulse]
  case pulseLog => simp [h.pulseLog, h5]
  case attemptLog => simp [h.attemptLog, h6]
  case oracle =>
    rw [h.oracle, State.setWork_oracle, h2]
    rfl
  case cells =>
    intro x hx
    rw [h.cells x fun p hp => hx p (by simp [hp]), State.setWork_fuses, h4,
      Memory.read_write_other hf (hx _ (by simp))]
  case rises =>
    intro x
    refine Nat.le_trans ?_ (h.rises x)
    rw [State.setWork_fuses, h4]
    exact Memory.rises_write hf _ _ x
  case canonical => exact h.canonical
  case powered => simp [h.powered, h7]
  case shadow => simp [h.shadow, h8]
  case work =>
    obtain ⟨i, p, v, e⟩ := h.work
    exact ⟨i, p, v, by simp [e, h3]⟩
  case refreshCount => simp [h.refreshCount, h9]
  case fixed => simp [h.fixed, h10]

/-- Moving the bit cursor does not matter to what pulses do. -/
theorem Pulsed.of_cursor {s t : State} {k : Nat} {pas sts : List Word32}
    (h : Pulsed (s.setWork { s.work with i := k }) t pas sts) : Pulsed s t pas sts := {
  trace := h.trace
  pulseLog := h.pulseLog
  attemptLog := h.attemptLog
  oracle := h.oracle
  cells := h.cells
  rises := h.rises
  canonical := h.canonical
  powered := h.powered
  shadow := h.shadow
  work := by
    obtain ⟨i, p, v, e⟩ := h.work
    exact ⟨i, p, v, by rw [e]; rfl⟩
  refreshCount := h.refreshCount
  fixed := h.fixed }

/-- The bits of `z` from `i` on. -/
def bitsFrom (z : Word32) (i : Nat) : List Nat := (List.range' i (32 - i)).filter fun k => z.getLsbD k

theorem bitsFrom_zero (z : Word32) : bitsFrom z 0 = setBitsOf z := by
  simp [bitsFrom, setBitsOf, List.range_eq_range']

theorem bitsFrom_set {z : Word32} {i : Nat} (hi : i < 32) (h : z.getLsbD i = true) :
    bitsFrom z i = i :: bitsFrom z (i + 1) := by
  unfold bitsFrom
  rw [show 32 - i = (32 - (i + 1)) + 1 by omega, List.range'_succ, List.filter_cons, if_pos h]

theorem bitsFrom_clear {z : Word32} {i : Nat} (hi : i < 32) (h : z.getLsbD i = false) :
    bitsFrom z i = bitsFrom z (i + 1) := by
  unfold bitsFrom
  rw [show 32 - i = (32 - (i + 1)) + 1 by omega, List.range'_succ, List.filter_cons]
  simp [h]

theorem bitsFrom_end (z : Word32) : bitsFrom z 32 = [] := rfl

/-- What WW_PULSE comes to when only the bits `bs` are left: the next pulse, or the margin read (R161). -/
def pulsePhase (vw row value : Word32) : List Nat → List Prim
  | b :: _ => [.call (.programBit vw (BitVec.ofNat 32 b) row), .wwNextBit vw value]
  | [] => [.wwMread vw value]

theorem pulsePhase_head (vw row value : Word32) (bs : List Nat) : (pulsePhase vw row value bs).head? ≠ some .poll := by
  cases bs <;> simp [pulsePhase]

/-- The first `n` pulses of a row, nothing being busy (R164). -/
theorem pulses_go (vw value z row : Word32) (hr : isRow row = true) (c : Config) (hw : c.wf = true) (d : Nat) :
    ∀ (i n : Nat) (s : State), d + i = 32 → s.cfg = c → s.work.i = i → s.work.z = z → rowWord s = row →
      s.fuses.wf = true → n ≤ (bitsFrom z i).length →
      (∀ v ∈ (drawMany drawPulse n s.oracle).1, isReadyWord c v = true) →
      ∃ k t, k ≤ 15 * d + 1 ∧
        Goes k [.wwPulse vw value] s (pulsePhase vw row value ((bitsFrom z i).drop n)) t ∧
        Pulsed s t (((bitsFrom z i).take n).map fun b => composeAddr vw (BitVec.ofNat 32 b) row)
          (drawMany drawPulse n s.oracle).1 ∧
        (n = (bitsFrom z i).length → t.work.i = 32) := by
  induction d with
  | zero =>
    intro i n s hd hc hi hz hrow hf hn hrdy
    obtain rfl : i = 32 := by omega
    obtain rfl : n = 0 := by simpa [bitsFrom_end] using hn
    refine ⟨1, s, by omega, Goes.push (fun op phase callers => ?_) (pulsePhase_head _ _ _ _),
      Pulsed.nil hf, fun _ => hi⟩
    simp [runPrim, wwPulseStep, hi, bitsFrom_end, pulsePhase]
  | succ d ih =>
    intro i n s hd hc hi hz hrow hf hn hrdy
    have hne : i ≠ 32 := by omega
    by_cases hb : z.getLsbD i = true
    · rw [bitsFrom_set (by omega) hb] at hn ⊢
      have g1 : Goes 1 [.wwPulse vw value] s
          [.call (.programBit vw (BitVec.ofNat 32 i) row), .wwNextBit vw value] s :=
        Goes.push (fun op phase callers => by
          have : rowWord (s.setCtl (.run op phase callers)) = row := hrow
          simp [runPrim, wwPulseStep, hi, hz, hb, this, hne]) (by simp)
      rcases n with _ | n
      · exact ⟨1, s, by omega, g1, Pulsed.nil hf, by simp⟩
      · subst hc
        have hv : isReadyWord s.cfg s.oracle.nextStatus.1 = true := hrdy (drawPulse s.oracle).1 (by simp [drawMany_succ])
        have g2 : Runs 13 [.call (.programBit vw (BitVec.ofNat 32 i) row)] s
            (pulsedBit s s.oracle.nextStatus.1 s.oracle.nextStatus.2 (composeAddr vw (BitVec.ofNat 32 i) row)) :=
          Runs.call (i := .programBit vw (BitVec.ofNat 32 i) row) (Runs.programBit hw hr rfl hv)
        have hw' := pulsedBit_work s s.oracle.nextStatus.1 s.oracle.nextStatus.2
          (composeAddr vw (BitVec.ofNat 32 i) row)
        have ho' := pulsedBit_oracle s s.oracle.nextStatus.1 s.oracle.nextStatus.2
          (composeAddr vw (BitVec.ofNat 32 i) row)
        have hf' : (pulsedBit s s.oracle.nextStatus.1 s.oracle.nextStatus.2
            (composeAddr vw (BitVec.ofNat 32 i) row)).fuses.wf = true := by
          rw [pulsedBit_fuses]
          exact Memory.write_wf hf (of_decide_eq_true (isPhysBit_composeAddr hr vw (BitVec.ofNat 32 i))) _
        have hc' := (pulsedBit_others s s.oracle.nextStatus.1 s.oracle.nextStatus.2
          (composeAddr vw (BitVec.ofNat 32 i) row)).2.2.2.2.2.1
        generalize hu : pulsedBit s s.oracle.nextStatus.1 s.oracle.nextStatus.2
          (composeAddr vw (BitVec.ofNat 32 i) row) = u at g2 hw' ho' hf' hc'
        have g3 : Goes 1 [.wwNextBit vw value] u [.wwPulse vw value] (u.setWork { u.work with i := i + 1 }) :=
          Goes.push (fun op phase callers => by simp [runPrim, wwNextBitStep, hw', hi]) (by simp)
        obtain ⟨k, t, hk, g4, p4, e4⟩ := ih (i + 1) n (u.setWork { u.work with i := i + 1 }) (by omega) hc' rfl
          (by simp [hw', hz]) (by simp [rowWord, hw', ← hrow]) hf' (by simpa using hn) (fun v hv => hrdy v (by
            rw [State.setWork_oracle, ho'] at hv
            rw [drawMany_succ]
            exact List.mem_cons_of_mem _ hv))
        refine ⟨_, t, ?_, ((g1.trans (g2.goes (qs := [.wwNextBit vw value]) (by simp))).trans g3).trans g4, ?_, ?_⟩
        · omega
        · rw [State.setWork_oracle, ho'] at p4
          exact Pulsed.cons hf hu.symm p4
        · exact fun e => e4 (by simpa using e)
    · rw [bitsFrom_clear (by omega) (by simpa using hb)] at hn ⊢
      have g1 : Goes 1 [.wwPulse vw value] s [.wwNextBit vw value] s :=
        Goes.push (fun op phase callers => by simp [runPrim, wwPulseStep, hi, hz, hb, hne]) (by simp)
      have g3 : Goes 1 [.wwNextBit vw value] s [.wwPulse vw value] (s.setWork { s.work with i := i + 1 }) :=
        Goes.push (fun op phase callers => by simp [runPrim, wwNextBitStep, hi]) (by simp)
      obtain ⟨k, t, hk, g4, p4, e4⟩ := ih (i + 1) n (s.setWork { s.work with i := i + 1 }) (by omega) hc rfl hz
        hrow hf hn hrdy
      refine ⟨_, t, ?_, (g1.trans g3).trans g4, p4.of_cursor, e4⟩
      omega

/-! ### The reads of a row -/

/-- What the READ_PHYS of a row leaves (R150), from the answers it draws. -/
def rowRead (s : State) (pw cw : Word32) : State :=
  physRead s pw cw (drawRead s.oracle).1.mr (drawRead s.oracle).1.st1 (drawRead s.oracle).1.st2
    (drawRead s.oracle).1.data s.oracle.nextMode.2 s.oracle.nextMode.2.nextStatus.2
    s.oracle.nextMode.2.nextStatus.2.nextStatus.2 (drawRead s.oracle).2

theorem Runs.rowRead {s : State} {c : Config} {pw mode : Word32} (hc : s.cfg = c) (hw : c.wf = true)
    (hp : isPhysWord pw = true) (hmode : mode = c.mAread ∨ mode = c.mMread) (ha : (drawRead s.oracle).1.fits c) :
    Runs 29 [.call (.readPhys pw mode)] s (Machine.rowRead s pw (mode ||| c.mCmd)) := by
  subst hc
  exact Runs.call (i := .readPhys pw mode) (Runs.readPhys rfl hw hp hmode rfl ha.1 rfl ha.2.1 rfl ha.2.2 rfl)

/-- What a row's READ_PHYS changes (R150, R155). -/
theorem rowRead_eq (s : State) (pw cw : Word32) : rowRead s pw cw = { s with
    oracle := (drawRead s.oracle).2
    work := { s.work with polls := 0, ret := (drawRead s.oracle).1.data }
    powered := some true
    adrLast := some pw
    modeLast := some cw
    trace := s.trace ++ (drawRead s.oracle).1.events s.cfg pw cw } := by
  simp [rowRead, physRead, dataRead, readyPolled, readIssued, poweredOn, ReadAnswers.events, State.setRet, State.emit,
    State.setOracle, State.setWork, State.noteMode, State.noteAdr, State.setPowered]

/-- The state at a row's first WW_PULSE (R161 to R163). -/
def rowStarted (s : State) (c : Config) (vw row value : Word32) : State :=
  { s with
    oracle := (drawRead s.oracle).2
    work := { s.work with
      polls := 0
      ret := (drawRead s.oracle).1.data
      cur := (drawRead s.oracle).1.data
      z := bitsToPulse value (drawRead s.oracle).1.data
      i := 0 }
    powered := some true
    adrLast := some (physWordAddr vw row)
    modeLast := some c.cwAread
    trace := s.trace ++ (drawRead s.oracle).1.events c (physWordAddr vw row) c.cwAread }

/-- A row's array read and mask, up to its first pulse (R161 to R163). -/
theorem rowStart_goes {s : State} {c : Config} {vw value row : Word32} (hc : s.cfg = c) (hw : c.wf = true)
    (hr : isRow row = true) (hrow : rowWord s = row) (ha : (drawRead s.oracle).1.fits c) :
    Goes 32 [.wwAread vw value] s [.wwPulse vw value] (rowStarted s c vw row value) := by
  subst hc
  have hp := isPhysWord_physWordAddr hr vw
  have g1 : Goes 1 [.wwAread vw value] s
      ([.call (.readPhys (physWordAddr vw row) s.cfg.mAread)] ++ [.setCur, .wwMask vw value]) s := by
    refine Goes.push (fun op phase callers => ?_) (by simp)
    have : rowWord (s.setCtl (.run op phase callers)) = row := hrow
    simp [runPrim, wwAreadStep, this]
  have g2 := (Runs.rowRead rfl hw hp (.inl rfl) ha).goes (qs := [.setCur, .wwMask vw value]) (by simp)
  let u := rowRead s (physWordAddr vw row) (s.cfg.mAread ||| s.cfg.mCmd)
  have g3 : Goes 1 [.setCur, .wwMask vw value] u [.wwMask vw value] (u.setWork { u.work with cur := u.work.ret }) :=
    Goes.before (Runs.single fun _ => by simp [runPrim]) (by simp)
  have g4 : Goes 1 [.wwMask vw value] (u.setWork { u.work with cur := u.work.ret }) [.wwPulse vw value]
      ((u.setWork { u.work with cur := u.work.ret }).setWork { u.work with
        cur := u.work.ret, z := bitsToPulse value u.work.ret, i := 0 }) :=
    Goes.push (fun op phase callers => by simp [runPrim, wwMaskStep]) (by simp)
  have g := (((g1.trans g2).trans g3).trans g4)
  rw [show u = _ from rowRead_eq s _ _] at g
  exact g

/-- A row's margin read, up to its check (R161, R165). -/
theorem rowEnd_goes {s : State} {c : Config} {vw value row : Word32} (hc : s.cfg = c) (hw : c.wf = true)
    (hr : isRow row = true) (hrow : rowWord s = row) (ha : (drawRead s.oracle).1.fits c) :
    Goes 31 [.wwMread vw value] s [.wwCheck vw value] { s with
      oracle := (drawRead s.oracle).2
      work := { s.work with polls := 0, ret := (drawRead s.oracle).1.data, m := (drawRead s.oracle).1.data }
      powered := some true
      adrLast := some (physWordAddr vw row)
      modeLast := some c.cwMread
      trace := s.trace ++ (drawRead s.oracle).1.events c (physWordAddr vw row) c.cwMread } := by
  subst hc
  have hp := isPhysWord_physWordAddr hr vw
  have g1 : Goes 1 [.wwMread vw value] s
      ([.call (.readPhys (physWordAddr vw row) s.cfg.mMread)] ++ [.setM, .wwCheck vw value]) s := by
    refine Goes.push (fun op phase callers => ?_) (by simp)
    have : rowWord (s.setCtl (.run op phase callers)) = row := hrow
    simp [runPrim, wwMreadStep, this]
  have g2 := (Runs.rowRead rfl hw hp (.inr rfl) ha).goes (qs := [.setM, .wwCheck vw value]) (by simp)
  let u := rowRead s (physWordAddr vw row) (s.cfg.mMread ||| s.cfg.mCmd)
  have g3 : Goes 1 [.setM, .wwCheck vw value] u [.wwCheck vw value] (u.setWork { u.work with m := u.work.ret }) :=
    Goes.before (Runs.single fun _ => by simp [runPrim]) (by simp)
  have g := ((g1.trans g2).trans g3)
  rw [show u = _ from rowRead_eq s _ _] at g
  exact g

/-! ### A row -/

/-- What one row of WRITE_WORD leaves before its check, from the answers it draws (R161). -/
structure RowDone (s t : State) (vw row value : Word32) : Prop where
  trace : t.trace = s.trace ++ (drawRow value s.oracle).1.events s.cfg vw row value
  pulseLog : t.pulseLog = s.pulseLog ++ ((drawRow value s.oracle).1.pulsed vw row value).map physBitOf
  attemptLog : t.attemptLog = s.attemptLog ++ ((drawRow value s.oracle).1.pulsed vw row value).map physBitOf
  oracle : t.oracle = (drawRow value s.oracle).2
  cells : ∀ x, (∀ pa ∈ (drawRow value s.oracle).1.pulsed vw row value, x ≠ pa.toNat) →
    t.fuses.read x = s.fuses.read x
  rises : ∀ x, cellRank (s.fuses.read x) ≤ cellRank (t.fuses.read x)
  canonical : t.fuses.wf = true
  powered : t.powered = some true
  adrLast : t.adrLast = some (physWordAddr vw row)
  shadow : t.shadow = s.shadow
  work : t.work = { s.work with
    cur := (drawRow value s.oracle).1.read.data
    z := bitsToPulse value (drawRow value s.oracle).1.read.data
    i := 32
    m := (drawRow value s.oracle).1.margin.data
    polls := 0
    ret := (drawRow value s.oracle).1.margin.data }
  refreshCount : t.refreshCount = s.refreshCount
  fixed : t.cfg = s.cfg ∧ t.mapped = s.mapped ∧ t.clockOn = s.clockOn ∧ t.owner = s.owner ∧
    t.dirCmd = s.dirCmd ∧ t.oneWay = s.oneWay ∧ t.caller = s.caller ∧ t.port = s.port ∧
    t.responses = s.responses

theorem drawRow_eq (value : Word32) (o : Oracle) :
    let rd := drawRead o
    let ps := drawMany drawPulse (setBitsOf (bitsToPulse value rd.1.data)).length rd.2
    let mg := drawRead ps.2
    drawRow value o = (⟨rd.1, ps.1, mg.1⟩, mg.2) := rfl

/-- One row of WRITE_WORD, from its array read to its check, with nothing busy (R161, R173). -/
theorem row_goes {s : State} {c : Config} {vw value row : Word32} (hc : s.cfg = c) (hw : c.wf = true)
    (hr : isRow row = true) (hrow : rowWord s = row) (hf : s.fuses.wf = true)
    (ha : (drawRow value s.oracle).1.fits c) :
    ∃ k t, k ≤ 544 ∧ Goes k [.wwAread vw value] s [.wwCheck vw value] t ∧ RowDone s t vw row value := by
  obtain ⟨h1, h2, h3⟩ := ha
  have g1 := rowStart_goes (vw := vw) (value := value) hc hw hr hrow h1
  obtain ⟨k, v, hk, g2, p2, e2⟩ := pulses_go vw value (bitsToPulse value (drawRead s.oracle).1.data) row hr c hw 32 0
    (setBitsOf (bitsToPulse value (drawRead s.oracle).1.data)).length (rowStarted s c vw row value) rfl hc rfl rfl hrow
    hf (by rw [bitsFrom_zero]) h2
  rw [bitsFrom_zero, List.drop_length] at g2
  rw [bitsFrom_zero, List.take_length] at p2
  have hvi := e2 (by rw [bitsFrom_zero])
  obtain ⟨f1, f2, f3, f4, f5, f6, f7, f8, f9⟩ := p2.fixed
  obtain ⟨wi, wp, wr, hv⟩ := p2.work
  have ho : v.oracle = (drawMany drawPulse (setBitsOf (bitsToPulse value (drawRead s.oracle).1.data)).length
    (drawRead s.oracle).2).2 := by simpa [rowStarted] using p2.oracle
  have hvr : rowWord v = row := by
    rw [← hrow, rowWord, hv]
    rfl
  have g3 := rowEnd_goes (s := v) (vw := vw) (value := value) (f1.trans hc) hw hr hvr (by rw [ho]; exact h3)
  refine ⟨_, _, ?_, (g1.trans g2).trans g3, ?_⟩
  · omega
  · exact {
      trace := by
        simp only [p2.trace, ho, hc]
        simp [rowStarted, drawRow_eq, RowAnswers.events, RowAnswers.pulsed, rowPulses, hc]
      pulseLog := by simpa [rowStarted, RowAnswers.pulsed, rowPulses, drawRow_eq] using p2.pulseLog
      attemptLog := by simpa [rowStarted, RowAnswers.pulsed, rowPulses, drawRow_eq] using p2.attemptLog
      oracle := by
        simp only [ho]
        rfl
      cells := fun x hx => p2.cells x (by simpa [RowAnswers.pulsed, rowPulses, drawRow_eq] using hx)
      rises := p2.rises
      canonical := p2.canonical
      powered := rfl
      adrLast := rfl
      shadow := p2.shadow
      work := by
        rw [hv] at hvi
        simp only at hvi
        subst hvi
        simp only [hv, ho]
        rfl
      refreshCount := p2.refreshCount
      fixed := ⟨f1, f2, f3, f4, f5, f6, f7, f8, f9⟩ }

/-! ### The instructions that reach WRITE_WORD -/

theorem payloadAddr_payloadBytes (addr value : Word32) : payloadAddr (payloadBytes addr value) = addr := by
  simp [payloadAddr, wordAt, payloadBytes, bytesOfWord, wordOfBytes_bytesOfWord]

theorem payloadValue_payloadBytes (addr value : Word32) : payloadValue (payloadBytes addr value) = value := by
  simp [payloadValue, wordAt, payloadBytes, bytesOfWord, wordOfBytes_bytesOfWord]

/-- The checks of a host write pass (R202, R207, R208). -/
theorem Runs.hostChecks {s : State} {addr : Word32} {o : Oracle} (he : s.cfg.programmingEnabled = true)
    (ho : s.oracle.nextCopyIn = (true, o)) (hr : addrInRange addr = true) (ha : addrAligned addr = true) :
    Runs 3 [.copyIn, .writeGuard, .checkAddr addr] s (s.setOracle o) := by
  have h1 : Runs 1 [.copyIn] s (s.setOracle o) := Runs.single fun c => by
    simp [runPrim, copyInStep_setCtl s c ho]
  have h2 : Runs 1 [.writeGuard] (s.setOracle o) (s.setOracle o) := Runs.single fun c => by
    simp [runPrim, writeGuardStep_setCtl, he]
  exact h1.append (h2.append (Runs.checkAddr hr ha) (by simp)) (by simp)

/-- The pseudocode of the instructions that reach WRITE_WORD: its first state, or the host's checks and the call. -/
theorem WritesWord.program_eq {s : State} {i : Instr} {vw value : Word32} {ok : Value} {start : Oracle}
    (h : WritesWord s i vw value ok start) (c : Config) :
    (program c i = [.wwEntry vw value] ∧ start = s.oracle) ∨
    ∃ addr : Word32, addr.toNat < 256 ∧ addr.toNat % 4 = 0 ∧
      program c i = [.copyIn, .writeGuard, .checkAddr addr, .call (.writeWord vw value)] := by
  rcases h with ⟨rfl, -, rfl⟩ | ⟨-, -, addr, h1, h2, h3, h4⟩
  · exact .inl ⟨rfl, rfl⟩
  · have hv : wordIndexOf addr = vw := by
      apply BitVec.eq_of_toNat_eq
      rw [h3]
      simp [wordIndexOf, Nat.shiftRight_eq_div_pow]
    have hs : streamWriteProg (payloadBytes addr value) = ctrlWriteProg addr value := by
      simp [streamWriteProg, streamWriteLen, payloadAddr_payloadBytes, payloadValue_payloadBytes]
    refine .inr ⟨addr, h1, h2, ?_⟩
    rcases h4 with ⟨rfl, -⟩ | ⟨rfl | rfl | rfl, -⟩ <;> simp only [program, hs] <;> rw [ctrlWriteProg, hv]

/-- Each of them begins on an available machine. -/
theorem WritesWord.exec_begin {s : State} {i : Instr} {vw value : Word32} {ok : Value} {start : Oracle}
    (h : WritesWord s i vw value ok start) (ha : s.available) : exec i s = resume (s.begin i) := by
  rcases h with ⟨rfl, -⟩ | ⟨-, -, addr, -, -, -, ⟨rfl, -⟩ | ⟨rfl | rfl | rfl, -⟩⟩ <;> exact admitMapped_available ha _

/-- How the instructions that reach WRITE_WORD begin. -/
theorem WritesWord.exec_eq {s : State} {i : Instr} {vw value : Word32} {ok : Value} {start : Oracle}
    (h : WritesWord s i vw value ok start) (ha : s.available) :
    (exec i s = drive opSteps (s.acquire.setCtl (.run i [.wwEntry vw value] [])) ∧ start = s.oracle ∧
      ∀ t, returnValue t i = ok) ∨
    (∃ addr, Runs 3 [.copyIn, .writeGuard, .checkAddr addr] s.acquire (s.acquire.setOracle start) ∧
      exec i s = drive opSteps (s.acquire.setCtl
        (.run i ([.copyIn, .writeGuard, .checkAddr addr] ++ [.call (.writeWord vw value)]) [])) ∧
      ∀ t, returnValue t i = ok) := by
  have hx : exec i s = drive opSteps (s.acquire.setCtl (.run i (program s.cfg i) [])) := h.exec_begin ha
  have hv : ∀ t, returnValue t i = ok := fun t => by
    rcases h with ⟨rfl, rfl, -⟩ | ⟨-, -, addr, -, -, -, ⟨rfl, rfl⟩ | ⟨rfl | rfl | rfl, rfl⟩⟩ <;> rfl
  rcases h.program_eq s.cfg with ⟨hp, ho⟩ | ⟨addr, h1, h2, hp⟩ <;> rw [hp] at hx
  · exact .inl ⟨hx, ho, hv⟩
  · rcases h with ⟨rfl, -⟩ | ⟨he, ho, -⟩
    · cases hp
    · exact .inr ⟨addr, Runs.hostChecks (s := s.acquire) he ho (decide_eq_true h1) (beq_iff_eq.mpr h2), hx, hv⟩

/-- An instruction that reaches WRITE_WORD ends as WRITE_WORD's run does. -/
theorem WritesWord.runs {s t : State} {i : Instr} {vw value : Word32} {ok : Value} {start : Oracle} {k : Nat}
    (h : WritesWord s i vw value ok start) (ha : s.available)
    (hr : Runs k [.wwEntry vw value] (s.acquire.setOracle start) t) (hk : k + 5 < opSteps) :
    exec i s = .next (t.endOp (.ok ok)) := by
  rcases h.exec_eq ha with ⟨e, rfl, hv⟩ | ⟨addr, r1, e, hv⟩
  · rw [e, Runs.ends (s := s.acquire) hr i (by omega), hv]
  · have r2 := r1.append (Runs.call (i := .writeWord vw value) hr) (by simp)
    rw [e, r2.ends i (by omega), hv]

/-- And stops as it does. -/
theorem WritesWord.stops {s : State} {i : Instr} {vw value : Word32} {ok : Value} {start : Oracle} {k : Nat}
    {o : Outcome State Fault Refusal} (h : WritesWord s i vw value ok start) (ha : s.available)
    (hr : Stops k [.wwEntry vw value] (s.acquire.setOracle start) o) (hk : k + 4 ≤ opSteps) : exec i s = o := by
  rcases h.exec_eq ha with ⟨e, rfl, hv⟩ | ⟨addr, r1, e, hv⟩
  · rw [e, Stops.ends (s := s.acquire) hr i (by omega)]
  · have r2 := r1.stops (Stops.call (i := .writeWord vw value) hr []) (by simp)
    rw [e, r2.ends i (by omega)]

/-- WW_ENTRY (R161). -/
theorem wwEntry_goes (s : State) (vw value : Word32) :
    Goes 1 [.wwEntry vw value] s [.wwAread vw value] (s.setWork { s.work with errCnt := 0, j := 0 }) :=
  Goes.push (fun op phase callers => by simp [runPrim, wwEntryStep]) (by simp)

/-- The row's check: the error count, then the next row or the refresh (R161, R166). -/
theorem wwCheck_goes (s : State) (vw value : Word32) :
    (s.work.j = 0 → Goes 1 [.wwCheck vw value] s [.wwAread vw value]
      (s.setWork { s.work with errCnt := countRow s.work.errCnt value s.work.m, j := 1 })) ∧
    (s.work.j = 1 → Goes 1 [.wwCheck vw value] s [.wwRefresh]
      (s.setWork { s.work with errCnt := countRow s.work.errCnt value s.work.m })) :=
  ⟨fun h => Goes.push (fun op phase callers => by simp [runPrim, wwCheckStep, h]) (by simp),
    fun h => Goes.push (fun op phase callers => by simp [runPrim, wwCheckStep, h]) (by simp)⟩

/-- The refresh, up to the result (R161, R167). -/
theorem wwRefresh_goes (s : State) :
    Goes 6 [.wwRefresh] s [.wwResult] (refreshCommand (s.noteMode s.cfg.cwRefresh)) := by
  have g1 : Goes 1 [.wwRefresh] s ([.call .refresh] ++ [.wwResult]) s :=
    Goes.push (fun op phase callers => by simp [runPrim]) (by simp)
  exact g1.trans ((Runs.call (i := .refresh) (Runs.refresh s)).goes (by simp))

/-- Two states are equal when their fields are. -/
theorem State.eq_of_fields {s t : State} (h : s.cfg = t.cfg ∧ s.mapped = t.mapped ∧ s.clockOn = t.clockOn ∧
    s.owner = t.owner ∧ s.ctl = t.ctl ∧ s.work = t.work ∧ s.dirCmd = t.dirCmd ∧ s.oneWay = t.oneWay ∧
    s.shadow = t.shadow ∧ s.fuses = t.fuses ∧ s.powered = t.powered ∧ s.pulseLog = t.pulseLog ∧
    s.attemptLog = t.attemptLog ∧ s.trace = t.trace ∧ s.modeLast = t.modeLast ∧ s.adrLast = t.adrLast ∧
    s.refreshCount = t.refreshCount ∧ s.caller = t.caller ∧ s.port = t.port ∧ s.responses = t.responses ∧
    s.oracle = t.oracle) : s = t := by
  cases s
  cases t
  simp_all

/-- The result: nothing more, or ErrIO (R161, R168). -/
theorem wwResult_ends (s : State) : (wordFails s.work.errCnt = false → Runs 1 [.wwResult] s s) ∧
    (wordFails s.work.errCnt = true → Stops 1 [.wwResult] s (.next (s.raiseError .errIO .verifyFailed))) := by
  refine ⟨fun h => Runs.single fun c => ?_, fun h => Stops.single (fun c => ?_) (rests_of_raise _ _ _) _⟩ <;>
    simp [runPrim, wwResultStep, h]

/-- What both rows and the refresh of a WRITE_WORD leave before its result, nothing being busy (R161). -/
theorem word_goes (c : Config) {s : State} {vw value : Word32} (hc : s.cfg = c) (hw : c.wf = true)
    (hf : s.fuses.wf = true) {r0 r1 : RowAnswers} {o0 o1 : Oracle}
    (e0 : drawRow value s.oracle = (r0, o0)) (f0 : r0.fits c) (e1 : drawRow value o0 = (r1, o1)) (f1 : r1.fits c) :
    ∃ k t, k ≤ 1200 ∧ Goes k [.wwEntry vw value] s [.wwResult] t ∧
      (∀ x, (∀ pa ∈ r0.pulsed vw 0 value ++ r1.pulsed vw 1 value, x ≠ pa.toNat) →
        t.fuses.read x = s.fuses.read x) ∧
      (∀ x, cellRank (s.fuses.read x) ≤ cellRank (t.fuses.read x)) ∧
      t = { s with
        ctl := t.ctl
        fuses := t.fuses
        oracle := o1.nextShadow.2
        shadow := o1.nextShadow.1
        refreshCount := s.refreshCount + 1
        work := { s.work with
          j := 1
          errCnt := failingRows value r0.margin.data r1.margin.data
          cur := r1.read.data
          z := value &&& ~~~r1.read.data
          i := 32
          m := r1.margin.data
          polls := 0
          ret := r1.margin.data }
        powered := some true
        adrLast := some (physWordAddr vw 1)
        modeLast := some c.refreshCmd
        attemptLog := s.attemptLog ++ (r0.pulsed vw 0 value ++ r1.pulsed vw 1 value).map physBitOf
        pulseLog := s.pulseLog ++ (r0.pulsed vw 0 value ++ r1.pulsed vw 1 value).map physBitOf
        trace := s.trace ++ r0.events c vw 0 value ++ r1.events c vw 1 value ++
          [.wr offMode c.refreshCmd] } := by
  have g0 := wwEntry_goes s vw value
  obtain ⟨k1, u, hk1, g1, d1⟩ := row_goes (s := s.setWork { s.work with errCnt := 0, j := 0 }) (c := c) (vw := vw)
    (value := value) (row := 0) hc hw rfl rfl hf (by
      show (drawRow value s.oracle).1.fits c
      rw [e0]
      exact f0)
  have hu : u.work = _ := d1.work
  have g2 := (wwCheck_goes u vw value).1 (by
    rw [hu]
    rfl)
  have hov : u.oracle = o0 := by
    rw [d1.oracle]
    show (drawRow value s.oracle).2 = o0
    rw [e0]
  have h0 : (drawRow value (s.setWork { s.work with errCnt := 0, j := 0 }).oracle) = (r0, o0) := e0
  obtain ⟨k3, v, hk3, g3, d3⟩ := row_goes
    (s := u.setWork { u.work with errCnt := countRow u.work.errCnt value u.work.m, j := 1 }) (c := c) (vw := vw)
    (value := value) (row := 1) (d1.fixed.1.trans hc) hw rfl rfl d1.canonical (by
      rw [State.setWork_oracle, hov, e1]
      exact f1)
  have h1 : drawRow value (u.setWork { u.work with
      errCnt := countRow u.work.errCnt value u.work.m, j := 1 }).oracle = (r1, o1) := by
    rw [State.setWork_oracle, hov, e1]
  have g4 := (wwCheck_goes v vw value).2 (by
    rw [d3.work]
    rfl)
  have g5 := wwRefresh_goes (v.setWork { v.work with errCnt := countRow v.work.errCnt value v.work.m })
  have a1 := d1.fixed
  have a3 := d3.fixed
  have b1 := d1.work
  have b3 := d3.work
  have c1 := d1.cells
  have c3 := d3.cells
  have l1 := d1.trace
  have l3 := d3.trace
  have m1 := d1.pulseLog
  have m3 := d3.pulseLog
  have n1 := d1.attemptLog
  have n3 := d3.attemptLog
  have q3 := d3.oracle
  rw [h0] at b1 c1 l1 m1 n1
  rw [h1] at b3 c3 l3 m3 n3 q3
  refine ⟨_, _, ?_, ((((g0.trans g1).trans g2).trans g3).trans g4).trans g5, fun x hx => ?_, fun x => ?_, ?_⟩
  · omega
  · show v.fuses.read x = _
    rw [c3 x fun pa hp => hx pa (List.mem_append.mpr (.inr hp))]
    show u.fuses.read x = _
    rw [c1 x fun pa hp => hx pa (List.mem_append.mpr (.inl hp))]
    rfl
  · exact Nat.le_trans (d1.rises x) (d3.rises x)
  · apply State.eq_of_fields
    have hcfg : v.cfg = c := a3.1.trans (a1.1.trans hc)
    have hor : v.oracle = o1 := q3
    simp only [State.setWork] at a1 a3 b1 b3 l1 l3 m1 m3 n1 n3
    obtain ⟨p1, p2, p3, p4, p5, p6, p7, p8, p9⟩ := a1
    obtain ⟨z1, z2, z3, z4, z5, z6, z7, z8, z9⟩ := a3
    refine ⟨z1.trans p1, z2.trans p2, z3.trans p3, z4.trans p4, rfl, ?_, z5.trans p5, z6.trans p6, ?_, rfl, d3.powered,
      ?_, ?_, ?_, ?_, d3.adrLast, ?_, z7.trans p7, z8.trans p8, z9.trans p9, ?_⟩
    · show ({ v.work with errCnt := countRow v.work.errCnt value v.work.m } : Work) = _
      rw [b3, b1]
      rfl
    · show v.oracle.nextShadow.1 = _
      rw [hor]
    · show v.pulseLog = _
      rw [m3, m1]
      simp
    · show v.attemptLog = _
      rw [n3, n1]
      simp
    · show v.trace ++ [BusEvent.wr offMode v.cfg.cwRefresh] = _
      rw [l3, l1, hcfg, p1, hc]
      simp [Config.cwRefresh]
    · show some v.cfg.cwRefresh = _
      rw [hcfg]
      rfl
    · show v.refreshCount + 1 = _
      rw [d3.refreshCount]
      show u.refreshCount + 1 = _
      rw [d1.refreshCount]
      rfl
    · show v.oracle.nextShadow.2 = _
      rw [hor]

end Sys2Proof.Machine
end

