-- ==== Sys2Proof/Laws/ShadowRuns.lean ====
section
/-! SUPPORT. The loop of READ_BUF (R183): one turn reads a word and copies its bytes, and the turns together fill the
buffer with the virtual bytes. -/

namespace Sys2Proof.Machine
open Sys2Proof Host

/-! ### The shadow view depends on the shadow alone -/

theorem shadowWord_congr {s t : State} (h : t.shadow = s.shadow) (k : Nat) : shadowWord t k = shadowWord s k := by
  simp [shadowWord, h]

theorem virtualByte_congr {s t : State} (h : t.shadow = s.shadow) (a : Nat) : virtualByte t a = virtualByte s a := by
  simp [virtualByte, shadowWord_congr h]

theorem shadowReadEvents_congr {s t : State} (h : t.shadow = s.shadow) (k : Nat) :
    shadowReadEvents t k = shadowReadEvents s k := by
  simp [shadowReadEvents, shadowWord_congr h]

/-! ### Copying a word into the buffer -/

@[simp] theorem length_storeWord (buf : List Byte) (a k : Nat) (v : Word32) :
    (storeWord buf a k v).length = buf.length := by
  unfold storeWord
  simp only [List.foldl]
  grind

/-- A byte of the buffer after the copy of a word at `a`. -/
theorem getElem?_storeWord {buf : List Byte} {a k : Nat} (v : Word32) (hk : buf.length = k) {x : Nat} (hx : x < k) :
    (storeWord buf a k v)[x]? = if a ≤ x ∧ x < a + 4 then some (byteOfWord v (x - a)) else buf[x]? := by
  subst hk
  unfold storeWord
  simp only [List.foldl]
  by_cases h : a ≤ x ∧ x < a + 4
  · rw [if_pos h]
    obtain ⟨d, rfl⟩ : ∃ d, x = a + d := ⟨x - a, by omega⟩
    have : d = 0 ∨ d = 1 ∨ d = 2 ∨ d = 3 := by omega
    rcases this with rfl | rfl | rfl | rfl <;> simp <;> grind
  · rw [if_neg h]
    grind

/-- The buffer of `k` bytes once the words below byte `a` are copied. -/
def bufAt (s : State) (a k : Nat) : List Byte := (List.range k).map fun x => if x < a then virtualByte s x else 0

theorem storeWord_bufAt (s : State) (w k : Nat) :
    storeWord (bufAt s (4 * w) k) (4 * w) k (shadowWord s w) = bufAt s (4 * (w + 1)) k := by
  apply List.ext_getElem?
  intro x
  have hl : (bufAt s (4 * w) k).length = k := by simp [bufAt]
  by_cases hx : x < k
  · rw [getElem?_storeWord _ hl hx]
    simp only [bufAt, List.getElem?_map, List.getElem?_range hx, Option.map_some]
    by_cases h : 4 * w ≤ x ∧ x < 4 * w + 4
    · rw [if_pos h, if_pos (by omega)]
      simp only [virtualByte]
      rw [show x / 4 = w by omega, show x % 4 = x - 4 * w by omega]
    · rw [if_neg h]
      by_cases h2 : x < 4 * w
      · rw [if_pos h2, if_pos (by omega)]
      · rw [if_neg h2, if_neg (by omega)]
  · rw [List.getElem?_eq_none (by rw [length_storeWord, hl]; omega), List.getElem?_eq_none (by simp [bufAt]; omega)]

/-! ### The loop -/

/-- The value of the last word a READ_BUF has read when its turns for the words `w` to `w + d - 1` are over. -/
def lastWord (s : State) (w d : Nat) : Word32 := if d = 0 then s.work.ret else shadowWord s (w + d - 1)

/-- What READ_BUF leaves after its turns for the words `w` to `w + d - 1`, the clock available at each. -/
def bufRead (s : State) (k w d : Nat) : State :=
  { s with
    oracle := (drawMany Oracle.nextClock d s.oracle).2
    work := { s.work with ret := lastWord s w d, buf := bufAt s (4 * (w + d)) k }
    trace := s.trace ++ (List.range' w d).flatMap (shadowReadEvents s) }

/-- The turns for `d` words, the clock available at each (R183). -/
theorem bufLoop_goes {k : Nat} (hk : k ≤ 256) (d : Nat) : ∀ (w : Nat) (s : State), w + d ≤ (k + 3) / 4 →
    s.clockOn = false → (∀ b ∈ (drawMany Oracle.nextClock d s.oracle).1, b = true) → s.work.buf = bufAt s (4 * w) k →
    Goes (11 * d) [.bufLoop (4 * w) k] s [.bufLoop (4 * (w + d)) k] (bufRead s k w d) := by
  induction d with
  | zero =>
    intro w s _ _ _ hb
    rw [show bufRead s k w 0 = s by simp [bufRead, drawMany, lastWord, ← hb]]
    exact Goes.refl _ _
  | succ d ih =>
    intro w s hd hc hcl hb
    have hlt : 4 * w < k := by omega
    have ea : (BitVec.ofNat 32 (4 * w)).toNat = 4 * w := by
      simp only [BitVec.toNat_ofNat]
      omega
    have h1 : s.oracle.nextClock = (true, s.oracle.nextClock.2) := by
      rw [← hcl s.oracle.nextClock.1 (by simp [drawMany])]
    let u := shadowRead s s.oracle.nextClock.2 w
    let v := u.setWork { u.work with buf := bufAt s (4 * (w + 1)) k }
    have g0 : Goes 1 [.bufLoop (4 * w) k] s ([.call (.readShadow (BitVec.ofNat 32 (4 * w)))] ++
        [.bufStore (4 * w) k, .bufLoop (4 * (w + 1)) k]) s :=
      Goes.push (fun op phase callers => by
        simp [runPrim, bufLoopProg, hlt]
        rfl) (by simp)
    have g1 : Runs 9 [.call (.readShadow (BitVec.ofNat 32 (4 * w)))] s u := by
      have g := Runs.call (i := .readShadow (BitVec.ofNat 32 (4 * w))) (Runs.readShadow (s := s)
        (addr := BitVec.ofNat 32 (4 * w)) (decide_eq_true (by rw [ea, vsize]; omega))
        (beq_iff_eq.mpr (by rw [ea]; omega)) h1)
      rw [ea, show 4 * w / 4 = w by omega] at g
      exact g
    have g2 : Runs 1 [.bufStore (4 * w) k] u v := by
      refine Runs.single fun c => ?_
      simp only [runPrim, State.setWork_setCtl, State.setCtl_work]
      rw [show u.work.buf = bufAt s (4 * w) k from hb, show u.work.ret = shadowWord s w from rfl, storeWord_bufAt]
      rfl
    have g3 := ih (w + 1) v (by omega) rfl
      (fun b hb => hcl b (by rw [drawMany_succ]; exact List.mem_cons_of_mem _ hb)) rfl
    have g := ((g0.trans (g1.goes (by simp))).trans (g2.goes (qs := [.bufLoop (4 * (w + 1)) k]) (by simp))).trans g3
    rw [show 11 * d + (1 + (9 + 1)) = 11 * (d + 1) by omega, show w + 1 + d = w + (d + 1) by omega] at g
    have e : bufRead v k (w + 1) d = bufRead s k w (d + 1) := by
      have hev : shadowReadEvents v = shadowReadEvents s := funext fun n => shadowReadEvents_congr rfl n
      have hl : lastWord v (w + 1) d = lastWord s w (d + 1) := by
        unfold lastWord
        rcases d with _ | d
        · rfl
        · rw [if_neg (by omega), if_neg (by omega), show w + 1 + (d + 1) - 1 = w + (d + 1 + 1) - 1 by omega]
          rfl
      have hb2 : ∀ x y, bufAt v x y = bufAt s x y := fun _ _ => rfl
      simp only [bufRead, hev, hl, hb2, drawMany_succ, List.range'_succ, List.flatMap_cons,
        show w + 1 + d = w + (d + 1) by omega]
      simp [v, u, shadowRead, State.setWork, hc]
    rwa [e] at g

/-- READ_BUF up to its turn for word `w` (R183). -/
theorem readBuf_goes {s : State} {n w : Nat} (hw : w ≤ (min n 256 + 3) / 4) (hc : s.clockOn = false)
    (hcl : ∀ b ∈ (drawMany Oracle.nextClock w s.oracle).1, b = true) :
    Goes (11 * w + 1) (readBufProg n) s [.bufLoop (4 * w) (min n 256)] (bufRead s (min n 256) 0 w) := by
  let u := s.setWork { s.work with buf := List.replicate (min n 256) 0 }
  have g1 : Goes 1 (readBufProg n) s [.bufLoop (4 * 0) (min n 256)] u :=
    Goes.before (Runs.single fun _ => by simp [runPrim, u, vsize]) (by simp)
  have hb : u.work.buf = bufAt u (4 * 0) (min n 256) := by
    simp only [u, State.setWork_work, bufAt]
    apply List.ext_getElem <;> simp
  have g := g1.trans (bufLoop_goes (k := min n 256) (by omega) w 0 u (by omega) hc hcl hb)
  rw [Nat.zero_add] at g
  exact g

/-- READ_BUF with the clock always available (R183). -/
theorem Runs.readBuf {s : State} {n : Nat} (hc : s.clockOn = false)
    (hcl : ∀ b ∈ (drawMany Oracle.nextClock ((min n 256 + 3) / 4) s.oracle).1, b = true) :
    Runs (1 + (11 * ((min n 256 + 3) / 4) + 1)) (readBufProg n) s (bufRead s (min n 256) 0 ((min n 256 + 3) / 4)) := by
  refine (readBuf_goes (by omega) hc hcl).trans (Goes.push (qs := []) (fun op phase callers => ?_) (by simp))
  simp only [runPrim, bufLoopProg]
  rw [if_neg (by omega)]
  rfl

/-- READ_BUF whose clock fails at word `w` (R183, R184, R244). -/
theorem Stops.readBuf {s : State} {n w : Nat} (hw : w < (min n 256 + 3) / 4) (hc : s.clockOn = false)
    (hcl : ∀ b ∈ (drawMany Oracle.nextClock w s.oracle).1, b = true)
    (hf : (drawMany Oracle.nextClock w s.oracle).2.nextClock.1 = false) :
    Stops (5 + (11 * w + 1)) (readBufProg n) s (.next (({ bufRead s (min n 256) 0 w with
      oracle := (drawMany Oracle.nextClock w s.oracle).2.nextClock.2
      trace := (bufRead s (min n 256) 0 w).trace ++ [.clkOn false] } : State).raiseError .errResource .clockUnavailable)) := by
  refine (readBuf_goes (Nat.le_of_lt hw) hc hcl).stops ?_
  have g0 : Goes 1 [.bufLoop (4 * w) (min n 256)] (bufRead s (min n 256) 0 w)
      [.call (.readShadow (BitVec.ofNat 32 (4 * w))), .bufStore (4 * w) (min n 256), .bufLoop (4 * w + 4) (min n 256)]
      (bufRead s (min n 256) 0 w) :=
    Goes.push (fun op phase callers => by
      simp only [runPrim, bufLoopProg]
      rw [if_pos (by omega)]
      rfl) (by simp)
  have ea : (BitVec.ofNat 32 (4 * w)).toNat = 4 * w := by
    simp only [BitVec.toNat_ofNat]
    omega
  have g1 := Stops.call (i := .readShadow (BitVec.ofNat 32 (4 * w))) (Stops.readShadow
    (s := bufRead s (min n 256) 0 w) (addr := BitVec.ofNat 32 (4 * w))
    (o := (drawMany Oracle.nextClock w s.oracle).2.nextClock.2) (decide_eq_true (by rw [ea, vsize]; omega))
    (beq_iff_eq.mpr (by rw [ea]; omega)) (by rw [← hf]; rfl))
    [.bufStore (4 * w) (min n 256), .bufLoop (4 * w + 4) (min n 256)]
  have g := g0.stops g1
  rw [show (((bufRead s (min n 256) 0 w).setOracle (drawMany Oracle.nextClock w s.oracle).2.nextClock.2).emit
      (.clkOn false)).setClock false = { bufRead s (min n 256) 0 w with
        oracle := (drawMany Oracle.nextClock w s.oracle).2.nextClock.2
        trace := (bufRead s (min n 256) 0 w).trace ++ [.clkOn false] } by
    simp [State.setOracle, State.emit, State.setClock, bufRead, hc]] at g
  exact g

end Sys2Proof.Machine
end

