-- ==== Sys2Proof/Laws/WordProgress.lean ====
section
/-! SUPPORT. What WRITE_WORD has done before it refreshes: an invariant that every step of the sequencer keeps while
MODE reads back clean (OA1). -/

namespace Sys2Proof.Machine
open Sys2Proof Host

/-! ### What is still to do before the refresh -/

/-- The address of a bit that a WRITE_WORD of `value` at `vw` may pulse (R163, R164). -/
def IsWordPulse (vw value pa : Word32) : Prop :=
  ∃ (k : Nat) (r : Word32), k < 32 ∧ value.getLsbD k = true ∧ (r = 0 ∨ r = 1) ∧
    pa = composeAddr vw (BitVec.ofNat 32 k) r

/-- A word that neither pulses nor refreshes, should it be written to MODE. -/
def isHarmlessWrite (c : Config) (off v : Word32) : Prop :=
  off = offMode → decodeCommand c v ≠ .program ∧ decodeCommand c v ≠ .refresh

/-- The operations that WRITE_WORD of `value` at `vw` and its callers call before the refresh. -/
def callFits (c : Config) (vw value : Word32) : Instr → Prop
  | .cwAread => False
  | .cwMread => False
  | .cwProg => False
  | .cwPwron => False
  | .cwPwrdn => False
  | .cwRefresh => False
  | .cwUndefined _ => False
  | .adrProg _ _ _ => False
  | .adrRead _ _ => False
  | .statusReady _ => False
  | .streamWritePayload _ _ => False
  | .rdmodeArray _ => False
  | .rdmodeMargin _ => False
  | .rdReg _ => True
  | .wrReg off v => isHarmlessWrite c off v
  | .setBits off mask => off = offMode ∧ mask = c.mCmd
  | .waitReady => True
  | .power en => en = true
  | .refresh => False
  | .init => False
  | .teardown => False
  | .compose _ _ _ => False
  | .physWord _ _ => False
  | .wordIndex _ => False
  | .programBit w b r => IsWordPulse vw value (composeAddr w b r)
  | .readPhys _ _ => True
  | .writeWord w v => w = vw ∧ v = value
  | .readShadow _ => False
  | .readBuf _ => False
  | .hCtrlRead _ => False
  | .hCtrlWrite _ _ => False
  | .hCtrlOther _ => False
  | .hStreamWrite _ => False
  | .hStreamRead _ _ => False
  | .hWrite32 _ _ => False

/-- What a primitive before the refresh asks: `adr` says that ADR holds the address of a bit to pulse, `clean` that the
word just read is a clean MODE readback, `z` that the bits to pulse are bits of `value`. -/
def primFits (c : Config) (vw value : Word32) (z adr clean : Prop) : Prim → Prop
  | .regRead _ => True
  | .regWrite off v => isHarmlessWrite c off v
  | .pulseWrite => adr
  | .clockEnable => False
  | .clockDisable => False
  | .call op => callFits c vw value op
  | .callWriteOr off mask => clean ∧ off = offMode ∧ mask = c.mCmd
  | .callPulse => adr
  | .raise _ _ => True
  | .refuse _ => True
  | .pollInit => True
  | .poll => True
  | .pollTest => True
  | .statusAnswer _ => False
  | .checkAddr _ => True
  | .checkClock => False
  | .copyIn => True
  | .copyOut => False
  | .writeGuard => True
  | .mapWindow => False
  | .unmapWindow => False
  | .bufInit _ => False
  | .bufLoop _ _ => False
  | .bufStore _ _ => False
  | .bufSlice _ _ => False
  | .setCur => True
  | .setM => True
  | .wwEntry w v => w = vw ∧ v = value
  | .wwAread w v => w = vw ∧ v = value
  | .wwMask w v => w = vw ∧ v = value
  | .wwPulse w v => w = vw ∧ v = value ∧ z
  | .wwNextBit w v => w = vw ∧ v = value ∧ z
  | .wwMread w v => w = vw ∧ v = value
  | .wwCheck w v => w = vw ∧ v = value
  | .wwRefresh => True
  | .wwResult => False

/-- ADR holds the address of a bit to pulse after a primitive that writes one there. -/
def adrAfter (vw value : Word32) : Prim → Prop
  | .regWrite off v => off = offAdr ∧ IsWordPulse vw value v
  | .call (.wrReg off v) => off = offAdr ∧ IsWordPulse vw value v
  | _ => False

/-- The word just read is a MODE readback. -/
def cleanAfter : Prim → Prop
  | .regRead off => off = offMode
  | _ => False

/-- The primitives that have nothing behind them before the refresh. -/
def isLast : Prim → Bool
  | .wwRefresh => true
  | p => isWordState p

/-- What may still be to do before the refresh. -/
def beforeRefresh (c : Config) (vw value : Word32) (z adr clean : Prop) : List Prim → Prop
  | [] => True
  | p :: ps => primFits c vw value z adr clean p ∧ (isLast p = true → ps = []) ∧
    beforeRefresh c vw value z (adrAfter vw value p) (cleanAfter p) ps

variable {c : Config} {vw value : Word32} {z z' adr adr' clean clean' : Prop}

theorem primFits_mono {p : Prim} (hz : z → z') (ha : adr → adr') (hc : clean → clean')
    (h : primFits c vw value z adr clean p) : primFits c vw value z' adr' clean' p := by
  cases p <;> simp only [primFits] at h ⊢ <;> tauto

theorem beforeRefresh_mono {ps : List Prim} (hz : z → z') (ha : adr → adr') (hc : clean → clean')
    (h : beforeRefresh c vw value z adr clean ps) : beforeRefresh c vw value z' adr' clean' ps := by
  induction ps generalizing adr adr' clean clean' with
  | nil => trivial
  | cons p ps ih => exact ⟨primFits_mono hz ha hc h.1, h.2.1, ih id id h.2.2⟩


/-! ### What the state holds meanwhile -/

/-- ADR holds the address of a bit to pulse. -/
def State.adrPulse (vw value : Word32) (s : State) : Prop := ∃ pa, s.adrLast = some pa ∧ IsWordPulse vw value pa

/-- The word just read is clean, taken as a MODE readback. -/
def State.retClean (s : State) : Prop := cleanReadback s.cfg s.work.ret = true

/-- The bits to pulse are bits of `value` (R163). -/
def State.zWithin (value : Word32) (s : State) : Prop :=
  ∀ k, s.work.z.getLsbD k = true → value.getLsbD k = true

/-- What is still to do comes before the refresh. -/
def State.fits (vw value : Word32) (s : State) : Prop :=
  beforeRefresh s.cfg vw value (s.zWithin value) (s.adrPulse vw value) s.retClean s.remaining

/-- From one state to the other only bits of the word have been pulsed, each by PROGRAM_BIT, and nothing refreshed. -/
structure OnlyPulses (vw value : Word32) (s t : State) : Prop where
  cfg : t.cfg = s.cfg
  shadow : t.shadow = s.shadow
  refreshCount : t.refreshCount = s.refreshCount
  pulses : ∃ pas : List Word32, t.pulseLog = s.pulseLog ++ pas.map physBitOf ∧
    t.attemptLog = s.attemptLog ++ pas.map physBitOf ∧ ∀ pa ∈ pas, IsWordPulse vw value pa

theorem OnlyPulses.of_same {s t : State} (hc : t.cfg = s.cfg) (hs : t.shadow = s.shadow)
    (hr : t.refreshCount = s.refreshCount) (hp : t.pulseLog = s.pulseLog) (ha : t.attemptLog = s.attemptLog) :
    OnlyPulses vw value s t :=
  ⟨hc, hs, hr, [], by simp [hp], by simp [ha], by simp⟩

theorem OnlyPulses.refl (s : State) : OnlyPulses vw value s s := .of_same rfl rfl rfl rfl rfl

theorem OnlyPulses.trans {s t u : State} (h1 : OnlyPulses vw value s t) (h2 : OnlyPulses vw value t u) :
    OnlyPulses vw value s u := by
  obtain ⟨ps, p1, p2, p3⟩ := h1.pulses
  obtain ⟨qs, q1, q2, q3⟩ := h2.pulses
  refine ⟨h2.cfg.trans h1.cfg, h2.shadow.trans h1.shadow, h2.refreshCount.trans h1.refreshCount, ps ++ qs, ?_, ?_, ?_⟩
  · rw [q1, p1, List.map_append, List.append_assoc]
  · rw [q2, p2, List.map_append, List.append_assoc]
  · intro pa h
    rcases List.mem_append.1 h with h | h
    · exact p3 pa h
    · exact q3 pa h

/-- How a primitive before the refresh leaves the operation: ended, or going on before the refresh. -/
structure Kept (vw value : Word32) (s t : State) : Prop where
  pulses : OnlyPulses vw value s t
  goes : (∃ r, t.ctl = .idle ∧ t.owner = none ∧ t.responses = s.responses ++ [(s.owner.getD s.caller, r)]) ∨
    t.isIdle = false ∧ t.owner = s.owner ∧ t.responses = s.responses ∧ t.fits vw value

/-! ### The primitives before the refresh -/

variable {op : Instr} {phase : List Prim} {callers : List Frame}

theorem Kept.of_error {s t : State} (hc : t.cfg = s.cfg) (hs : t.shadow = s.shadow) (hr : t.refreshCount = s.refreshCount)
    (hp : t.pulseLog = s.pulseLog) (ha : t.attemptLog = s.attemptLog) (ho : t.owner = s.owner)
    (hca : t.caller = s.caller) (hre : t.responses = s.responses) (k : ErrorKind) (y : Reason) :
    Kept vw value s (t.raiseError k y) :=
  ⟨.of_same hc hs hr hp ha, .inl ⟨.error k y, rfl, rfl, by
    show t.responses ++ [(t.owner.getD t.caller, _)] = _
    rw [hre, ho, hca]⟩⟩

/-- A primitive that puts `qs` before the rest, in the same frame or in a new one. -/
theorem Kept.of_goes {s t : State} {qs : List Prim} (hc : t.cfg = s.cfg) (hs : t.shadow = s.shadow)
    (hr : t.refreshCount = s.refreshCount) (hp : t.pulseLog = s.pulseLog) (ha : t.attemptLog = s.attemptLog)
    (ho : t.owner = s.owner) (hre : t.responses = s.responses) (hi : t.isIdle = false)
    (hrem : t.remaining = qs ++ s.remaining)
    (hf : beforeRefresh s.cfg vw value (t.zWithin value) (t.adrPulse vw value) t.retClean (qs ++ s.remaining)) :
    Kept vw value s t :=
  ⟨.of_same hc hs hr hp ha, .inr ⟨hi, ho, hre, by unfold State.fits; rw [hc, hrem]; exact hf⟩⟩

/-- A word written to MODE that is neither a program nor a refresh command touches neither the logs nor the shadow. -/
theorem modeWrite_harmless {v : Word32} {s t : State} (h : modeWrite v s = .next t)
    (hv : decodeCommand s.cfg v ≠ .program ∧ decodeCommand s.cfg v ≠ .refresh) :
    ∃ b, t = { s.noteMode v with powered := b } := by
  unfold modeWrite applyCommand at h
  split at h
  · exact absurd ‹_› hv.2
  · cases h
    exact ⟨some false, rfl⟩
  · cases h
    exact ⟨some true, rfl⟩
  · simp only [readCommand] at h
    split at h
    · cases h
    · split at h
      · split at h
        · cases h
          exact ⟨s.powered, rfl⟩
        · cases h
      · cases h
  · exact absurd ‹_› hv.1
  · cases h

/-- A called operation's pseudocode, before what comes after the call. -/
theorem call_fits (hw : c.wf = true) (i : Instr) {ps : List Prim} (hi : callFits c vw value i)
    (hl : isLast (.call i) = true → ps = [])
    (hr : beforeRefresh c vw value z (adrAfter vw value (.call i)) False ps) :
    beforeRefresh c vw value z adr clean (program c i ++ ps) := by
  have last (p : Prim) (hp : isLast p = false) {qs : List Prim} : isLast p = true → qs = [] := fun h => by
    rw [hp] at h
    cases h
  have adrWrite (v : Word32) : isHarmlessWrite c offAdr v := fun h => absurd h (by decide)
  have harmless {v : Word32} {d : Command} (hd : decodeCommand c v = d) (h1 : d ≠ .program) (h2 : d ≠ .refresh) :
      isHarmlessWrite c offMode v := fun _ => hd ▸ ⟨h1, h2⟩
  cases i <;> try exact hi.elim
  case rdReg off => exact ⟨trivial, last _ rfl, beforeRefresh_mono id False.elim False.elim hr⟩
  case wrReg off v => exact ⟨hi, last _ rfl, hr⟩
  case setBits off mask =>
    obtain ⟨rfl, rfl⟩ := hi
    exact ⟨trivial, last _ rfl, ⟨rfl, rfl, rfl⟩, last _ rfl, hr⟩
  case waitReady => exact ⟨trivial, last _ rfl, trivial, last _ rfl, trivial, last _ rfl, hr⟩
  case power en =>
    obtain rfl : en = true := hi
    exact ⟨⟨rfl, rfl⟩, last _ rfl, hr⟩
  case programBit w b r =>
    show beforeRefresh _ _ _ _ _ _ (programBitProg w b r ++ ps)
    unfold programBitProg
    split
    · exact ⟨trivial, last _ rfl, adrWrite _, last _ rfl, ⟨rfl, hi⟩, last _ rfl, hr⟩
    · exact ⟨trivial, last _ rfl, hr⟩
  case readPhys pw mode =>
    show beforeRefresh _ _ _ _ _ _ (readPhysProg c pw mode ++ ps)
    unfold readPhysProg
    split
    · exact ⟨trivial, last _ rfl, hr⟩
    · rename_i hm
      split
      · refine ⟨rfl, last _ rfl, trivial, last _ rfl, adrWrite _, last _ rfl, ?_, last _ rfl, trivial, last _ rfl, trivial,
          last _ rfl, hr⟩
        by_cases ha : mode = c.mAread
        · subst ha
          exact harmless (decodeCommand_aread hw) (by simp) (by simp)
        · obtain rfl : mode = c.mMread := by
            by_contra h
            exact hm ⟨ha, h⟩
          exact harmless (decodeCommand_mread hw) (by simp) (by simp)
      · exact ⟨trivial, last _ rfl, hr⟩
  case writeWord w v => exact ⟨hi, fun _ => hl rfl, hr⟩

/-- A primitive before the refresh, the refresh itself apart. -/
theorem runPrim_kept {p : Prim} {s t : State} (hc : s.ctl = .run op phase callers) (hw : s.cfg.wf = true)
    (hp : primFits s.cfg vw value (s.zWithin value) (s.adrPulse vw value) s.retClean p)
    (hl : isLast p = true → s.remaining = [])
    (hr : beforeRefresh s.cfg vw value (s.zWithin value) (adrAfter vw value p) (cleanAfter p) s.remaining)
    (hm : p = .regRead offMode → s.nextReadbackClean = true) (hn : p ≠ .wwRefresh)
    (h : runPrim p s = .next t) : Kept vw value s t := by
  have hi : s.isIdle = false := by simp [State.isIdle, hc]
  have same {t : State} (hct : t.ctl = s.ctl) (hcf : t.cfg = s.cfg) (hs : t.shadow = s.shadow)
      (hrc : t.refreshCount = s.refreshCount) (hpl : t.pulseLog = s.pulseLog) (ha : t.attemptLog = s.attemptLog)
      (ho : t.owner = s.owner) (hre : t.responses = s.responses) (hz : t.work.z = s.work.z)
      (h1 : adrAfter vw value p → t.adrPulse vw value) (h2 : cleanAfter p → t.retClean) : Kept vw value s t := by
    refine .of_goes (qs := []) hcf hs hrc hpl ha ho hre ?_ ?_ (beforeRefresh_mono ?_ h1 h2 hr)
    · simp [State.isIdle, hct, hc]
    · simp [State.remaining, hct]
    · unfold State.zWithin
      rw [hz]
      exact id
  have push {w : Work} {qs : List Prim}
      (hf : beforeRefresh s.cfg vw value ((s.setWork w).zWithin value) (s.adrPulse vw value) (s.setWork w).retClean
        (qs ++ s.remaining)) : Kept vw value s ((s.setWork w).push qs) := by
    refine .of_goes (qs := qs) ?_ ?_ ?_ ?_ ?_ ?_ ?_ ?_ ?_ ?_ <;>
      simp [State.push, State.setWork, State.isIdle, State.remaining, hc] at hf ⊢
    exact hf
  have enter {i : Instr} {qs : List Prim}
      (hf : beforeRefresh s.cfg vw value (s.zWithin value) (s.adrPulse vw value) s.retClean (qs ++ s.remaining)) :
      Kept vw value s (s.enter i qs) := by
    refine .of_goes (qs := qs) ?_ ?_ ?_ ?_ ?_ ?_ ?_ ?_ ?_ ?_ <;>
      simp [State.enter, State.isIdle, State.remaining, hc] at hf ⊢
    exact hf
  have err (k y) : Kept vw value s (s.raiseError k y) := .of_error rfl rfl rfl rfl rfl rfl rfl rfl k y
  cases p with
  | regRead off =>
    simp only [runPrim] at h
    unfold regRead at h
    split at h
    · cases h
      refine same rfl rfl rfl rfl rfl rfl rfl rfl rfl False.elim fun ho => ?_
      obtain rfl : off = offMode := ho
      show cleanReadback s.cfg (readAnswer offMode s).1 = true
      rw [readAnswer_mode]
      exact hm rfl
    · cases h
  | regWrite off v =>
    simp only [runPrim] at h
    unfold regWrite at h
    split at h
    · split at h
      · rename_i ho
        obtain ⟨b, rfl⟩ := modeWrite_harmless h (hp ho)
        exact same rfl rfl rfl rfl rfl rfl rfl rfl rfl (fun ha => by rw [ha.1] at ho; cases ho) False.elim
      · cases h
        exact same rfl rfl rfl rfl rfl rfl rfl rfl rfl (fun ha => ⟨v, rfl, ha.2⟩) False.elim
    · cases h
  | pulseWrite =>
    obtain ⟨pa, ha, hpa⟩ := hp
    simp only [runPrim, pulseWrite, modeWrite_prog rfl hw, programCommand, State.noteMode, ha] at h
    split at h
    · rename_i u hu
      split at hu
      · cases hu
        cases h
        refine ⟨⟨rfl, rfl, rfl, [pa], rfl, ?_, ?_⟩, .inr ⟨hi, rfl, rfl, beforeRefresh_mono id False.elim False.elim hr⟩⟩
        · rfl
        · rintro x hx
          obtain rfl := List.mem_singleton.1 hx
          exact hpa
      · cases hu
    · cases h
    · cases h
  | clockEnable => cases hp
  | clockDisable => cases hp
  | call i =>
    cases h
    exact enter (call_fits hw i hp hl hr)
  | callWriteOr off mask =>
    cases h
    obtain ⟨hcl, rfl, rfl⟩ := hp
    refine enter ⟨fun _ => ?_, nofun, beforeRefresh_mono id (fun h => h.elim) id hr⟩
    rw [cleanReadback_or hcl, show s.cfg.mCmd = s.cfg.cwPwron from rfl, decodeCommand_pwron hw]
    simp
  | callPulse =>
    cases h
    exact enter ⟨hp, nofun, hr⟩
  | raise kind why => cases h; exact err _ _
  | refuse why => cases h
  | pollInit => cases h; exact same rfl rfl rfl rfl rfl rfl rfl rfl rfl False.elim False.elim
  | poll => cases h; exact same rfl rfl rfl rfl rfl rfl rfl rfl rfl False.elim False.elim
  | pollTest =>
    cases h
    unfold pollTest
    split
    · exact same rfl rfl rfl rfl rfl rfl rfl rfl rfl False.elim False.elim
    · dsimp only
      split
      · exact .of_error (s := s) (t := s.setWork { s.work with polls := s.work.polls + 1 }) rfl rfl rfl rfl rfl rfl rfl rfl _ _
      · exact push ⟨trivial, nofun, trivial, nofun, hr⟩
  | statusAnswer v => cases hp
  | checkAddr addr =>
    cases h
    unfold checkAddr
    split
    · split
      · exact same rfl rfl rfl rfl rfl rfl rfl rfl rfl False.elim False.elim
      · exact err _ _
    · exact err _ _
  | checkClock => cases hp
  | copyIn =>
    cases h
    unfold copyInStep
    dsimp only
    split
    · exact same rfl rfl rfl rfl rfl rfl rfl rfl rfl False.elim False.elim
    · exact .of_error (s := s) (t := s.setOracle s.oracle.nextCopyIn.2) rfl rfl rfl rfl rfl rfl rfl rfl _ _
  | copyOut => cases hp
  | writeGuard =>
    cases h
    unfold writeGuardStep
    split
    · exact same rfl rfl rfl rfl rfl rfl rfl rfl rfl False.elim False.elim
    · exact err _ _
  | mapWindow => cases hp
  | unmapWindow => cases hp
  | bufInit k => cases hp
  | bufLoop a k => cases hp
  | bufStore a k => cases hp
  | bufSlice off k => cases hp
  | setCur => cases h; exact same rfl rfl rfl rfl rfl rfl rfl rfl rfl False.elim False.elim
  | setM => cases h; exact same rfl rfl rfl rfl rfl rfl rfl rfl rfl False.elim False.elim
  | wwEntry w v =>
    cases h
    have hl := hl rfl
    exact push ⟨hp, by simp [hl], by rw [hl]; trivial⟩
  | wwAread w v =>
    cases h
    have hl := hl rfl
    exact push (w := s.work) ⟨trivial, nofun, trivial, nofun, hp, by simp [hl], by rw [hl]; trivial⟩
  | wwMask w v =>
    cases h
    have hl := hl rfl
    obtain ⟨rfl, rfl⟩ := hp
    refine push ⟨⟨rfl, rfl, fun k hk => ?_⟩, by simp [hl], by rw [hl]; trivial⟩
    simp [State.setWork, bitsToPulse] at hk
    exact hk.1
  | wwPulse w v =>
    cases h
    have hl := hl rfl
    obtain ⟨rfl, rfl, hz⟩ := hp
    unfold wwPulseStep
    split
    · exact push (w := s.work) ⟨⟨rfl, rfl⟩, by simp [hl], by rw [hl]; trivial⟩
    · split
      · rename_i hb
        refine push (w := s.work) ⟨⟨s.work.i, rowWord s, ?_, hz _ hb, ?_, rfl⟩, nofun, ⟨rfl, rfl, hz⟩,
          by simp [hl], by rw [hl]; trivial⟩
        · by_contra hge
          rw [BitVec.getLsbD_of_ge _ _ (by omega)] at hb
          cases hb
        · unfold rowWord
          generalize s.work.j = j
          revert j
          decide
      · exact push (w := s.work) ⟨⟨rfl, rfl, hz⟩, by simp [hl], by rw [hl]; trivial⟩
  | wwNextBit w v =>
    cases h
    have hl := hl rfl
    exact push ⟨hp, by simp [hl], by rw [hl]; trivial⟩
  | wwMread w v =>
    cases h
    have hl := hl rfl
    exact push (w := s.work) ⟨trivial, nofun, trivial, nofun, hp, by simp [hl], by rw [hl]; trivial⟩
  | wwCheck w v =>
    cases h
    have hl := hl rfl
    unfold wwCheckStep
    split
    · exact push ⟨hp, by simp [hl], by rw [hl]; trivial⟩
    · exact push ⟨trivial, by simp [hl], by rw [hl]; trivial⟩
  | wwRefresh => exact absurd rfl hn
  | wwResult => cases hp

/-! ### A WRITE_WORD from its beginning to its end -/

/-- What the refresh and the result still have to do: no wait, so no ErrTimeout. -/
def isRefreshing : Prim → Bool
  | .call .refresh => true
  | .call (.wrReg _ _) => true
  | .regWrite _ _ => true
  | .wwResult => true
  | _ => false

/-- How far a WRITE_WORD for the requester `q` has come since it began in `s`. -/
inductive WordProgress (vw value : Word32) (q : RequesterId) (s t : State) : Prop where
  | before (h : OnlyPulses vw value s t) (hi : t.isIdle = false) (ho : t.owner = some q)
      (hr : t.responses = s.responses) (hf : t.fits vw value)
  | refreshing (hi : t.isIdle = false) (ho : t.owner = some q) (hr : t.responses = s.responses)
      (hf : ∀ p ∈ t.remaining, isRefreshing p = true)
  | ended (r : OpResult) (hi : t.ctl = .idle) (ho : t.owner = none) (hr : t.responses = s.responses ++ [(q, r)])
      (h : r = .error .errTimeout .readyTimeout → OnlyPulses vw value s t)

variable {q : RequesterId}

/-- A step of the sequencer moves a WRITE_WORD on, while MODE reads back clean. -/
theorem WordProgress.seqStep {s t u : State} (hw : s.cfg.wf = true) (h : WordProgress vw value q s t)
    (hm : t.nextPrim = some (.regRead offMode) → t.nextReadbackClean = true)
    (e : Machine.seqStep t = .next u) : WordProgress vw value q s u := by
  cases h with
  | ended r hc ho hr h =>
    rw [seqStep_idle hc] at e
    cases e
    exact .ended r hc ho hr h
  | before h hi ho hr hf =>
    cases seqStep_next e with
    | idle hc e => simp [State.isIdle, hc] at hi
    | returns op f callers hc e =>
      subst e
      refine .before (h.trans (.of_same rfl rfl rfl rfl rfl)) rfl ho hr ?_
      simpa [State.fits, State.remaining, hc, State.zWithin, State.adrPulse, State.retClean] using hf
    | ends op hc e =>
      subst e
      exact .ended (.ok (returnValue t op)) rfl rfl (by simp [State.endOp, ho, hr]) (fun h => by cases h)
    | prim op p phase callers hc e =>
      obtain ⟨hrem, -, -⟩ := toGo_cons hc
      generalize hv : t.setCtl (.run op phase callers) = v at e hrem
      have hvc : v.ctl = .run op phase callers := hv ▸ rfl
      have hcfg : v.cfg = t.cfg := hv ▸ rfl
      have hvo : v.owner = some q := hv ▸ ho
      have hvr : v.responses = s.responses := hv ▸ hr
      have htv : OnlyPulses vw value t v := hv ▸ .of_same rfl rfl rfl rfl rfl
      have hvn : v.nextReadbackClean = t.nextReadbackClean := hv ▸ rfl
      have hvf : beforeRefresh v.cfg vw value (v.zWithin value) (v.adrPulse vw value) v.retClean (p :: v.remaining) := by
        rw [← hrem]
        subst hv
        exact hf
      obtain ⟨hp, hl, hrest⟩ := hvf
      by_cases hn : p = .wwRefresh
      · subst hn
        have hnil := hl rfl
        cases e
        have hpush (qs : List Prim) : v.push qs = v.setCtl (.run op (qs ++ phase) callers) := by
          unfold State.push
          rw [hvc]
          rfl
        have hrem : phase ++ callers.flatMap Frame.phase = [] := by
          unfold State.remaining at hnil
          rw [hvc] at hnil
          exact hnil
        rw [hpush]
        refine .refreshing rfl hvo hvr ?_
        show ∀ p ∈ [.call .refresh, .wwResult] ++ phase ++ callers.flatMap Frame.phase, isRefreshing p = true
        rw [List.append_assoc, hrem]
        intro x hx
        rcases List.mem_cons.1 hx with rfl | hx
        · rfl
        · obtain rfl := List.mem_singleton.1 hx
          rfl
      · have hk := runPrim_kept hvc (by rw [hcfg, h.cfg]; exact hw) hp hl hrest (fun hp => hvn ▸ hm (by
          simp [State.nextPrim, hc, hp])) hn e
        have hpu := (h.trans htv).trans hk.pulses
        rcases hk.goes with ⟨r, h1, h2, h3⟩ | ⟨h1, h2, h3, h4⟩
        · exact .ended r h1 h2 (by simp [h3, hvo, hvr]) fun _ => hpu
        · exact .before hpu h1 (h2.trans hvo) (h3.trans hvr) h4
  | refreshing hi ho hr hf =>
    cases seqStep_next e with
    | idle hc e => simp [State.isIdle, hc] at hi
    | returns op f callers hc e =>
      subst e
      refine .refreshing rfl ho hr ?_
      simpa [State.remaining, hc] using hf
    | ends op hc e =>
      subst e
      exact .ended (.ok (returnValue t op)) rfl rfl (by simp [State.endOp, ho, hr]) (fun h => by cases h)
    | prim op p phase callers hc e =>
      obtain ⟨hrem, -, -⟩ := toGo_cons hc
      generalize hv : t.setCtl (.run op phase callers) = v at e hrem
      have hvc : v.ctl = .run op phase callers := hv ▸ rfl
      have hvo : v.owner = some q := hv ▸ ho
      have hvr : v.responses = s.responses := hv ▸ hr
      rw [hrem] at hf
      have hp := hf p (by simp)
      have hrest : ∀ p ∈ v.remaining, isRefreshing p = true := fun p h => hf p (by simp [h])
      have enter (i : Instr) (x : Prim) (hx : isRefreshing x = true) : WordProgress vw value q s (v.enter i [x]) := by
        refine .refreshing ?_ ?_ ?_ ?_ <;> simp [State.enter, hvc, State.isIdle, hvo, hvr]
        simpa [State.remaining, hvc, hx] using hrest
      have same {u : State} (h1 : u.ctl = v.ctl) (h2 : u.owner = v.owner) (h3 : u.responses = v.responses) :
          WordProgress vw value q s u := by
        refine .refreshing (by simp [State.isIdle, h1, hvc]) (h2.trans hvo) (h3.trans hvr) ?_
        simpa [State.remaining, h1] using hrest
      cases p <;> first | (cases hp; done) | skip
      case call i =>
        cases e
        cases i <;> first | (cases hp; done) | skip
        case refresh => exact enter _ _ rfl
        case wrReg => exact enter _ _ rfl
      case regWrite off w =>
        simp only [runPrim, regWrite] at e
        split at e
        · split at e
          · rcases modeWrite_next e with rfl | ⟨on, rfl⟩ | rfl | ⟨a, -, -, rfl⟩ <;>
              exact same (by simp) (by simp) (by simp)
          · cases e
            exact same rfl rfl rfl
        · cases e
      case wwResult =>
        cases e
        unfold wwResultStep
        split
        · exact .ended (.error .errIO .verifyFailed) rfl rfl (by simp [State.raiseError, State.endOp, hvo, hvr])
            (fun h => by cases h)
        · exact same rfl rfl rfl

/-! ### The trace meanwhile -/

/-- No MODE readback among the events has a bit set but CMD (OA1). -/
def CleanReads (c : Config) (es : List BusEvent) : Prop := ∀ v, .rd offMode v ∈ es → cleanReadback c v = true

theorem modeWrite_trace {v : Word32} {s t : State} (h : modeWrite v s = .next t) :
    t.trace = s.trace ++ [.wr offMode v] := by
  rcases modeWrite_next h with rfl | ⟨on, rfl⟩ | rfl | ⟨a, -, -, rfl⟩ <;> simp

theorem PrimEffect.trace {s t : State} (h : PrimEffect s t) : ∃ es, t.trace = s.trace ++ es := by
  cases h with
  | push w qs =>
    obtain ⟨c, e⟩ := (s.setWork w).push_eq qs
    exact ⟨[], by simp [e]⟩
  | enter i ps =>
    obtain ⟨c, e⟩ := s.enter_eq i ps
    exact ⟨[], by simp [e]⟩
  | mode v t h => exact ⟨_, modeWrite_trace h⟩
  | pulse t h => exact ⟨_, by simpa using modeWrite_trace h⟩
  | _ => exact ⟨_, by first | exact (List.append_nil _).symm | rfl⟩

/-- A step of the sequencer adds to the trace, and a read of MODE adds what MODE answered. -/
theorem seqStep_trace {s t : State} (h : seqStep s = .next t) : ∃ es, t.trace = s.trace ++ es ∧
    (s.nextPrim = some (.regRead offMode) → es = [.rd offMode s.oracle.nextMode.1]) := by
  by_cases hp : s.nextPrim = some (.regRead offMode)
  · unfold State.nextPrim at hp
    split at hp
    · rename_i op p phase callers hc
      cases hp
      rw [seqStep_cons hc] at h
      simp only [runPrim, regRead_mode] at h
      cases h
      exact ⟨_, rfl, fun _ => rfl⟩
    · cases hp
  · obtain ⟨c, e⟩ := seqStep_effect h
    obtain ⟨es, he⟩ := e.trace
    exact ⟨es, he, fun h => absurd h hp⟩

/-- The progress of a WRITE_WORD, as long as the trace shows clean MODE readbacks. -/
def WordProgressed (vw value : Word32) (q : RequesterId) (s t : State) : Prop :=
  ∃ es, t.trace = s.trace ++ es ∧ (CleanReads s.cfg es → WordProgress vw value q s t)

theorem WordProgressed.seqStep {s t u : State} (hw : s.cfg.wf = true) (hc : t.cfg = s.cfg)
    (h : WordProgressed vw value q s t) (e : Machine.seqStep t = .next u) : WordProgressed vw value q s u := by
  obtain ⟨es, he, hp⟩ := h
  obtain ⟨fs, hf, hm⟩ := seqStep_trace e
  refine ⟨es ++ fs, by rw [hf, he, List.append_assoc], fun hclean => ?_⟩
  refine (hp fun v hv => hclean v (List.mem_append_left _ hv)).seqStep hw (fun hn => ?_) e
  have := hclean t.oracle.nextMode.1 (List.mem_append_right _ (by rw [hm hn]; exact List.mem_singleton_self _))
  rw [← hc] at this
  exact this

/-- A WRITE_WORD as it begins. -/
theorem WordProgress.begins {s : State} {i : Instr} {ok : Value} {start : Oracle} (h : WritesWord s i vw value ok start) :
    WordProgress vw value s.caller s (s.begin i) := by
  refine .before (.of_same rfl rfl rfl rfl rfl) rfl rfl rfl ?_
  have hrem : (s.begin i).remaining = program s.cfg i := by simp [State.remaining, State.begin]
  unfold State.fits
  rw [hrem]
  rcases h.program_eq s.cfg with ⟨hp, -⟩ | ⟨addr, -, -, hp⟩ <;> rw [hp]
  · exact ⟨⟨rfl, rfl⟩, fun _ => rfl, trivial⟩
  · exact ⟨trivial, nofun, trivial, nofun, trivial, nofun, ⟨rfl, rfl⟩, fun _ => rfl, trivial⟩

/-- A WRITE_WORD that goes on in an operation's run, or in a later step. -/
theorem WordProgressed.drive {s t u : State} {n : Nat} (hw : s.cfg.wf = true) (hc : t.cfg = s.cfg)
    (h : WordProgressed vw value q s t) (e : Machine.drive n t = .next u) : WordProgressed vw value q s u ∧ u.cfg = s.cfg := by
  refine drive_keeps (P := fun t => WordProgressed vw value q s t ∧ t.cfg = s.cfg) (fun t u h e => ?_) ⟨h, hc⟩ e
  obtain ⟨c, he⟩ := seqStep_effect e
  exact ⟨h.1.seqStep hw h.2 e, he.fixed.cfg.trans h.2⟩

end Sys2Proof.Machine
end

