-- ==== Sys2Proof/Tests/Slice0.lean ====
section
/-! SUPPORT. Checks of the model: the ill-formed terms each check refuses, words written out from the spec's
encodings, vectors of 95_test_vectors.md, and a witness for the hypotheses of every statement. Expected results are
the spec's; each comment names the rule or the vector. -/

namespace Sys2Proof.Tests
open Sys2Proof Sys2Proof.Machine Host

/-! ### Small states -/

/-- The default masks (R9), with two control codes made up for the tests, programming enabled. -/
def cfg : Config := { Config.default with programmingEnabled := true, ioctlRead := 1, ioctlWrite := 2 }

/-- Virtual byte `a` holds the value `a` (95, group V-SR). -/
def shadowBytes : Vector Word32 64 :=
  Vector.ofFn fun k => wordOfBytes (BitVec.ofNat 8 (4 * k.val)) (BitVec.ofNat 8 (4 * k.val + 1))
    (BitVec.ofNat 8 (4 * k.val + 2)) (BitVec.ofNat 8 (4 * k.val + 3))

/-- Mapped, the lock free, the clock off, MODE reading back 0, STATUS ready, clock and copies good (95). -/
def base : State :=
  { State.reset with
    cfg := cfg
    mapped := true
    dirCmd := 0
    oneWay := 0
    shadow := shadowBytes
    oracle := { Oracle.reset with
      mode := List.replicate 4 0
      status := List.replicate 16 0
      clock := List.replicate 64 true
      copyIn := [true]
      copyOut := [true] } }

/-- `base` with known RD_DATA answers. -/
def withData (ds : List Word32) : State := { base with oracle := { base.oracle with rdData := ds } }

/-- `base` with known STATUS answers and a poll limit. -/
def withStatus (sts : List Word32) (limit : Option Nat) : State :=
  { base with cfg := { cfg with pollLimit := limit }, oracle := { base.oracle with status := sts } }

/-- `base` with one known MODE readback. -/
def withMode (mr : Word32) : State := { base with oracle := { base.oracle with mode := [mr] } }

/-- `base` with power on and an address in ADR. -/
def powered (a : Word32) : State := { base with powered := some true, adrLast := some a }

/-- `base` with programming disabled. -/
def disabled : State := { base with cfg := { cfg with programmingEnabled := false } }

/-- `base` with the window unmapped. -/
def unmapped : State := { base with mapped := false }

/-- A requester holds the lock. -/
def locked : State := { base with owner := some 7, caller := 3 }

/-- A WAIT_READY that BUSY holds, one poll made. -/
def heldWait (limit : Option Nat) : State :=
  { withStatus [1] limit with
    owner := some 0
    ctl := .run .waitReady [.poll, .pollTest] []
    work := { Work.reset with polls := 1 } }

/-- A field of the next state. -/
def after {A : Type} (o : Outcome State Fault Refusal) (f : State → A) : Option A :=
  match o with
  | .next t => some (f t)
  | _ => none

def faultOf (o : Outcome State Fault Refusal) : Option Fault :=
  match o with
  | .fault r => some r
  | _ => none

def refusalOf (o : Outcome State Fault Refusal) : Option Refusal :=
  match o with
  | .refused r => some r
  | _ => none

/-- The result an instruction gives and the accesses it makes. -/
def ends (i : Instr) (s : State) : Option (List (RequesterId × OpResult) × List BusEvent) :=
  after (exec i s) fun t => (t.responses, t.trace)

theorem available_base : base.available := ⟨rfl, rfl⟩

/-- The states of the first `n` ticks. -/
def runOf : Nat → State → List State
  | 0, s => [s]
  | n + 1, s =>
    match tick s with
    | .next t => s :: runOf n t
    | _ => [s]

theorem isRun_runOf : ∀ n s, IsRun (runOf n s)
  | 0, _ => trivial
  | n + 1, s => by
    unfold runOf
    split
    · rename_i t ht
      have h := isRun_runOf n t
      rcases n with _ | n
      · exact ⟨.inl ht, trivial⟩
      · unfold runOf at h ⊢
        split at h <;> exact ⟨.inl ht, h⟩
    · trivial

/-- PROGRAM_BIT waits at the port. -/
def pulseWaiting : State :=
  { base with port := [(0, .programBit 5 2 0)], oracle := { base.oracle with pulse := [.weak] } }

/-- POWER(true) waits at the port, and MODE reads back 0. -/
def powerWaiting : State := { base with port := [(0, .power true)] }

/-- REFRESH waits, and brings a word with every bit set. -/
def refreshWaiting : State :=
  { base with
    port := [(0, .refresh)]
    oracle := { base.oracle with shadow := [Vector.replicate 64 0xFFFFFFFF] } }

/-- A READ_PHYS in margin mode about to read RD_DATA of physical word 10, whose bit 0 is Blown. -/
def readingData : State :=
  { withData [1] with
    fuses := [(10, .blown)]
    powered := some true
    adrLast := some 10
    modeLast := some 0x12
    owner := some 0
    ctl := .run (.rdReg offRdData) [.regRead offRdData] [⟨.readPhys 10 2, []⟩] }

/-! ### Well-formedness refuses -/

/-- R9: the defaults are valid. -/
theorem test_wf_config :
    cfg.wf = true ∧ Config.default.wf = true := by decide

/-- R9, D2, D9: shared mask, a mask of two bits, no BUSY bit, a refresh word that is a command, a limit of 0. -/
theorem test_wf_refuses_configs :
    ({ cfg with mPrg := 0x02 } : Config).wf = false ∧ ({ cfg with mCmd := 0x30 } : Config).wf = false ∧
    ({ cfg with sBusy := 0 } : Config).wf = false ∧ ({ cfg with refreshCmd := 0x11 } : Config).wf = false ∧
    ({ cfg with pollLimit := some 0 } : Config).wf = false := by decide

/-- One ill-formed term for each operand check. -/
theorem test_wf_refuses_operands :
    (Instr.cwUndefined 0x11).wf cfg = false ∧ (Instr.statusReady 1).wf cfg = false ∧
    (Instr.rdmodeArray 128).wf cfg = false ∧ (Instr.rdmodeMargin 128).wf cfg = false ∧
    (Instr.rdReg 0x8).wf cfg = false ∧ (Instr.wrReg 0xC 0).wf cfg = false ∧ (Instr.setBits 0x4 0).wf cfg = false ∧
    (Instr.compose 0 0 2).wf cfg = false ∧ (Instr.physWord 0 2).wf cfg = false ∧
    (Instr.programBit 0 0 2).wf cfg = false ∧ (Instr.readPhys 128 1).wf cfg = false ∧
    (Instr.hCtrlOther 1).wf cfg = false := by decide

/-! ### Decoding, word by word -/

/-- R86 over the layout of R84: AREAD 0x01, MREAD 0x02, PRG 0x04, PWR_DN 0x08, CMD 0x10; refresh 0x30. -/
theorem test_decode_commands :
    [0x11, 0x12, 0x14, 0x10, 0x18, 0x30].map (fun b => decode cfg .modeWord [b, 0, 0, 0]) =
      [.ok .cwAread, .ok .cwMread, .ok .cwProg, .ok .cwPwron, .ok .cwPwrdn, .ok .cwRefresh] := by decide

/-- V-MC7 to V-MC10. -/
theorem test_decode_undefined :
    [0x00, 0x01, 0x04, 0x20, 0x13, 0x15, 0x16, 0x17, 0x19, 0x1A, 0x1C, 0x31, 0x50, 0x80000010].all
      (fun v => decide (decodeMode cfg v = .cwUndefined v)) = true := by decide

/-- R81, R82: 0x18B is bit 3, word 5, row 1 (S1); 0xFFF the last bit; 0x7F the last word. -/
theorem test_decode_adr :
    decode cfg .adrProgram [0x8B, 0x01, 0, 0] = .ok (.adrProg 3 5 1) ∧
    decode cfg .adrProgram [0xFF, 0x0F, 0, 0] = .ok (.adrProg 31 63 1) ∧
    decode cfg .adrProgram [0, 0x10, 0, 0] = .error .adrReservedBits ∧
    decode cfg .adrRead [0x7F, 0, 0, 0] = .ok (.adrRead 63 1) ∧
    decode cfg .adrRead [0x80, 0, 0, 0] = .error .adrReservedBits := by decide

/-- R85, R94, R92. -/
theorem test_decode_others :
    decode cfg .statusValue [0xFE, 0xFF, 0xFF, 0xFF] = .ok (.statusReady 0xFFFFFFFE) ∧
    decode cfg .statusValue [1, 0, 0, 0] = .error .statusBusy ∧
    decode cfg .readMode [1, 0, 0, 0, 10, 0, 0, 0] = .ok (.rdmodeArray 10) ∧
    decode cfg .readMode [2, 0, 0, 0, 11, 0, 0, 0] = .ok (.rdmodeMargin 11) ∧
    decode cfg .readMode [4, 0, 0, 0, 10, 0, 0, 0] = .error .unknownReadMode ∧
    decode cfg .streamPayload [0x14, 0, 0, 0, 5, 0, 0, 0] = .ok (.streamWritePayload 0x14 5) ∧
    decode cfg .streamPayload [0x14, 0, 0, 0, 5, 0, 0] = .error .wrongLength := by decide

/-- The table's numbering, at the places of log 9. -/
theorem test_decode_table :
    decodeTableWord 32 0x11 = some .cwAread ∧ decodeTableWord 32 0x18B = some (.adrProg 3 5 1) ∧
    decodeTableWord 32 0x0B = some (.adrRead 5 1) ∧ decodeTableWord 32 1 = some (.rdmodeArray 0) ∧
    decodeTableWord 32 0 = some (.statusReady 0) ∧
    decodeTableWord 64 0x0000000500000014 = some (.streamWritePayload 0x14 5) := by decide

/-- R86, R81, R92, R99. -/
theorem test_encode :
    encode cfg .cwProg = some (.modeWord, [0x14, 0, 0, 0]) ∧
    encode cfg (.adrProg 31 63 1) = some (.adrProgram, [0xFF, 0x0F, 0, 0]) ∧
    encode cfg (.streamWritePayload 0x14 0x5) = some (.streamPayload, [0x14, 0, 0, 0, 5, 0, 0, 0]) ∧
    expandWrite32 0x14 0x5 = .hStreamWrite [0x14, 0, 0, 0, 5, 0, 0, 0] := by decide

/-! ### The translator -/

/-- V-TR2, V-TR9, V-TR11, V-TR12. -/
theorem test_compose :
    ends (.compose 63 31 1) base = some ([(0, .ok (.word 0xFFF))], []) ∧
    ends (.compose 65 3 1) base = some ([(0, .ok (.word 0x183))], []) ∧
    ends (.compose 0 33 0) base = some ([(0, .ok (.word 128))], []) ∧
    refusalOf (exec (.compose 5 3 2) base) = some .rowOutOfRange := by decide

/-- V-TR15 to V-TR17. -/
theorem test_physWord :
    ends (.physWord 63 1) base = some ([(0, .ok (.word 127))], []) ∧
    ends (.physWord 64 0) base = some ([(0, .ok (.word 0))], []) ∧
    refusalOf (exec (.physWord 0 2) base) = some .rowOutOfRange := by decide

/-- V-TR18; admitted in every state (R245). -/
theorem test_wordIndex :
    ends (.wordIndex 252) unmapped = some ([(0, .ok (.word 63))], []) := by decide

/-! ### The register protocol -/

/-- V-RP1, V-RP2 at the last word, V-RP3, and the first offset past SHADOW. -/
theorem test_rdReg :
    ends (.rdReg 0x10) base = some ([(0, .ok (.word 0))], [.rd 0x10 0]) ∧
    ends (.rdReg 0x1FC) base = some ([(0, .ok (.word 0xFFFEFDFC))], [.rd 0x1FC 0xFFFEFDFC]) ∧
    refusalOf (exec (.rdReg 0x8) base) = some .offsetUndefined ∧
    refusalOf (exec (.rdReg 0x200) base) = some .offsetUndefined := by decide

/-- V-RP5, V-RP6, R245. -/
theorem test_wrReg :
    after (exec (.wrReg 0x4 0x18B) base) (fun t => (t.trace, t.adrLast)) = some ([.wr 0x4 0x18B], some 0x18B) ∧
    refusalOf (exec (.wrReg 0xC 1) base) = some .offsetUndefined ∧
    refusalOf (exec (.wrReg 0x4 1) unmapped) = some .primitiveUnmapped := by decide

/-- V-RP7, V-RP10, V-RP11. -/
theorem test_setBits :
    after (exec (.setBits 0x0 0x10) base) (fun t => (t.trace, t.powered)) =
      some ([.rd 0 0, .wr 0 0x10], some true) ∧
    faultOf (exec (.setBits 0x0 0x10) (withMode 0x03)) = some (.macroUndefined 0x13 (some 0x13)) ∧
    refusalOf (exec (.setBits 0x4 1) base) = some .offsetUndefined := by decide

/-- V-RP8, V-RP9. -/
theorem test_setBits_hazards :
    after (exec (.setBits 0x0 0x10) { withMode 0x04 with adrLast := some 10 }) (fun t => (t.pulseLog, t.attemptLog)) =
      some ([10], []) ∧
    after (exec (.setBits 0x0 0x10) (withMode 0x20)) (fun t => t.refreshCount) = some 1 := by decide

/-! ### The handshake -/

/-- V-HS6, V-HS5. -/
theorem test_waitReady :
    ends .waitReady (withStatus [0xFFFFFFFE] none) = some ([(0, .ok .unit)], [.rd 0x10 0xFFFFFFFE]) ∧
    ends .waitReady (withStatus [1] (some 1)) = some ([(0, .error .errTimeout .readyTimeout)], [.rd 0x10 1]) :=
  by decide

/-- V-HS2's reads, V-HS3's second. -/
theorem test_waitReady_holds :
    after (exec .waitReady (withStatus [1, 1, 0] none)) (fun t => (t.held, t.owner, t.trace)) =
      some (true, some 0, [.rd 0x10 1]) ∧
    after (step (heldWait (some 2))) (fun t => (t.responses, t.owner)) =
      some ([(0, .error .errTimeout .readyTimeout)], none) ∧
    after (step { heldWait none with oracle := { base.oracle with status := [0] } }) (fun t => (t.responses, t.ctl)) =
      some ([(0, .ok .unit)], .idle) := by decide

/-- V-HS7, V-HS8, V-HS9. -/
theorem test_power :
    after (exec (.power true) base) (fun t => (t.trace, t.powered)) = some ([.rd 0 0, .wr 0 0x10], some true) ∧
    after (exec (.power false) base) (fun t => (t.trace, t.powered)) = some ([.rd 0 0, .wr 0 0x18], some false) ∧
    after (exec (.power true) (withMode 0x08)) (fun t => (t.trace, t.powered)) =
      some ([.rd 0 8, .wr 0 0x18], some false) := by decide

/-- V-HS10. -/
theorem test_refresh :
    after (exec .refresh { base with oracle := { base.oracle with shadow := [Vector.replicate 64 9] } })
      (fun t => (t.trace, t.refreshCount, t.shadow)) = some ([.wr 0 0x30], 1, Vector.replicate 64 9) :=
  by decide

/-- V-HS11 to V-HS13. -/
theorem test_init :
    after (exec .init { unmapped with oracle := { base.oracle with mapping := [true] } })
      (fun t => (t.trace, t.mapped)) = some ([], true) ∧
    ends .init { unmapped with oracle := { base.oracle with mapping := [false] } } =
      some ([(0, .error .errResource .mapFailed)], []) ∧
    refusalOf (exec .init base) = some .initTwice := by decide

/-- V-HS14, V-HS15. -/
theorem test_teardown :
    after (exec .teardown base) (fun t => t.mapped) = some false ∧
    refusalOf (exec .teardown unmapped) = some .notMapped := by decide

/-! ### Command and address words -/

/-- V-MC2, V-MC3, V-MC12, R228's bound. -/
theorem test_cw_reads :
    ends .cwAread (powered 127) = some ([(0, .ok .unit)], [.wr 0 0x11]) ∧
    ends .cwMread (powered 10) = some ([(0, .ok .unit)], [.wr 0 0x12]) ∧
    faultOf (exec .cwAread { powered 10 with powered := some false }) = some .readUnpowered ∧
    faultOf (exec .cwMread (powered 128)) = some .adrInvalid := by decide

/-- V-MC17, V-MC16, R228's bound. -/
theorem test_cw_prog :
    after (exec .cwProg { base with powered := some false, adrLast := some 0xFFF }) (fun t => (t.pulseLog, t.attemptLog)) =
      some ([0xFFF], []) ∧
    faultOf (exec .cwProg base) = some .adrInvalid ∧ faultOf (exec .cwProg (powered 0x1000)) = some .adrInvalid :=
  by decide

/-- R35, R232: a pulse may raise its cell and never lowers it. -/
theorem test_cell_rises :
    after (exec .cwProg { powered 10 with oracle := { base.oracle with pulse := [.weak] } })
      (fun t => t.fuses) = some [(10, .weak)] ∧
    after (exec .cwProg { powered 10 with fuses := [(10, .blown)], oracle := { base.oracle with pulse := [.blank] } })
      (fun t => t.fuses) = some [(10, .blown)] := by decide

/-- V-MC1, V-MC5. -/
theorem test_cw_power :
    after (exec .cwPwron base) (fun t => t.powered) = some (some true) ∧
    after (exec .cwPwrdn (powered 10)) (fun t => (t.powered, t.shadow)) = some (some false, shadowBytes) :=
  by decide

/-- V-MC6. -/
theorem test_cw_refresh :
    after (exec .cwRefresh base) (fun t => (t.refreshCount, t.modeLast)) = some (1, some 0x30) := by decide

/-- V-MC10, R227. -/
theorem test_cw_undefined :
    faultOf (exec (.cwUndefined 0x80000010) base) = some (.macroUndefined 0x80000010 (some 0x80000010)) :=
  by decide

/-- S1, V-TR15. -/
theorem test_adr_words :
    after (exec (.adrProg 3 5 1) base) (fun t => (t.adrLast, t.trace)) = some (some 0x18B, [.wr 4 0x18B]) ∧
    after (exec (.adrRead 63 1) base) (fun t => t.adrLast) = some (some 127) := by decide

/-- V-HS6. -/
theorem test_statusReady :
    ends (.statusReady 0xFFFFFFFE) base = some ([(0, .ok .unit)], [.rd 0x10 0xFFFFFFFE]) := by decide

/-! ### Array operations -/

/-- V-PB1, V-PB6. -/
theorem test_programBit :
    after (exec (.programBit 5 2 0) base) (fun t => (t.trace, t.pulseLog, t.attemptLog)) =
      some ([.rd 0x10 0, .wr 4 0x10A, .wr 0 0x14], [266], [266]) ∧
    refusalOf (exec (.programBit 5 3 2) base) = some .rowOutOfRange := by decide

/-- V-PB4. -/
theorem test_programBit_timeout :
    after (exec (.programBit 0 0 0) (withStatus [1] (some 1))) (fun t => (t.trace, t.pulseLog, t.adrLast)) =
      some ([.rd 0x10 1], [], none) := by decide

/-- V-PR2, V-PR7, V-PR6. -/
theorem test_readPhys :
    ends (.readPhys 11 2) (withData [5]) = some ([(0, .ok (.word 5))],
      [.rd 0 0, .wr 0 0x10, .rd 0x10 0, .wr 4 0xB, .wr 0 0x12, .rd 0x10 0, .rd 0xC 5]) ∧
    ends (.readPhys 128 4) base = some ([(0, .error .errUnsupported .unknownReadMode)], []) ∧
    refusalOf (exec (.readPhys 128 1) base) = some .physWordOutOfRange := by decide

/-- V-PR8. -/
theorem test_readPhys_timeout :
    ends (.readPhys 0 1) (withStatus [0, 1] (some 1)) = some ([(0, .error .errTimeout .readyTimeout)],
      [.rd 0 0, .wr 0 0x10, .rd 0x10 0, .wr 4 0, .wr 0 0x11, .rd 0x10 1]) := by decide

/-- V-PR1, and the margin command word. -/
theorem test_rdmode :
    ends (.rdmodeArray 10) (withData [0]) = some ([(0, .ok (.word 0))],
      [.rd 0 0, .wr 0 0x10, .rd 0x10 0, .wr 4 0xA, .wr 0 0x11, .rd 0x10 0, .rd 0xC 0]) ∧
    after (exec (.rdmodeMargin 127) (withData [6])) (fun t => (t.adrLast, t.modeLast)) =
      some (some 127, some 0x12) := by decide

/-- S7: the twenty accesses of row 0. -/
theorem test_writeWord_row :
    after (exec (.writeWord 5 5) (withData [0, 7, 0, 5])) (fun t => (t.trace.take 20, t.pulseLog, t.work.errCnt)) =
      some ([.rd 0 0, .wr 0 0x10, .rd 0x10 0, .wr 4 0xA, .wr 0 0x11, .rd 0x10 0, .rd 0xC 0,
        .rd 0x10 0, .wr 4 0x00A, .wr 0 0x14, .rd 0x10 0, .wr 4 0x10A, .wr 0 0x14,
        .rd 0 0, .wr 0 0x10, .rd 0x10 0, .wr 4 0xA, .wr 0 0x12, .rd 0x10 0, .rd 0xC 7], [10, 266, 11, 267], 0) :=
  by decide +kernel

/-- S8, P3. -/
theorem test_writeWord_both_fail :
    after (exec (.writeWord 5 5) (withData [0, 0, 0, 0]))
      (fun t => (t.responses, t.work.errCnt, t.refreshCount, t.pulseLog)) =
      some ([(0, .error .errIO .verifyFailed)], 2, 1, [10, 266, 11, 267]) := by decide +kernel

/-! ### Shadow reads -/

/-- V-SR3, V-SR5, V-SR6. -/
theorem test_readShadow :
    ends (.readShadow 252) base = some ([(0, .ok (.word 0xFFFEFDFC))],
      [.clkOn true, .rd 0x1FC 0xFFFEFDFC, .clkOff]) ∧
    ends (.readShadow 255) base = some ([(0, .error .errFault .addrAlign)], []) ∧
    ends (.readShadow 256) base = some ([(0, .error .errFault .addrRange)], []) := by decide

/-- V-SR8. -/
theorem test_readShadow_clock :
    after (exec (.readShadow 0) { base with oracle := { base.oracle with clock := [false] } })
      (fun t => (t.responses, t.trace, t.clockOn)) =
      some ([(0, .error .errResource .clockUnavailable)], [.clkOn false], false) := by decide

/-- V-SR11, V-SR9, V-SR13. -/
theorem test_readBuf :
    ends (.readBuf 5) base = some ([(0, .ok (.bytes [0, 1, 2, 3, 4]))],
      [.clkOn true, .rd 0x100 0x03020100, .clkOff, .clkOn true, .rd 0x104 0x07060504, .clkOff]) ∧
    ends (.readBuf 0) base = some ([(0, .ok (.bytes []))], []) ∧
    ends (.readBuf 8) { base with oracle := { base.oracle with clock := [true, false] } } =
      some ([(0, .error .errResource .clockUnavailable)],
        [.clkOn true, .rd 0x100 0x03020100, .clkOff, .clkOn false]) := by decide

/-- S6, V-SR12. -/
theorem test_readBuf_clamps :
    after (exec (.readBuf 1000) base) (fun t => (t.trace.length, t.work.buf)) =
      some (192, (List.range 256).map (BitVec.ofNat 8)) := by decide +kernel

/-! ### Host requests -/

/-- P4 line 5, V-HI9. -/
theorem test_hCtrlRead :
    ends (.hCtrlRead 4) base = some ([(0, .ok (.word 0x07060504))],
      [.clkOn true, .rd 0x104 0x07060504, .clkOff]) ∧
    ends (.hCtrlRead 4) { base with oracle := { base.oracle with copyOut := [false] } } =
      some ([(0, .error .errFault .userCopy)], [.clkOn true, .rd 0x104 0x07060504, .clkOff]) := by decide

/-- P5, V-HI7. -/
theorem test_hCtrlWrite :
    after (exec (.hCtrlWrite 0 0x80000001) (withData [1, 1, 0, 0x80000001]))
      (fun t => (t.responses, t.work.errCnt, t.pulseLog, t.trace.length)) =
      some ([(0, .ok .unit)], 1, [3968, 1, 3969], 38) ∧
    ends (.hCtrlWrite 0x14 5) disabled = some ([(0, .error .errUnsupported .programmingDisabled)], []) :=
  by decide +kernel

/-- P6 with the poll limit 1. -/
theorem test_hCtrlWrite_times_out :
    after (exec (.hCtrlWrite 0x8 1) (withStatus [0, 1, 1, 1] (some 1)))
      (fun t => (t.trace, t.pulseLog, t.adrLast)) =
      some ([.rd 0 0, .wr 0 0x10, .rd 0x10 0, .wr 4 4, .wr 0 0x11, .rd 0x10 1], [], some 4) := by decide

/-- V-HI8. -/
theorem test_hCtrlOther :
    ends (.hCtrlOther 3) base = some ([(0, .error .errUnsupported .unknownCtrlRequest)], []) := by decide

/-- S9, V-HI3, V-HI4, V-HI5. -/
theorem test_hStreamWrite :
    ends (.hStreamWrite [0x14, 0, 0, 0, 5, 0, 0]) disabled = some ([(0, .error .errFault .sizeMismatch)], []) ∧
    ends (.hStreamWrite [0, 1, 0, 0, 1, 0, 0, 0]) base = some ([(0, .error .errFault .addrRange)], []) ∧
    ends (.hStreamWrite [0x15, 0, 0, 0, 1, 0, 0, 0]) base = some ([(0, .error .errFault .addrAlign)], []) ∧
    ends (.hStreamWrite [0, 1, 0, 0, 1, 0, 0, 0]) disabled =
      some ([(0, .error .errUnsupported .programmingDisabled)], []) := by decide

/-- P1. -/
theorem test_streamWritePayload :
    after (exec (.streamWritePayload 0x14 5) (withData [0, 7, 0, 5]))
      (fun t => (t.responses, t.pulseLog, t.trace.length, t.modeLast)) =
      some ([(0, .ok (.count 8))], [10, 266, 11, 267], 41, some 0x30) := by decide +kernel

/-- V-WW19 through R99. -/
theorem test_hWrite32 :
    after (exec (.hWrite32 0x14 0) (withData [0, 0, 0, 0]))
      (fun t => (t.responses, t.pulseLog, t.trace.length)) = some ([(0, .ok (.count 8))], [], 29) :=
  by decide +kernel

/-- V-HI12, V-HI10, V-HI11. -/
theorem test_hStreamRead :
    after (exec (.hStreamRead 250 100) base) (fun t => t.responses) =
      some [(0, .ok (.bytes [0xFA, 0xFB, 0xFC, 0xFD, 0xFE, 0xFF]))] ∧
    ends (.hStreamRead 256 4) base = some ([(0, .ok (.bytes []))], []) ∧
    ends (.hStreamRead 1 2) base = some ([(0, .ok (.bytes [1, 2]))], [.clkOn true, .rd 0x100 0x03020100, .clkOff]) :=
  by decide +kernel

/-! ### The lock, the port, a step -/

/-- V-HI14, R245. -/
theorem test_unmapped :
    ends (.hCtrlRead 0) unmapped = some ([(0, .error .errResource .unmapped)], []) ∧
    ends .waitReady unmapped = some ([(0, .error .errResource .unmapped)], []) := by decide

/-- R250. -/
theorem test_locked :
    after (exec .waitReady locked) (fun t => (t.port, t.trace)) = some ([(3, .waitReady)], []) := by decide

/-- V-EX2: one request runs whole, the other waits. -/
theorem test_step_serves :
    after (step { base with port := [(1, .hCtrlRead 2), (2, .hCtrlRead 0)], oracle := { base.oracle with sched := [1] } })
      (fun t => (t.responses, t.port, t.owner)) = some ([(2, .ok (.word 0x03020100))], [(1, .hCtrlRead 2)], none) :=
  by decide

/-- Log 8: the very next step runs the placed word. -/
theorem test_fetch :
    after (step (base.withFetchWord 32 0x10)) (fun t => t.powered) = some (some true) ∧
    after (step (base.withFetchWord 64 0x0000000500000100)) (fun t => t.responses) =
      some [(0, .error .errFault .addrRange)] := by decide

/-- R23, R112, R121: one primitive a tick, SET_BITS nested in POWER. -/
theorem test_tick :
    after (tickRun 2 { base with port := [(0, .power true)] }) (fun t => (t.ctl, t.trace)) =
      some (.run (.setBits 0 0x10) [.regRead 0, .callWriteOr 0 0x10] [⟨.power true, []⟩], []) ∧
    after (tickRun 3 { base with port := [(0, .power true)] }) (fun t => (t.ctl, t.trace)) =
      some (.run (.setBits 0 0x10) [.callWriteOr 0 0x10] [⟨.power true, []⟩], [.rd 0 0]) := by decide

/-- R270, R271: the cells stay, the rest is as after reset. -/
theorem test_resetAgain :
    (State.resetAgain { powered 10 with fuses := [(10, .blown)], pulseLog := [10], refreshCount := 3 }).fuses = [(10, .blown)] ∧
    (powered 10).resetAgain.powered = none ∧ (powered 10).resetAgain.mapped = false ∧
    (powered 10).resetAgain.cfg = cfg ∧
    (State.resetAgain { powered 10 with pulseLog := [10], refreshCount := 3 }).pulseLog = [] := by decide

/-- The canonical form of the fuse array. -/
theorem test_memory :
    Memory.write [(1, .weak), (5, .blown)] 3 .blown = [(1, .weak), (3, .blown), (5, .blown)] ∧
    Memory.write [(1, .weak), (5, .blown)] 1 .blank = [(5, .blown)] ∧
    Memory.wf [(5, .blown), (1, .weak)] = false ∧ Memory.wf [(4096, .weak)] = false ∧
    Memory.wf [(1, .blank)] = false := by decide

/-! ### Witnesses: the hypotheses of every statement can be met -/

theorem witness_CommandDecoderMapsSixWords :
    cfg.wf = true ∧ decodeCommand cfg 0x30 = .refresh ∧ decodeCommand cfg 0x10 = .powerOn ∧
    decodeCommand cfg 0x18 = .powerDown ∧ decodeCommand cfg 0x11 = .read .array ∧
    decodeCommand cfg 0x12 = .read .margin ∧ decodeCommand cfg 0x14 = .program ∧
    decodeCommand cfg 0xFFFFFFFF = .undefined := by decide

theorem witness_DecodeOfEncode :
    cfg.wf = true ∧ (Instr.adrProg 31 63 1).wf cfg = true ∧
    encode cfg (.adrProg 31 63 1) = some (.adrProgram, [0xFF, 0x0F, 0, 0]) := by decide

theorem witness_EncodeOfDecode :
    cfg.wf = true ∧ decode cfg .adrRead [0x7F, 0, 0, 0] = .ok (.adrRead 63 1) := by decide

theorem witness_ControlCodesSelectRequests :
    cfg.ctrlCodesDiffer = true ∧ decodeCtrl cfg 1 4 0 = .hCtrlRead 4 ∧ decodeCtrl cfg 2 4 9 = .hCtrlWrite 4 9 ∧
    decodeCtrl cfg 3 4 9 = .hCtrlOther 3 := by decide

theorem witness_TranslatorFollowsTheFormulas :
    ((1 : Word32) = 0 ∨ (1 : Word32) = 1) ∧ ¬((2 : Word32) = 0 ∨ (2 : Word32) = 1) ∧
    (255 : Word32).toNat < 256 ∧ ¬(256 : Word32).toNat < 256 := by decide

theorem witness_ComposeIsABijection :
    (63 : Word32).toNat < 64 ∧ (31 : Word32).toNat < 32 ∧ (1 : Word32).toNat < 2 := by decide

theorem witness_PowerOnWordSetsPowered :
    base.available ∧ base.cfg.wf = true ∧ (0x10 : Word32) &&& cfg.mCmd ≠ 0 ∧ (0x10 : Word32) &&& cfg.mPwrDn = 0 ∧
    (0x10 : Word32) &&& cfg.opMask = 0 ∧ (0x10 : Word32) &&& cfg.restMask = 0 ∧
    (withMode 0x10).available ∧ (withMode 0x10).oracle.nextMode.1 = 0x10 ∧ cleanReadback cfg 0x10 = true ∧
    after (exec (.setBits offMode cfg.mCmd) (withMode 0x10)) (fun t => t.modeLast) = some (some 0x10) :=
  ⟨available_base, by decide, by decide, by decide, by decide, by decide, ⟨rfl, rfl⟩, by decide⟩

theorem witness_PowerDownWordClearsPowered :
    base.available ∧ base.cfg.wf = true := ⟨available_base, by decide⟩

theorem witness_ReadWordsCheckPowerAndAddress :
    (powered 127).available ∧ cfg.wf = true ∧ (powered 127).powered = some true ∧
    (powered 127).adrLast = some 127 ∧ base.powered ≠ some true ∧ (powered 128).adrLast = some 128 ∧
    128 ≤ (128 : Word32).toNat ∧ { powered 0 with adrLast := none }.adrLast = none := ⟨⟨rfl, rfl⟩, by decide⟩

theorem witness_ProgramWordPulsesOneCell :
    (powered 4095).available ∧ cfg.wf = true ∧ (powered 4095).fuses.wf = true ∧
    (powered 4095).adrLast = some 4095 ∧ (4095 : Word32).toNat < 4096 ∧ 4096 ≤ (4096 : Word32).toNat ∧
    base.adrLast = none := ⟨⟨rfl, rfl⟩, by decide⟩

theorem witness_RefreshLoadsTheShadow :
    base.available ∧ after (exec .cwRefresh base) (fun t => t.modeLast) = some (some 0x30) :=
  ⟨available_base, by decide⟩

theorem witness_UndefinedWordFaults :
    base.available ∧ base.cfg.wf = true ∧ (0x31 : Word32) ∉ base.cfg.commandWords := ⟨available_base, by decide⟩

theorem witness_AddressWordsGoToAdr :
    base.available ∧ (encodeAdrProg 31 63 1).toNat = 31 * 128 + 63 * 2 + 1 := ⟨available_base, by decide⟩

theorem witness_ReadyWordEndsTheWait :
    base.available ∧ (0xFFFFFFFE : Word32) &&& base.cfg.sBusy = 0 := ⟨available_base, by decide⟩

theorem witness_RdRegAnswers :
    base.available ∧ isReadableOffset 0x1FC = true ∧ (0x1FC : Word32).toNat = 0x100 + 4 * 63 ∧
    isReadableOffset 0x200 = false ∧ isReadableOffset 0x14 = false ∧ isReadableOffset offMode = true ∧
    isReadableOffset offAdr = true ∧ isReadableOffset offRdData = true ∧ isReadableOffset offStatus = true :=
  ⟨available_base, by decide⟩

theorem witness_WrRegWritesAdrOrMode :
    base.available ∧ (0x8 : Word32) ≠ offAdr ∧ (0x8 : Word32) ≠ offMode := ⟨available_base, by decide⟩

theorem witness_SetBitsWritesReadbackOrMask :
    base.available ∧ base.oracle.nextMode = (0, { base.oracle with mode := List.replicate 3 0 }) ∧
    base.cfg.wf = true ∧ cleanReadback base.cfg 0 = true ∧ (0x4 : Word32) ≠ offMode :=
  ⟨available_base, by decide⟩

theorem witness_WaitReadyReturnsHoldsOrTimesOut :
    base.available ∧ base.oracle.nextStatus.1 = 0 ∧ isReadyWord cfg 0 = true ∧
    (withStatus [1] none).available ∧ (withStatus [1] none).oracle.nextStatus.1 = 1 ∧ isReadyWord cfg 1 = false ∧
    (withStatus [1] none).cfg.pollLimit = none ∧ (withStatus [1] (some 2)).cfg.pollLimit = some 2 ∧ 1 < 2 ∧
    (withStatus [1] (some 1)).cfg.pollLimit = some 1 :=
  ⟨available_base, by decide, by decide, ⟨rfl, rfl⟩, by decide⟩

theorem witness_HeldWaitPollsOrGoesOn :
    (heldWait none).ctl = .run .waitReady (.poll :: .pollTest :: []) [] ∧ (heldWait none).owner = some 0 ∧
    (heldWait none).oracle.nextStatus.1 = 1 ∧ isReadyWord cfg 1 = false ∧ (heldWait none).cfg.pollLimit = none ∧
    (heldWait (some 3)).work.polls + 1 < 3 ∧ 2 ≤ (heldWait (some 2)).work.polls + 1 ∧
    { heldWait none with oracle := { base.oracle with status := [0] } }.oracle.nextStatus.1 = 0 ∧
    isReadyWord cfg 0 = true := by decide

theorem witness_FairWaitsEnd :
    { withStatus [1, 0] (some 2) with ctl := .run .waitReady [.pollInit, .poll, .pollTest] [] }.ctl =
      .run .waitReady (.pollInit :: .poll :: .pollTest :: []) [] ∧
    readyEventually cfg (withStatus [1, 0] (some 2)).oracle 1 ∧ (withStatus [1, 0] (some 2)).cfg.pollLimit = some 2 ∧
    1 < 2 := ⟨rfl, .inr rfl, by decide⟩

theorem witness_PowerWritesItsCommand :
    base.available ∧ base.cfg.wf = true ∧
    base.oracle.nextMode = (0, { base.oracle with mode := List.replicate 3 0 }) ∧ cleanReadback base.cfg 0 = true :=
  ⟨available_base, by decide⟩

theorem witness_PowerOnHazards :
    (withMode 0x08).available ∧ (withMode 0x08).cfg.wf = true ∧
    (withMode 0x08).oracle.nextMode.1 = (withMode 0x08).cfg.mPwrDn ∧
    { withMode 0x04 with adrLast := some 4095 }.available ∧ { withMode 0x04 with adrLast := some 4095 }.cfg.wf = true ∧
    { withMode 0x04 with adrLast := some 4095 }.oracle.nextMode.1 = cfg.mPrg ∧
    { withMode 0x04 with adrLast := some 4095 }.adrLast = some 4095 ∧ (4095 : Word32).toNat < 4096 :=
  ⟨⟨rfl, rfl⟩, by decide, by decide, ⟨rfl, rfl⟩, by decide⟩

theorem witness_InitAndTeardownMapTheWindow :
    unmapped.owner = none ∧ unmapped.mapped = false ∧ base.owner = none ∧ base.mapped = true ∧
    { unmapped with oracle := { base.oracle with mapping := [true] } }.oracle.nextMapping.1 = true ∧
    { unmapped with oracle := { base.oracle with mapping := [false] } }.oracle.nextMapping.1 = false :=
  by decide

theorem witness_ProgramBitIssuesOnePulse :
    base.available ∧ base.cfg.wf = true ∧ base.fuses.wf = true ∧ ((1 : Word32) = 0 ∨ (1 : Word32) = 1) ∧
    base.nextStatusReady = true := ⟨available_base, by decide⟩

theorem witness_ProgramBitStopsBeforeThePulse :
    (withStatus [1] (some 1)).available ∧ ¬((2 : Word32) = 0 ∨ (2 : Word32) = 1) ∧
    (withStatus [1] (some 1)).cfg.pollLimit = some 1 ∧ (withStatus [1] (some 1)).nextStatusReady = false :=
  ⟨⟨rfl, rfl⟩, by decide⟩

theorem witness_ReadPhysMakesSevenAccesses :
    (withData [5]).available ∧ cfg.wf = true ∧ (127 : Word32).toNat < 128 ∧ ReadsPhys cfg (.rdmodeMargin 127) 127 2 ∧
    ReadsPhys cfg (.readPhys 127 1) 127 1 ∧ cleanReadback cfg 0 = true ∧ isReadyWord cfg 0 = true ∧
    (drawRead (withData [5]).oracle).1 = ⟨0, 0, 0, 5⟩ :=
  ⟨⟨rfl, rfl⟩, by decide, by decide, .inr ⟨rfl, .inr rfl⟩, .inl ⟨rfl, .inl rfl⟩, by decide⟩

theorem witness_ReadPhysChecksItsOperands :
    base.available ∧ (3 : Word32) ≠ base.cfg.mAread ∧ (3 : Word32) ≠ base.cfg.mMread ∧
    ReadsPhys base.cfg (.rdmodeArray 128) 128 1 ∧ ReadsPhys base.cfg (.rdmodeMargin 128) 128 2 ∧
    ReadsPhys base.cfg (.readPhys 128 2) 128 2 ∧ 128 ≤ (128 : Word32).toNat :=
  ⟨available_base, by decide, by decide, .inl ⟨rfl, .inr rfl⟩, .inr ⟨rfl, .inr rfl⟩, .inr ⟨rfl, .inl rfl⟩, by decide⟩

theorem witness_ReadPhysStopsAtItsWaits :
    (withStatus [1, 0] (some 1)).available ∧ (withStatus [0, 1] (some 1)).available ∧ (withStatus [1] none).available ∧
    ReadsPhys cfg (.rdmodeArray 127) 127 1 ∧ cfg.wf = true ∧ (127 : Word32).toNat < 128 ∧
    (withStatus [0, 1] (some 1)).cfg.wf = true ∧ (withStatus [0, 1] (some 1)).oracle.nextMode.1 = 0 ∧
    cleanReadback cfg 0 = true ∧ (withStatus [1, 0] (some 1)).oracle.nextMode.2.nextStatus.1 = 1 ∧
    (withStatus [0, 1] (some 1)).oracle.nextMode.2.nextStatus.1 = 0 ∧
    (withStatus [0, 1] (some 1)).oracle.nextMode.2.nextStatus.2.nextStatus.1 = 1 ∧
    (withStatus [0, 1] (some 1)).cfg.pollLimit = some 1 ∧ (withStatus [1] none).cfg.pollLimit = none ∧
    (withStatus [1] none).oracle.nextMode.2.nextStatus.1 = 1 ∧ isReadyWord cfg 1 = false :=
  ⟨⟨rfl, rfl⟩, ⟨rfl, rfl⟩, ⟨rfl, rfl⟩, .inl ⟨rfl, .inr rfl⟩, by decide⟩

/-- Row answers of S7 and P1: array read 0, two pulses, the margin read `m`. -/
def answers (m : Word32) : RowAnswers := ⟨⟨0, 0, 0, 0⟩, [0, 0], ⟨0, 0, 0, m⟩⟩

theorem answers_fit (m : Word32) : (answers m).fits cfg := by
  have hc : cleanReadback cfg 0 = true := by decide
  have hr : isReadyWord cfg 0 = true := by decide
  exact ⟨⟨hc, hr, hr⟩, fun v hv => (show v = 0 by simpa [answers] using hv) ▸ hr, ⟨hc, hr, hr⟩⟩

/-- One pulse issued, then row 0's margin read polls BUSY twice, at the poll limit 2. -/
def stopsInMargin : State :=
  { withData [0] with
    cfg := { cfg with pollLimit := some 2 }
    oracle := { (withData [0]).oracle with status := [0, 0, 0, 1, 1], pulse := [.weak] } }

/-- An event that is no MODE readback but a clean one. -/
def cleanEvent : BusEvent → Bool
  | .rd off v => off != offMode || cleanReadback cfg v
  | _ => true

/-- WRITE_WORD's answers up to its second pulse, which finds BUSY set, at the poll limit 1. -/
def stopsAtPulse : State :=
  { withData [0] with
    cfg := { cfg with pollLimit := some 1 }
    oracle := { (withData [0]).oracle with status := [0, 0, 0, 1], pulse := [.weak] } }

theorem witness_WriteWordProgramsTheMissingBits :
    (withData [0, 7, 0, 5]).available ∧ cfg.wf = true ∧ (withData [0, 7, 0, 5]).fuses.wf = true ∧
    WritesWord (withData [0, 7, 0, 5]) (.writeWord 5 5) 5 5 .unit (withData [0, 7, 0, 5]).oracle ∧
    WritesWord (withData [0, 7, 0, 5]) (.hWrite32 252 5) 63 5 (.count 8) (withData [0, 7, 0, 5]).oracle.nextCopyIn.2 ∧
    (drawRow 5 (withData [0, 7, 0, 5]).oracle).1 = answers 7 ∧ (answers 7).fits cfg ∧
    (drawRow 5 (drawRow 5 (withData [0, 7, 0, 5]).oracle).2).1 = answers 5 ∧ (answers 5).fits cfg :=
  ⟨⟨rfl, rfl⟩, by decide, by decide, .inl ⟨rfl, rfl, rfl⟩,
      .inr ⟨rfl, rfl, 252, by decide, by decide, by decide, .inr ⟨.inr (.inr rfl), rfl⟩⟩, by decide,
      answers_fit 7, by decide, answers_fit 5⟩

theorem witness_WriteWordStopsAtItsWaits :
    (withStatus [1] (some 1)).available ∧ (withStatus [1] (some 1)).cfg.wf = true ∧
    WritesWord (withStatus [1] (some 1)) (.writeWord 5 5) 5 5 .unit (withStatus [1] (some 1)).oracle ∧
    (withStatus [1] (some 1)).oracle.nextMode.1 = 0 ∧ cleanReadback cfg 0 = true ∧
    isReadyWord cfg (withStatus [1] (some 1)).oracle.nextMode.2.nextStatus.1 = false ∧
    stopsAtPulse.available ∧ stopsAtPulse.cfg.wf = true ∧ stopsAtPulse.cfg.pollLimit = some 1 ∧
    WritesWord stopsAtPulse (.writeWord 5 5) 5 5 .unit stopsAtPulse.oracle ∧
    (drawRead stopsAtPulse.oracle).1 = ⟨0, 0, 0, 0⟩ ∧ 1 < (rowPulses 5 0 (5 &&& ~~~(0 : Word32))).length ∧
    (drawMany drawPulse 1 (drawRead stopsAtPulse.oracle).2).1 = [0] ∧ isReadyWord cfg 0 = true ∧
    isReadyWord cfg (drawMany drawPulse 1 (drawRead stopsAtPulse.oracle).2).2.nextStatus.1 = false :=
  ⟨⟨rfl, rfl⟩, by decide, .inl ⟨rfl, rfl, rfl⟩, by decide, by decide, by decide, ⟨rfl, rfl⟩, by decide, by decide,
      .inl ⟨rfl, rfl, rfl⟩, by decide⟩

/-- V-EX3 with a poll limit of 2: a timeout in row 0's margin read, after a hold. -/
theorem witness_WriteWordStopsAtItsWaits_held :
    stopsInMargin.available ∧ stopsInMargin.cfg.wf = true ∧ stopsInMargin.fuses.wf = true ∧ stopsInMargin.port = [] ∧
    WritesWord stopsInMargin (.writeWord 5 1) 5 1 .unit stopsInMargin.oracle ∧
    after (exec (.writeWord 5 1) stopsInMargin) (fun t => (t.held, t.pulseLog)) = some (true, [10]) ∧
    ((after (exec (.writeWord 5 1) stopsInMargin) id).bind fun u => after (Sys2Proof.core.run 1 u) fun t =>
      (t.responses, t.pulseLog, t.refreshCount, t.trace.all cleanEvent)) =
      some (stopsInMargin.replied (.error .errTimeout .readyTimeout), [10], 0, true) :=
  ⟨⟨rfl, rfl⟩, by decide, by decide, by decide, .inl ⟨rfl, rfl, rfl⟩, by decide +kernel, by decide +kernel⟩

theorem witness_WordFailsWhenBothRowsFail :
    failingRows 5 4 0 = 2 ∧ failingRows 5 4 7 = 1 ∧ failingRows 0 0 0 = 0 := by decide

theorem witness_RowPulsesAreTheMissingBits :
    ((1 : Word32) = 0 ∨ (1 : Word32) = 1) ∧ (0x80000001 : Word32).getLsbD 31 = true ∧
    (1 : Word32).getLsbD 31 = false ∧ rowPulses 0 0 (0x80000001 &&& ~~~(1 : Word32)) = [0xF80] := by decide

theorem witness_ReadsShowTheCells :
    OA4 [readingData] ∧ readingData.readsData .margin ∧ readingData.adrLast = some 10 ∧
    after (tick readingData) (fun t => t.work.ret) = some 1 ∧ (1 : Word32) &&& 1 = 1 ∧ (1 : Word32).getLsbD 0 = true := by
  have hm : ∀ v, readingData.modeLast = some v → v = 0x12 := fun v h => by cases h; rfl
  refine ⟨?_, ⟨rfl, ⟨_, rfl, rfl⟩, 0x12, rfl, by decide⟩, rfl, by decide, by decide, by decide⟩
  rintro s hs kind ⟨-, -, v, hv, hd⟩ a ha b hb
  obtain rfl : s = readingData := by simpa using hs
  obtain rfl := hm v hv
  obtain rfl : ReadKind.margin = kind := by simpa using (show decodeCommand cfg 0x12 = .read .margin by decide).symm.trans hd
  obtain rfl : (10 : Word32) = a := by cases ha; rfl
  revert b
  decide

theorem witness_CleanRunsPulseOnlyAttempts :
    IsRun (runOf 13 pulseWaiting) ∧ OA1 (runOf 13 pulseWaiting) ∧ pulseWaiting.cfg.wf = true ∧
    pulseWaiting.ctl = .idle ∧ (∀ u ∈ runOf 13 pulseWaiting, ∀ e ∈ u.port, writesNoModeWord e.2 = true) ∧
    ((runOf 13 pulseWaiting).getLast?.map fun t => (t.pulseLog, t.attemptLog, t.ctl)) = some ([266], [266], .idle) :=
  ⟨isRun_runOf _ _, by unfold OA1; decide +kernel, by decide, by decide, by decide +kernel, by decide +kernel⟩

theorem witness_CleanRunsPulseOnlyAttempts_power :
    OA1 (runOf 9 powerWaiting) ∧ powerWaiting.ctl = .idle ∧
    (∀ u ∈ runOf 9 powerWaiting, ∀ e ∈ u.port, writesNoModeWord e.2 = true) ∧
    ((runOf 9 powerWaiting).getLast?.map fun t => (t.trace, t.powered, t.ctl)) =
      some ([.rd 0 0, .wr 0 0x10], some true, .idle) :=
  ⟨by unfold OA1; decide +kernel, by decide, by decide +kernel, by decide +kernel⟩

theorem witness_ReadShadowReturnsTheRegister :
    base.available ∧ base.clockOn = false ∧ 256 ≤ (256 : Word32).toNat ∧ (255 : Word32).toNat % 4 ≠ 0 ∧
    (252 : Word32).toNat < 256 ∧ (252 : Word32).toNat % 4 = 0 ∧ base.oracle.nextClock.1 = true ∧
    { base.oracle with clock := [false] }.nextClock.1 = false := ⟨available_base, by decide⟩

theorem witness_ReadShadowTouchesNoProgrammingRegister :
    (after (exec (.readShadow 252) base) fun t => t.powered) = some none := by decide

theorem witness_ShadowReadIsIdempotent :
    base.available ∧
    after (exec (.readShadow 8) base) (fun t => t.responses) = some (base.replied (.ok (.word 0x0B0A0908))) ∧
    after (Sys2Proof.core.run 1 ((after (exec (.readShadow 8) base) id).getD base)) (fun u => (u.refreshCount, u.owner)) =
      some (0, none) := ⟨available_base, by decide⟩

theorem witness_ReadBufReturnsTheFirstBytes :
    base.available ∧ base.clockOn = false ∧ 64 = (min 1000 256 + 3) / 4 ∧
    (∀ b ∈ (drawMany Oracle.nextClock 64 base.oracle).1, b = true) ∧
    (∀ b ∈ (drawMany Oracle.nextClock 63 { base.oracle with clock := List.replicate 63 true ++ [false] }).1, b = true) ∧
    (drawMany Oracle.nextClock 63 { base.oracle with clock := List.replicate 63 true ++ [false] }).2.nextClock.1 = false :=
  ⟨available_base, by decide, by decide, by decide +kernel, by decide +kernel, by decide +kernel⟩

theorem witness_CtrlReadReturnsTheWord :
    base.available ∧ base.clockOn = false ∧ base.oracle.nextCopyIn.1 = true ∧
    base.oracle.nextCopyIn.2.nextClock.1 = true ∧ base.oracle.nextCopyIn.2.nextClock.2.nextCopyOut.1 = true ∧
    { base.oracle with copyIn := [false] }.nextCopyIn.1 = false ∧ (255 : Word32).toNat % 4 ≠ 0 :=
  ⟨available_base, by decide⟩

theorem witness_CtrlOtherIsUnsupported :
    base.available := available_base

theorem witness_HostWritesCheckBeforeAccess :
    base.available ∧ ([] : List Byte).length ≠ 8 ∧ base.oracle.nextCopyIn.1 = true ∧
    disabled.oracle.nextCopyIn.1 = true ∧ disabled.cfg.programmingEnabled = false ∧
    base.cfg.programmingEnabled = true ∧ 256 ≤ (256 : Word32).toNat ∧ (255 : Word32).toNat < 256 ∧
    (255 : Word32).toNat % 4 ≠ 0 ∧ { base.oracle with copyIn := [false] }.nextCopyIn.1 = false :=
  ⟨available_base, by decide⟩

theorem witness_StreamReadReturnsTheSlice :
    base.available ∧ base.clockOn = false ∧ 1 = min 1000 (256 - 255) ∧ 64 = (255 + 1 + 3) / 4 ∧ 256 ≤ 256 ∧
    255 < 256 ∧ 0 < 1000 ∧ (∀ b ∈ (drawMany Oracle.nextClock 64 base.oracle).1, b = true) ∧
    (drawMany Oracle.nextClock 64 base.oracle).2.nextCopyOut.1 = true ∧ 63 < 64 ∧
    (∀ b ∈ (drawMany Oracle.nextClock 63 { base.oracle with clock := List.replicate 63 true ++ [false] }).1, b = true) ∧
    (drawMany Oracle.nextClock 63 { base.oracle with clock := List.replicate 63 true ++ [false] }).2.nextClock.1 = false :=
  ⟨available_base, by decide, by decide, by decide, by decide, by decide, by decide, by decide +kernel,
    by decide +kernel, by decide, by decide +kernel, by decide +kernel⟩

theorem witness_UnmappedEndsWithoutAccess :
    unmapped.owner = none ∧ unmapped.mapped = false := by decide

theorem witness_LockedOperationsWait :
    locked.owner = some 7 := by decide

theorem witness_StepRunsTheRequest :
    (heldWait none).ctl = .run .waitReady [.poll, .pollTest] [] ∧ base.ctl = .idle ∧ base.port = [] ∧
    { base with port := [(1, .init)] }.port = [(1, .init)] ∧ decodeTableWord 32 0x10 = some .cwPwron :=
  by decide

theorem witness_StepServesOneOfTheWaiting :
    base.ctl = .idle ∧ 2 ≤ { base with port := [(1, .init), (2, .teardown)] }.port.length := by decide

theorem witness_StepIsARunOfTicks :
    { base with ctl := .run .refresh [.wwResult] [] }.ctl = .run .refresh (.wwResult :: []) [] ∧
    { base with ctl := .run .refresh [] [⟨.writeWord 0 0, []⟩] }.ctl = .run .refresh [] (⟨.writeWord 0 0, []⟩ :: []) ∧
    { base with ctl := .run .refresh [] [] }.ctl = .run .refresh [] [] ∧
    after (step (heldWait none)) (fun t => t.work.polls) = some 2 ∧
    faultOf (step { base with port := [(0, .cwProg)] }) = some .adrInvalid ∧
    refusalOf (step { base with port := [(0, .init)] }) = some .initTwice := by decide

theorem witness_OperationsEndOrAreHeld :
    base.ctl = .idle ∧
    after (Sys2Proof.core.run 1 { withStatus [1, 0] none with port := [(0, .waitReady)] }) (fun t => t.held) = some true ∧
    after (Sys2Proof.core.run 2 { withStatus [1, 0] none with port := [(0, .waitReady)] }) (fun t => t.isIdle) = some true :=
  by decide

theorem witness_StepKeepsConfiguration :
    after (step { base with port := [(0, .refresh)] }) (fun t => t.refreshCount) = some 1 := by decide

theorem witness_StepKeepsFusesCanonical :
    (powered 10).fuses.wf = true ∧
    after (step { powered 10 with port := [(0, .cwProg)], oracle := { base.oracle with pulse := [.blown] } })
      (fun t => t.fuses) = some [(10, .blown)] := by decide

theorem witness_StepUndoesNothing :
    ({ powered 10 with fuses := [(10, .weak)] } : State).fuses.wf = true ∧
    after (step { powered 10 with fuses := [(10, .weak)], port := [(0, .cwProg)], oracle := { base.oracle with pulse := [.blown] } })
      (fun t => (t.fuses, t.pulseLog)) = some ([(10, .blown)], [10]) := by decide

theorem witness_ShadowChangesOnlyAtRefresh :
    after (step { base with port := [(0, .readShadow 8)] }) (fun t => t.refreshCount) = some 0 ∧
    IsRun (runOf 5 refreshWaiting) ∧ OA5 (runOf 5 refreshWaiting) ∧
    ((runOf 5 refreshWaiting).getLast?.map fun t => (t.refreshCount, t.ctl)) = some (1, .idle) := by
  refine ⟨by decide, isRun_runOf _ _, ?_, by decide⟩
  have h : (runOf 5 refreshWaiting).all fun s => s.nextModeWord == none || decide (∀ k : Fin 64,
      s.shadow.get k &&& ~~~(s.oracle.nextShadow.1.get k) = 0) := by decide +kernel
  intro s hs v hv _
  have := List.all_eq_true.1 h s hs
  rw [hv] at this
  simpa [State.nextShadowMonotone] using this

theorem witness_StepKeepsLockAndClock :
    base.lockInv = true ∧ base.clockInv = true ∧ (heldWait none).lockInv = true ∧ (heldWait none).clockInv = true ∧
    after (step (heldWait none)) (fun t => (t.lockInv, t.clockInv)) = some (true, true) := by decide

theorem witness_StepKeepsAttemptsLogged :
    base.cfg.wf = true ∧ base.attemptsLogged := ⟨by decide, List.Sublist.refl _⟩

theorem witness_StepKeepsTraceToNamedOffsets :
    base.traceInv = true ∧ after (step { base with port := [(0, .readShadow 8)] }) (fun t => t.traceInv) = some true :=
  by decide

theorem witness_DisabledHostNeverPulses :
    disabled.cfg.programmingEnabled = false ∧ disabled.owner = none ∧ disabled.ctl = .idle ∧
    after (exec (.hWrite32 0x14 5) disabled) (fun t => t.pulseLog) = some [] := by decide

theorem witness_ResetMeetsTheInvariants :
    (powered 10).cfg.wf = true ∧ ({ powered 10 with fuses := [(10, .weak)] } : State).fuses.wf = true := by decide

end Sys2Proof.Tests
end

/-! # Scope: every step of a run ends or holds its operation; the invariants hold at reset -/

namespace Sys2Proof.Machine
open Sys2Proof Host

/-- What every step of a machine keeps, every run of it keeps. -/
theorem run_keeps {M : Core} {P : M.State → Prop} (hstep : ∀ s t, P s → M.step s = .next t → P t) {n : Nat}
    {s t : M.State} (hs : P s) (h : M.run n s = .next t) : P t := by
  induction n generalizing s with
  | zero =>
    cases h
    exact hs
  | succ n ih =>
    rw [Core.run] at h
    split at h
    case h_1 u hu => exact ih (hstep s u hs hu) h
    case h_2 => cases h
    case h_3 => cases h

/-- Settles O50: from an Idle block every state of a run is settled, that is Idle, or held within the bound of the
steps still to go (`step_settled`). -/
theorem operationsEndOrAreHeld : Obligations.OperationsEndOrAreHeld := by
  intro s t n hidle hrun
  have hsettled : t.settled := run_keeps (M := Sys2Proof.core) (fun _ _ => step_settled) (.inl hidle) hrun
  exact hsettled.imp_right And.right

/-- The defaults of R9 are a valid configuration. -/
theorem default_wf : Config.default.wf = true := by decide

/-- A state that begins as reset leaves it: Idle and unlocked, the clock off, the logs and the trace empty. -/
theorem invariants_of_restart {s : State} (hctl : s.ctl = .idle) (howner : s.owner = none) (hclock : s.clockOn = false)
    (hattempts : s.attemptLog = []) (htrace : s.trace = []) :
    s.lockInv = true ∧ s.clockInv = true ∧ s.attemptsLogged ∧ s.traceInv = true := by
  refine ⟨?_, ?_, ?_, ?_⟩
  · simp [State.lockInv, State.isIdle, hctl, howner]
  · simp [State.clockInv, State.remaining, clockBalanced, hctl, hclock]
  · simp [State.attemptsLogged, hattempts]
  · simp [State.traceInv, htrace]

/-- Settles O60: a reset and a later reset both restart the control state, the lock, the clock gate and the logs; the
first brings the default configuration and blank cells, the later one keeps those of the run. -/
theorem resetMeetsTheInvariants : Obligations.ResetMeetsTheInvariants :=
  ⟨⟨default_wf, rfl, invariants_of_restart rfl rfl rfl rfl rfl⟩,
    fun _ hcfg hfuses => ⟨hcfg, hfuses, invariants_of_restart rfl rfl rfl rfl rfl⟩⟩

end Sys2Proof.Machine

/-! # The state over a step: what every step keeps, and a step as a run of ticks -/

namespace Sys2Proof.Machine
open Sys2Proof Host

/-! ### The fields behind the bus: only a write to MODE changes them -/

/-- `t` agrees with `s` on the configuration, DIR_CMD, ONE_WAY, the shadow, the fuse cells, and the counts and logs of
the commands issued. -/
structure SameMemory (s t : State) : Prop where
  cfg : t.cfg = s.cfg
  dirCmd : t.dirCmd = s.dirCmd
  oneWay : t.oneWay = s.oneWay
  shadow : t.shadow = s.shadow
  refreshCount : t.refreshCount = s.refreshCount
  fuses : t.fuses = s.fuses
  pulseLog : t.pulseLog = s.pulseLog
  attemptLog : t.attemptLog = s.attemptLog

theorem SameMemory.setCtl (s : State) (c : Ctl) : SameMemory s (s.setCtl c) :=
  ⟨rfl, rfl, rfl, rfl, rfl, rfl, rfl, rfl⟩

theorem SameMemory.push (s : State) (w : Work) (qs : List Prim) : SameMemory s ((s.setWork w).push qs) := by
  constructor <;> simp

theorem SameMemory.enter (s : State) (i : Instr) (ps : List Prim) : SameMemory s (s.enter i ps) := by
  constructor <;> simp

/-- A relation that holds where the memory is the same, over a refresh and over a pulse, and that an entry in
`attemptLog` with PROGRAM_BIT's write does not break, is one that every step meets. -/
theorem StepRelation.of_memory {R : State → State → Prop} (trans : ∀ s t u, R s t → R t u → R s u)
    (same : ∀ s t, SameMemory s t → R s t) (refresh : ∀ s, R s (refreshCommand s))
    (pulse : ∀ s a, isPhysBit a = true → R s (pulseAt a s))
    (attempt : ∀ s t, modeWrite s.cfg.cwProg s = .next t → R s t → R s t.noteAttempt) : StepRelation R := by
  have mode {v : Word32} {s t : State} (h : modeWrite v s = .next t) : R s t := by
    have noted : R s (s.noteMode v) := same _ _ ⟨rfl, rfl, rfl, rfl, rfl, rfl, rfl, rfl⟩
    rcases modeWrite_next h with rfl | ⟨on, rfl⟩ | rfl | ⟨a, -, ha, rfl⟩
    · exact trans _ _ _ noted (refresh _)
    · exact same _ _ ⟨rfl, rfl, rfl, rfl, rfl, rfl, rfl, rfl⟩
    · exact noted
    · exact trans _ _ _ noted (pulse _ a ha)
  have prim (s t : State) (h : PrimEffect s t) : R s t := by
    cases h with
    | mode v t h => exact mode h
    | pulse t h => exact attempt s t h (mode h)
    | push w qs => exact same _ _ (.push s w qs)
    | enter i ps => exact same _ _ (.enter s i ps)
    | _ => exact same _ _ ⟨rfl, rfl, rfl, rfl, rfl, rfl, rfl, rfl⟩
  refine ⟨trans, prim, fun s c => same _ _ (.setCtl s c), ?_, ?_, ?_, ?_⟩ <;> intros <;>
    exact same _ _ ⟨rfl, rfl, rfl, rfl, rfl, rfl, rfl, rfl⟩

/-! ### The fuse array's form -/

theorem lt_nBits_of_isPhysBit {a : Word32} (h : isPhysBit a = true) : a.toNat < nBits := of_decide_eq_true h

/-- A pulse at a bit address keeps the fuse array's canonical form. -/
theorem pulseAt_fuses_wf {s : State} {a : Word32} (ha : isPhysBit a = true) (hs : s.fuses.wf = true) :
    (pulseAt a s).fuses.wf = true :=
  Memory.write_wf hs (lt_nBits_of_isPhysBit ha) _

theorem fusesCanonical_stepRelation : StepRelation fun s t => s.fuses.wf = true → t.fuses.wf = true :=
  .of_memory (fun _ _ _ h1 h2 => h2 ∘ h1) (fun _ _ h hs => h.fuses ▸ hs) (fun _ => id)
    (fun _ _ ha => pulseAt_fuses_wf ha) (fun _ _ _ h => h)

/-- Settles O52: the fuse array changes only in a pulse, which writes a cell below 4096 (`pulseAt_fuses_wf`). -/
theorem stepKeepsFusesCanonical : Obligations.StepKeepsFusesCanonical :=
  fun _ _ hs h => fusesCanonical_stepRelation.step h hs

/-! ### The configuration -/

theorem configuration_stepRelation :
    StepRelation fun s t => t.cfg = s.cfg ∧ t.dirCmd = s.dirCmd ∧ t.oneWay = s.oneWay := by
  refine .of_memory ?_ (fun _ _ h => ⟨h.cfg, h.dirCmd, h.oneWay⟩) (fun _ => ⟨rfl, rfl, rfl⟩)
    (fun _ _ _ => ⟨rfl, rfl, rfl⟩) (fun _ _ _ h => h)
  rintro s t u ⟨hc, hd, ho⟩ ⟨hc', hd', ho'⟩
  exact ⟨hc'.trans hc, hd'.trans hd, ho'.trans ho⟩

/-- Settles O51: no effect of a primitive, nor anything around an operation, writes the three fields. -/
theorem stepKeepsConfiguration : Obligations.StepKeepsConfiguration := fun _ _ => configuration_stepRelation.step

/-! ### The attempts among the pulses -/

theorem programCommand_next {s t : State} (h : programCommand s = .next t) :
    ∃ a, s.adrLast = some a ∧ isPhysBit a = true ∧ t = pulseAt a s := by
  unfold programCommand at h
  split at h
  case h_1 a ha =>
    split at h
    case isTrue hb =>
      cases h
      exact ⟨a, ha, hb, rfl⟩
    case isFalse => cases h
  case h_2 => cases h

/-- PROGRAM_BIT's write enters one address in both logs (R37, R140). -/
theorem attemptsLogged_of_pulseWrite {s t : State} (hw : s.cfg.wf = true) (hs : s.attemptsLogged)
    (h : modeWrite s.cfg.cwProg s = .next t) : t.noteAttempt.attemptsLogged := by
  rw [modeWrite_prog rfl hw] at h
  obtain ⟨a, ha, -, rfl⟩ := programCommand_next h
  have ha : s.adrLast = some a := ha
  simpa [State.attemptsLogged, State.noteAttempt, ha] using hs

/-- A valid configuration with every attempt among the pulses. -/
def State.attemptsValid (s : State) : Prop := s.cfg.wf = true ∧ s.attemptsLogged

theorem attemptsValid_stepRelation : StepRelation fun s t => s.attemptsValid → t.attemptsValid := by
  refine .of_memory (fun _ _ _ h1 h2 => h2 ∘ h1) ?_ (fun _ => id) ?_ ?_
  · intro s t h ⟨hw, hs⟩
    refine ⟨h.cfg ▸ hw, ?_⟩
    rwa [State.attemptsLogged, h.attemptLog, h.pulseLog]
  · exact fun _ _ _ ⟨hw, hs⟩ => ⟨hw, List.Sublist.trans hs (List.sublist_append_left _ _)⟩
  · exact fun _ _ h ht hs => ⟨(ht hs).1, attemptsLogged_of_pulseWrite hs.1 hs.2 h⟩

/-- Settles O56: the two logs grow together in PROGRAM_BIT's write (`attemptsLogged_of_pulseWrite`), and else only the
log of pulses grows. -/
theorem stepKeepsAttemptsLogged : Obligations.StepKeepsAttemptsLogged :=
  fun _ _ hw hs h => (attemptsValid_stepRelation.step h ⟨hw, hs⟩).2

/-! ### The shadow registers over a step -/

/-- The refresh count does not fall, and where it stays the shadow stays. -/
def ShadowCounted (s t : State) : Prop :=
  s.refreshCount ≤ t.refreshCount ∧ (t.refreshCount = s.refreshCount → t.shadow = s.shadow)

theorem ShadowCounted.of_same {s t : State} (hr : t.refreshCount = s.refreshCount) (hs : t.shadow = s.shadow) :
    ShadowCounted s t := ⟨hr.ge, fun _ => hs⟩

theorem ShadowCounted.trans {s t u : State} (h1 : ShadowCounted s t) (h2 : ShadowCounted t u) : ShadowCounted s u := by
  obtain ⟨hle, hs⟩ := h1
  obtain ⟨hle', hs'⟩ := h2
  exact ⟨hle.trans hle', fun h => (hs' (by omega)).trans (hs (by omega))⟩

theorem shadowCounted_stepRelation : StepRelation ShadowCounted :=
  .of_memory (fun _ _ _ => .trans) (fun _ _ h => .of_same h.refreshCount h.shadow)
    (fun _ => ⟨Nat.le_succ _, fun h => absurd h (Nat.succ_ne_self _)⟩)
    (fun s a _ => .of_same (pulseAt_refreshCount s a) (pulseAt_shadow s a)) (fun _ _ _ ⟨hle, hs⟩ => ⟨hle, hs⟩)

/-! ### The shadow registers over a run -/

theorem readCommand_next {s t : State} (h : readCommand s = .next t) : t = s := by
  unfold readCommand at h
  split at h
  case isTrue => cases h
  case isFalse =>
    split at h
    case h_1 =>
      split at h
      case isTrue =>
        cases h
        rfl
      case isFalse => cases h
    case h_2 => cases h

/-- A write to MODE leaves the shadow, unless it is the refresh command. -/
theorem modeWrite_shadow {v : Word32} {s t : State} (h : modeWrite v s = .next t) :
    t.shadow = s.shadow ∨ decodeCommand s.cfg v = .refresh ∧ t.shadow = s.oracle.nextShadow.1 := by
  simp only [modeWrite, applyCommand, State.noteMode_cfg] at h
  cases hd : decodeCommand s.cfg v <;> simp only [hd] at h
  case refresh =>
    cases h
    exact .inr ⟨rfl, rfl⟩
  case powerDown =>
    cases h
    exact .inl rfl
  case powerOn =>
    cases h
    exact .inl rfl
  case read => exact .inl (by rw [readCommand_next h]; rfl)
  case program =>
    obtain ⟨a, -, -, rfl⟩ := programCommand_next h
    exact .inl rfl
  case undefined => cases h

/-- The word a primitive writes to MODE. -/
def Prim.modeWord (c : Config) : Prim → Option Word32
  | .regWrite off v => if off = offMode then some v else none
  | .pulseWrite => some c.cwProg
  | _ => none

theorem nextModeWord_of_run {s : State} {op : Instr} {p : Prim} {phase : List Prim} {callers : List Frame}
    (h : s.ctl = .run op (p :: phase) callers) : s.nextModeWord = p.modeWord s.cfg := by
  have hp : s.nextPrim = some p := by rw [State.nextPrim, h]
  unfold State.nextModeWord
  rw [hp]
  cases p <;> rfl

theorem pollTest_shadow (s : State) : (pollTest s).shadow = s.shadow := by
  unfold pollTest
  split
  · rfl
  · dsimp only
    split <;> simp

/-- A primitive that writes no word to MODE leaves the shadow. -/
theorem runPrim_shadow_of_no_modeWord {p : Prim} {s t : State} (hp : p.modeWord s.cfg = none)
    (h : runPrim p s = .next t) : t.shadow = s.shadow := by
  cases p
  case regRead off =>
    simp only [runPrim, regRead] at h
    split at h
    case isTrue =>
      cases h
      rfl
    case isFalse => cases h
  case regWrite off v =>
    have hoff : off ≠ offMode := by rintro rfl; cases hp
    simp only [runPrim, regWrite, if_neg hoff] at h
    split at h
    case isTrue =>
      cases h
      rfl
    case isFalse => cases h
  case pulseWrite => cases hp
  case refuse => cases h
  all_goals
    cases h
    simp [pollRead_eq, pollTest_shadow, clockEnable, clockDisable, checkAddr, checkClock, copyInStep,
      copyOutStep, writeGuardStep, mapStep, wwEntryStep, wwAreadStep, wwMaskStep, wwPulseStep, wwNextBitStep,
      wwMreadStep, wwCheckStep, wwResultStep, apply_ite State.shadow]

/-- A write to MODE of the word `v`, by a register write or by PROGRAM_BIT. -/
theorem runPrim_modeWord {p : Prim} {v : Word32} {s t : State} (hp : p.modeWord s.cfg = some v)
    (h : runPrim p s = .next t) : ∃ u, modeWrite v s = .next u ∧ t.shadow = u.shadow := by
  cases p
  case regWrite off w =>
    obtain ⟨rfl, rfl⟩ := Option.ite_some_none_eq_some.1 hp
    simp only [runPrim, regWrite_mode] at h
    exact ⟨t, h, rfl⟩
  case pulseWrite =>
    cases hp
    simp only [runPrim, pulseWrite] at h
    split at h
    case h_1 u hu =>
      cases h
      exact ⟨u, hu, rfl⟩
    case h_2 => cases h
    case h_3 => cases h
  all_goals cases hp

/-- A step of the sequencer changes the shadow only when it writes the refresh command, and then to what the refresh
draws. -/
theorem seqStep_shadow {s t : State} (h : seqStep s = .next t) : t.shadow = s.shadow ∨
    ∃ v, s.nextModeWord = some v ∧ decodeCommand s.cfg v = .refresh ∧ t.shadow = s.oracle.nextShadow.1 := by
  cases seqStep_next h with
  | idle _ e => exact .inl (e ▸ rfl)
  | returns op f callers _ e => exact .inl (e ▸ rfl)
  | ends op _ e => exact .inl (e ▸ rfl)
  | prim op p phase callers hc e =>
    rw [nextModeWord_of_run hc]
    rcases hp : p.modeWord s.cfg with _ | v
    · exact .inl (runPrim_shadow_of_no_modeWord (s := s.setCtl (.run op phase callers)) hp e)
    · obtain ⟨u, hu, ht⟩ := runPrim_modeWord (s := s.setCtl (.run op phase callers)) hp e
      rw [ht]
      exact (modeWrite_shadow hu).imp_right fun h => ⟨v, rfl, h⟩

/-- The admission of a request reaches no register. -/
theorem admitRequest_shadow {i : Instr} {s t : State} (h : (admitRequest i s).start = .next t) :
    t.shadow = s.shadow := by
  have ha := admit_cases i s
  generalize admitRequest i s = a at h ha
  cases ha with
  | refused why => cases h
  | _ => cases h; rfl

/-- Every bit of the shadow that is set in `s` is set in `t`. -/
def ShadowKept (s t : State) : Prop := ∀ k : Fin 64, s.shadow.get k &&& ~~~(t.shadow.get k) = 0

theorem and_not_eq_zero_iff_getLsbD {a b : Word32} :
    a &&& ~~~b = 0 ↔ ∀ i, a.getLsbD i = true → b.getLsbD i = true := by
  constructor
  · intro h i ha
    have hi := BitVec.lt_of_getLsbD ha
    have hb := congrArg (BitVec.getLsbD · i) h
    simpa [ha, hi] using hb
  · intro h
    apply BitVec.eq_of_getLsbD_eq
    intro i hi
    cases ha : a.getLsbD i
    · simp [ha]
    · simp [ha, h i ha, hi]

theorem ShadowKept.of_eq {s t : State} (h : t.shadow = s.shadow) : ShadowKept s t := fun k => by
  rw [h]
  exact and_not_eq_zero_iff_getLsbD.2 fun _ => id

theorem ShadowKept.trans {s t u : State} (h1 : ShadowKept s t) (h2 : ShadowKept t u) : ShadowKept s u := fun k =>
  and_not_eq_zero_iff_getLsbD.2 fun i hi =>
    and_not_eq_zero_iff_getLsbD.1 (h2 k) i (and_not_eq_zero_iff_getLsbD.1 (h1 k) i hi)

/-- What may follow a state of a run under OA5 keeps the shadow bits. -/
theorem Follows.shadowKept {s t : State} (h : Follows s t)
    (hmono : ∀ v, s.nextModeWord = some v → decodeCommand s.cfg v = .refresh → s.nextShadowMonotone) :
    ShadowKept s t := by
  rcases h with h | ⟨r, rfl⟩
  · cases tick_next h with
    | seq _ e =>
      rcases seqStep_shadow e with hs | ⟨v, hv, hd, hs⟩
      · exact .of_eq hs
      · rw [ShadowKept, hs]
        exact hmono v hv hd
    | serves _ i q port o e =>
      have ht := admitRequest_shadow e
      exact .of_eq ht
    | stays _ e => exact .of_eq (e ▸ rfl)
  · exact .of_eq rfl

/-- What every two neighbours of a run meet, its ends meet. -/
theorem IsRun.relates {R : State → State → Prop} (refl : ∀ s, R s s) (trans : ∀ s t u, R s t → R t u → R s u)
    {run : List State} {s t : State} (hrun : IsRun run) (hs : run.head? = some s) (ht : run.getLast? = some t)
    (step : ∀ a ∈ run, ∀ b, Follows a b → R a b) : R s t := by
  induction run generalizing s with
  | nil => cases hs
  | cons a rest ih =>
    cases hs
    cases rest with
    | nil =>
      cases ht
      exact refl a
    | cons b rest =>
      obtain ⟨hab, hrest⟩ := hrun
      have hbt : R b t := ih hrest rfl (by simpa using ht) fun c hc => step c (List.mem_cons_of_mem a hc)
      exact trans a b t (step a List.mem_cons_self b hab) hbt

/-- Settles O54: a step changes the shadow only together with the refresh count, and in a run each tick that writes the
refresh command draws under OA5 (`seqStep_shadow`). -/
theorem shadowChangesOnlyAtRefresh : Obligations.ShadowChangesOnlyAtRefresh := by
  refine ⟨fun _ _ => shadowCounted_stepRelation.step, fun run s t hrun hs ht hoa => ?_⟩
  exact hrun.relates (R := ShadowKept) (fun _ => .of_eq rfl) (fun _ _ _ => .trans) hs ht
    fun a ha b hab => hab.shadowKept (hoa a ha)

/-! ### What a step runs -/

theorem step_of_run {s : State} {op : Instr} {phase : List Prim} {callers : List Frame}
    (h : s.ctl = .run op phase callers) : step s = resume s := by
  simp [step, h]

theorem step_of_lone {s : State} {q : RequesterId} {i : Instr} (h : s.ctl = .idle) (hp : s.port = [(q, i)]) :
    step s = exec i { s with caller := q, port := [] } := by
  simp [step, h, takeRequest, hp]

theorem step_of_empty {s : State} (h : s.ctl = .idle) (hp : s.port = []) : step s = .next s := by
  simp [step, h, takeRequest, hp]

/-- Settles O47: the three cases of a step (`step_of_run`, `step_of_lone`, `step_of_empty`), and a placed table word as
the lone request of the Idle block. -/
theorem stepRunsTheRequest : Obligations.StepRunsTheRequest := by
  intro s
  refine ⟨fun _ _ _ => step_of_run, fun _ _ => step_of_lone, step_of_empty, fun nbits w i h => ?_⟩
  exact step_of_lone (s := s.withFetchWord nbits w) rfl (by simp [State.withFetchWord, h])

/-! ### A step is a run of ticks -/

theorem tick_of_run {s : State} (h : s.isIdle = false) : tick s = seqStep s := by
  unfold tick
  split
  case h_1 => rfl
  case h_2 hc => simp [State.isIdle, hc] at h

theorem isIdle_of_rests {s : State} (h : s.rests = false) : s.isIdle = false := (Bool.or_eq_false_iff.1 h).1

/-- `k` ticks from `s` answer `o`, and none before the last ends the operation or holds it. -/
def TicksTo (k : Nat) (s : State) (o : Outcome State Fault Refusal) : Prop :=
  tickRun k s = o ∧ ∀ j, 0 < j → j < k → ∃ u, tickRun j s = .next u ∧ u.rests = false

theorem TicksTo.one (s : State) : TicksTo 1 s (tick s) := by
  refine ⟨?_, fun j h0 h1 => by omega⟩
  simp only [tickRun]
  cases tick s <;> rfl

theorem TicksTo.cons {k : Nat} {s t : State} {o : Outcome State Fault Refusal} (h : tick s = .next t)
    (ht : t.rests = false) (hk : TicksTo k t o) : TicksTo (k + 1) s o := by
  obtain ⟨hrun, hrests⟩ := hk
  have hsucc (j : Nat) : tickRun (j + 1) s = tickRun j t := by simp only [tickRun, h]
  refine ⟨(hsucc k).trans hrun, fun j h0 hj => ?_⟩
  obtain ⟨j, rfl⟩ := Nat.exists_eq_add_one_of_ne_zero h0.ne'
  rw [hsucc]
  rcases Nat.eq_zero_or_pos j with rfl | h0
  · exact ⟨t, rfl, ht⟩
  · exact hrests j h0 (by omega)

/-- A run of the sequencer is a run of ticks. -/
theorem drive_ticksTo (n : Nat) {s : State} (h : s.isIdle = false) :
    ∃ k, 1 ≤ k ∧ k ≤ n + 1 ∧ TicksTo k s (drive (n + 1) s) := by
  induction n generalizing s with
  | zero =>
    refine ⟨1, le_rfl, le_rfl, ?_⟩
    have hone : drive 1 s = tick s := by
      rw [tick_of_run h, drive_succ]
      cases seqStep s with
      | next t => simp [drive_zero]
      | fault r => rfl
      | refused r => rfl
    exact hone ▸ .one s
  | succ n ih =>
    have hone := TicksTo.one s
    rw [tick_of_run h] at hone
    cases hs : seqStep s with
    | next t =>
      cases ht : t.rests with
      | true => exact ⟨1, le_rfl, by omega, by rwa [drive_rest hs ht, ← hs]⟩
      | false =>
        obtain ⟨k, -, hle, hk⟩ := ih (isIdle_of_rests ht)
        exact ⟨k + 1, by omega, by omega, drive_go hs ht ▸ .cons ((tick_of_run h).trans hs) ht hk⟩
    | fault r => exact ⟨1, le_rfl, by omega, by rwa [drive_fault hs, ← hs]⟩
    | refused r => exact ⟨1, le_rfl, by omega, by rwa [drive_refused hs, ← hs]⟩

theorem resume_ticksTo {s : State} (h : s.isIdle = false) : ∃ k, 1 ≤ k ∧ k ≤ opSteps ∧ TicksTo k s (resume s) :=
  drive_ticksTo 2047 h

/-- An operation that has just begun does not rest: none begins with a poll. -/
theorem begin_rests (s : State) (i : Instr) : (s.begin i).rests = false :=
  s.acquire.rests_setCtl_of_head i [] (program_head s.cfg i)

/-- From Idle, the request that gets the lock is admitted in one tick, and an operation that begins runs on. -/
theorem exec_ticksTo {s u : State} {i : Instr} (htick : tick s = (admitRequest i u).start) :
    ∃ k, 1 ≤ k ∧ k ≤ opSteps + 1 ∧ TicksTo k s (exec i u) := by
  rw [exec_eq_admit]
  have ha := admit_cases i u
  have hone := TicksTo.one s
  rw [htick] at hone
  generalize admitRequest i u = a at htick ha hone
  cases ha with
  | begins _ =>
    have hrests := begin_rests u i
    obtain ⟨k, -, hle, hk⟩ := resume_ticksTo (isIdle_of_rests hrests)
    exact ⟨k + 1, by omega, by omega, .cons htick hrests hk⟩
  | _ => exact ⟨1, le_rfl, by decide, hone⟩

theorem step_ticksTo (s : State) : ∃ k, 1 ≤ k ∧ k ≤ opSteps + 1 ∧ TicksTo k s (step s) := by
  rcases hc : s.ctl with _ | ⟨op, phase, callers⟩
  · cases hr : takeRequest s with
    | none =>
      have hstep : step s = tick s := by simp [step, tick, hc, hr]
      exact ⟨1, le_rfl, by decide, hstep ▸ .one s⟩
    | some r =>
      obtain ⟨i, u⟩ := r
      have hstep : step s = exec i u := by simp [step, hc, hr]
      rw [hstep]
      exact exec_ticksTo (by simp [tick, hc, hr])
  · obtain ⟨k, h1, hle, hk⟩ := resume_ticksTo (s := s) (by simp [State.isIdle, hc])
    exact ⟨k, h1, by omega, step_of_run hc ▸ hk⟩

/-- Settles O49: a tick of an operation in progress is a step of the sequencer, and a step of the machine drives the
sequencer, after the tick that admits a request (`step_ticksTo`). -/
theorem stepIsARunOfTicks : Obligations.StepIsARunOfTicks := by
  intro s
  have seq {op phase callers} (h : s.ctl = .run op phase callers) : tick s = seqStep s :=
    tick_of_run (by simp [State.isIdle, h])
  exact ⟨fun op p phase callers h => (seq h).trans (seqStep_cons h),
    fun op f callers h => (seq h).trans (seqStep_return h), fun op h => (seq h).trans (seqStep_end h), step_ticksTo s⟩

/-! ### Reset -/

/-- Settles O59: the fields of `State.reset`, and those of `State.resetAgain`, which takes its draws of
the window's registers one after another. -/
theorem resetValues : Obligations.ResetValues :=
  ⟨⟨rfl, rfl, rfl, rfl, rfl, rfl, rfl, rfl, rfl, rfl, rfl⟩,
    fun _ => ⟨rfl, rfl, rfl, rfl, rfl, rfl, rfl, rfl, rfl, rfl, rfl, rfl, rfl, rfl, rfl, rfl⟩⟩

end Sys2Proof.Machine

/-! # The trace over a step: only accesses the block may make are added -/

namespace Sys2Proof.Machine
open Sys2Proof Host

/-- The trace of `t` is that of `s` with allowed events added at its end (R50, R53, R114). -/
def AddsAllowed (s t : State) : Prop := ∃ es, t.trace = s.trace ++ es ∧ es.all eventAllowed = true

theorem AddsAllowed.of_same {s t : State} (h : t.trace = s.trace) : AddsAllowed s t := ⟨[], by simp [h], rfl⟩

theorem AddsAllowed.of_event {s t : State} {e : BusEvent} (h : t.trace = s.trace ++ [e]) (he : eventAllowed e = true) :
    AddsAllowed s t := ⟨[e], h, by simp [he]⟩

theorem AddsAllowed.trans {s t u : State} (h1 : AddsAllowed s t) (h2 : AddsAllowed t u) : AddsAllowed s u := by
  obtain ⟨es, he, hes⟩ := h1
  obtain ⟨fs, hf, hfs⟩ := h2
  exact ⟨es ++ fs, by rw [hf, he, List.append_assoc], by rw [List.all_append, hes, hfs]; rfl⟩

theorem AddsAllowed.traceInv {s t : State} (h : AddsAllowed s t) (hs : s.traceInv = true) : t.traceInv = true := by
  obtain ⟨es, he, hes⟩ := h
  rw [State.traceInv] at hs ⊢
  rw [he, List.all_append, hs, hes]
  rfl

/-- A primitive adds at most one event: a read that passed the offset check, a write to MODE or ADR, or a move of the
clock gate. -/
theorem PrimEffect.addsAllowed {s t : State} (h : PrimEffect s t) : AddsAllowed s t := by
  cases h with
  | work w => exact .of_same rfl
  | oracle o => exact .of_same rfl
  | push w qs => exact .of_same (by simp)
  | enter i ps => exact .of_same (by simp)
  | read off v o w h => exact .of_event (e := .rd off v) rfl h
  | adr v => exact .of_event (s.noteAdr_trace v) rfl
  | mode v t h => exact .of_event (modeWrite_trace h) rfl
  | pulse t h => exact .of_event (t.noteAttempt_trace.trans (modeWrite_trace h)) rfl
  | clockOn o ok => exact .of_event (e := .clkOn ok) rfl rfl
  | clockOff => exact .of_event (e := .clkOff) rfl rfl
  | mapping o b => exact .of_same rfl
  | ends o w r => exact .of_same rfl

theorem addsAllowed_stepRelation : StepRelation AddsAllowed where
  trans _ _ _ := .trans
  prim _ _ := PrimEffect.addsAllowed
  ctl _ _ := .of_same rfl
  waits _ _ := .of_same rfl
  answers _ _ := .of_same rfl
  acquires _ := .of_same rfl
  takes _ _ _ _ := .of_same rfl

/-- Settles O57: the events a step adds are those of its primitives, each of them allowed (`PrimEffect.addsAllowed`). -/
theorem stepKeepsTraceToNamedOffsets : Obligations.StepKeepsTraceToNamedOffsets :=
  fun _ _ hs h => (addsAllowed_stepRelation.step h).traceInv hs

end Sys2Proof.Machine

/-! # The encodings: the command decoder's six words, and each place's round trip -/

namespace Sys2Proof

/-! ### The command decoder is the inverse of the six words (R86, R220) -/

/-- The one MODE word of each command (R86); an undefined word has none. -/
def Command.word (c : Config) : Command → Option Word32
  | .refresh => some c.cwRefresh
  | .powerDown => some c.cwPwrdn
  | .powerOn => some c.cwPwron
  | .read .array => some c.cwAread
  | .read .margin => some c.cwMread
  | .program => some c.cwProg
  | .undefined => none

/-- The word of a command decodes to it. -/
theorem decodeCommand_of_word {c : Config} (hc : c.wf = true) {k : Command} {w : Word32} (hw : k.word c = some w) :
    decodeCommand c w = k := by
  match k, hw with
  | .refresh, rfl => exact decodeCommand_refresh c
  | .powerDown, rfl => exact decodeCommand_pwrdn hc
  | .powerOn, rfl => exact decodeCommand_pwron hc
  | .read .array, rfl => exact decodeCommand_aread hc
  | .read .margin, rfl => exact decodeCommand_mread hc
  | .program, rfl => exact decodeCommand_prog hc

theorem exists_word_of_mem {c : Config} {v : Word32} (hv : v ∈ c.commandWords) :
    ∃ k : Command, k.word c = some v := by
  simp only [Config.commandWords, Config.plainWords, List.mem_cons, List.not_mem_nil, or_false] at hv
  rcases hv with rfl | rfl | rfl | rfl | rfl | rfl
  exacts [⟨.refresh, rfl⟩, ⟨.read .array, rfl⟩, ⟨.read .margin, rfl⟩, ⟨.program, rfl⟩, ⟨.powerOn, rfl⟩,
    ⟨.powerDown, rfl⟩]

/-- What a word decodes to: the command it is the word of, or, outside the six words, undefined. -/
theorem word_decodeCommand {c : Config} (hc : c.wf = true) (v : Word32) :
    (decodeCommand c v).word c = some v ∨ decodeCommand c v = .undefined ∧ v ∉ c.commandWords := by
  by_cases hv : v ∈ c.commandWords
  · obtain ⟨k, hk⟩ := exists_word_of_mem hv
    rw [decodeCommand_of_word hc hk]
    exact .inl hk
  · exact .inr ⟨decodeCommand_undefined hc hv, hv⟩

theorem decodeCommand_eq_iff {c : Config} (hc : c.wf = true) {k : Command} {w : Word32} (hw : k.word c = some w)
    (v : Word32) : decodeCommand c v = k ↔ v = w := by
  refine ⟨fun hk => ?_, fun hv => hv ▸ decodeCommand_of_word hc hw⟩
  rcases word_decodeCommand hc v with h | ⟨h, -⟩
  · rw [hk, hw] at h
    exact (Option.some.inj h).symm
  · rw [← hk, h] at hw
    cases hw

theorem decodeCommand_eq_undefined_iff {c : Config} (hc : c.wf = true) (v : Word32) :
    decodeCommand c v = .undefined ↔ v ∉ c.commandWords := by
  refine ⟨fun hu => ?_, decodeCommand_undefined hc⟩
  rcases word_decodeCommand hc v with h | ⟨-, h⟩
  · rw [hu] at h
    cases h
  · exact h

/-- Settles O1: each command has its one word (`decodeCommand_eq_iff`), and the words of no command are undefined. -/
theorem commandDecoderMapsSixWords : Obligations.CommandDecoderMapsSixWords := by
  intro c v hc
  refine ⟨decodeCommand_eq_iff hc rfl v, decodeCommand_eq_iff hc rfl v, decodeCommand_eq_iff hc rfl v,
    decodeCommand_eq_iff hc rfl v, decodeCommand_eq_iff hc rfl v, decodeCommand_eq_iff hc rfl v,
    (decodeCommand_eq_undefined_iff hc v).trans (not_congr ?_)⟩
  simp only [Config.commandWords, Config.plainWords, Config.cwRefresh, Config.cwAread, Config.cwMread, Config.cwProg,
    Config.cwPwron, Config.cwPwrdn, List.mem_cons, List.not_mem_nil, or_false]
  tauto

/-! ### Decoding an encoding -/

/-- Every instruction with an encoding has its round trip in Laws; the others have no encoding (R80, D32). -/
theorem roundTrip (i : Instr) : Laws.RoundTrip.Statement i := by
  cases i with
  | cwAread => exact Laws.RoundTrip.cwAread
  | cwMread => exact Laws.RoundTrip.cwMread
  | cwProg => exact Laws.RoundTrip.cwProg
  | cwPwron => exact Laws.RoundTrip.cwPwron
  | cwPwrdn => exact Laws.RoundTrip.cwPwrdn
  | cwRefresh => exact Laws.RoundTrip.cwRefresh
  | cwUndefined v => exact Laws.RoundTrip.cwUndefined v
  | adrProg b w r => exact Laws.RoundTrip.adrProg b w r
  | adrRead w r => exact Laws.RoundTrip.adrRead w r
  | statusReady v => exact Laws.RoundTrip.statusReady v
  | streamWritePayload addr value => exact Laws.RoundTrip.streamWritePayload addr value
  | rdmodeArray pw => exact Laws.RoundTrip.rdmodeArray pw
  | rdmodeMargin pw => exact Laws.RoundTrip.rdmodeMargin pw
  | _ => exact fun _ _ _ _ he => nomatch he

/-- Settles O3, by the round trip of each instruction (`roundTrip`). -/
theorem decodeOfEncode : Obligations.DecodeOfEncode :=
  fun c i ch bytes hc hi he => roundTrip i c (ch, bytes) hc hi he

/-! ### Encoding a decoding -/

theorem encode_decodeMode {c : Config} (hc : c.wf = true) (v : Word32) :
    encode c (decodeMode c v) = some (.modeWord, bytesOfWord v) := by
  unfold decodeMode
  rcases word_decodeCommand hc v with hw | ⟨hu, -⟩
  · split
    all_goals
      rename_i hk
      rw [hk] at hw
      cases hw <;> rfl
  · rw [hu]
    rfl

/-- A field of zeros from bit `n` on leaves no bit of the word set there. -/
theorem getLsbD_of_extractLsb'_eq_zero {v : Word32} {n m : Nat} (h : v.extractLsb' n m = 0#m) {k : Nat} (hn : n ≤ k)
    (hk : k < n + m) : v.getLsbD k = false := by
  have hz := congrArg (fun u => u.getLsbD (k - n)) h
  simpa [BitVec.getLsbD_extractLsb', show k - n < m by omega, show n + (k - n) = k by omega] using hz

/-- The ADR program format drops no bit of a word whose reserved bits are 0 (R81). -/
theorem encodeAdrProg_extract {v : Word32} (h : v.extractLsb' 12 20 = 0#20) :
    encodeAdrProg (v.extractLsb' 7 5) (v.extractLsb' 1 6) (v.extractLsb' 0 1) = v := by
  apply BitVec.eq_of_getLsbD_eq
  intro k hk
  have hz (hn : 12 ≤ k) : v.getLsbD k = false := getLsbD_of_extractLsb'_eq_zero h hn hk
  simp [encodeAdrProg, BitVec.getLsbD_extractLsb']
  grind

/-- The ADR read format drops no bit of a word whose reserved bits are 0 (R82). -/
theorem encodeAdrRead_extract {v : Word32} (h : v.extractLsb' 7 25 = 0#25) :
    encodeAdrRead (v.extractLsb' 1 6) (v.extractLsb' 0 1) = v := by
  apply BitVec.eq_of_getLsbD_eq
  intro k hk
  have hz (hn : 7 ≤ k) : v.getLsbD k = false := getLsbD_of_extractLsb'_eq_zero h hn hk
  simp [encodeAdrRead, BitVec.getLsbD_extractLsb']
  grind

theorem encode_of_decodeAdrProg (c : Config) {v : Word32} {i : Instr} (h : decodeAdrProg v = .ok i) :
    encode c i = some (.adrProgram, bytesOfWord v) := by
  unfold decodeAdrProg at h
  split at h
  · cases h
    rw [encode, encodeAdrProg_extract ‹_›]
  · cases h

theorem encode_of_decodeAdrRead (c : Config) {v : Word32} {i : Instr} (h : decodeAdrRead v = .ok i) :
    encode c i = some (.adrRead, bytesOfWord v) := by
  unfold decodeAdrRead at h
  split at h
  · cases h
    rw [encode, encodeAdrRead_extract ‹_›]
  · cases h

theorem encode_of_decodeStatus {c : Config} {v : Word32} {i : Instr} (h : decodeStatus c v = .ok i) :
    encode c i = some (.statusValue, bytesOfWord v) := by
  unfold decodeStatus at h
  split at h
  · cases h
    rfl
  · cases h

theorem encode_of_decodeReadMode {c : Config} {mode pw : Word32} {i : Instr} (h : decodeReadMode c mode pw = .ok i) :
    encode c i = some (.readMode, bytesOfWord mode ++ bytesOfWord pw) := by
  unfold decodeReadMode at h
  split at h
  case isTrue hm =>
    cases h
    rw [encode, hm]
  case isFalse =>
    split at h
    case isTrue hm =>
      cases h
      rw [encode, hm]
    case isFalse => cases h

/-- Settles O4: place by place, the word or words of the bytes are encoded again (`encode_decodeMode` and its like), and
a word's bytes are those it was made of. -/
theorem encodeOfDecode : Obligations.EncodeOfDecode := by
  intro c i ch bytes hc h
  unfold decode at h
  split at h
  case h_1 b0 b1 b2 b3 =>
    cases h
    rw [encode_decodeMode hc, byteOfWord_wordOfBytes]
  case h_2 b0 b1 b2 b3 => rw [encode_of_decodeAdrProg c h, byteOfWord_wordOfBytes]
  case h_3 b0 b1 b2 b3 => rw [encode_of_decodeAdrRead c h, byteOfWord_wordOfBytes]
  case h_4 b0 b1 b2 b3 => rw [encode_of_decodeStatus h, byteOfWord_wordOfBytes]
  case h_5 b0 b1 b2 b3 b4 b5 b6 b7 =>
    rw [encode_of_decodeReadMode h, byteOfWord_wordOfBytes, byteOfWord_wordOfBytes]
    rfl
  case h_6 b0 b1 b2 b3 b4 b5 b6 b7 =>
    cases h
    rw [encode, payloadBytes, byteOfWord_wordOfBytes, byteOfWord_wordOfBytes]
    rfl
  case h_7 => cases h

/-! ### Words written out, and control codes -/

/-- Settles O2, by evaluating the decoder on each of the words. -/
theorem specWordsDecode : Obligations.SpecWordsDecode := by
  unfold Obligations.SpecWordsDecode
  decide

theorem decodeCtrl_read (c : Config) (addr value : Word32) : decodeCtrl c c.ioctlRead addr value = .hCtrlRead addr :=
  if_pos rfl

theorem decodeCtrl_write {c : Config} (h : c.ctrlCodesDiffer = true) (addr value : Word32) :
    decodeCtrl c c.ioctlWrite addr value = .hCtrlWrite addr value := by
  have hne : c.ioctlWrite ≠ c.ioctlRead := (bne_iff_ne.mp h).symm
  rw [decodeCtrl, if_neg hne, if_pos rfl]

theorem decodeCtrl_other {c : Config} {code : Word32} (hr : code ≠ c.ioctlRead) (hw : code ≠ c.ioctlWrite)
    (addr value : Word32) : decodeCtrl c code addr value = .hCtrlOther code := by
  rw [decodeCtrl, if_neg hr, if_neg hw]

/-- Settles O5: `decodeCtrl` on the read code, on the write code, which is another, and on a third. -/
theorem controlCodesSelectRequests : Obligations.ControlCodesSelectRequests :=
  fun c _ addr value h => ⟨decodeCtrl_read c addr value, decodeCtrl_write h addr value,
    fun hr hw => decodeCtrl_other hr hw addr value⟩

end Sys2Proof

/-! # The address words and the ready word: what the access that carries each leaves -/

namespace Sys2Proof.Machine
open Sys2Proof Host

/-! ### The address words (R81, R82) -/

/-- A mask of `n` ones keeps a field of `n` bits whole. -/
theorem setWidth_and_ones {n : Nat} (x : BitVec n) :
    x.setWidth 32 &&& BitVec.ofNat 32 (2 ^ n - 1) = x.setWidth 32 := by
  apply BitVec.eq_of_getLsbD_eq
  intro k hk
  have hx (h : n ≤ k) : x.getLsbD k = false := x.getLsbD_of_ge k h
  simp only [BitVec.getLsbD_and, BitVec.getLsbD_setWidth, BitVec.getLsbD_ofNat, Nat.testBit_two_pow_sub_one]
  grind

/-- The ADR program format is COMPOSE of its fields (R81, R130). -/
theorem encodeAdrProg_eq_composeAddr (b : BitVec 5) (w : BitVec 6) (r : BitVec 1) :
    encodeAdrProg b w r = composeAddr (w.setWidth 32) (b.setWidth 32) (r.setWidth 32) := by
  rw [composeAddr, show (0x1F : Word32) = BitVec.ofNat 32 (2 ^ 5 - 1) from rfl,
    show (0x3F : Word32) = BitVec.ofNat 32 (2 ^ 6 - 1) from rfl, setWidth_and_ones, setWidth_and_ones, encodeAdrProg]

theorem encodeAdrProg_toNat (b : BitVec 5) (w : BitVec 6) (r : BitVec 1) :
    (encodeAdrProg b w r).toNat = b.toNat * 128 + w.toNat * 2 + r.toNat := by
  have hr : isRow (r.setWidth 32) = true := by
    revert r
    decide
  rw [encodeAdrProg_eq_composeAddr, composeAddr_toNat hr]
  simp only [BitVec.toNat_setWidth]
  omega

/-- The ADR read format is the program format at bit 0 (R82). -/
theorem encodeAdrRead_eq (w : BitVec 6) (r : BitVec 1) : encodeAdrRead w r = encodeAdrProg 0 w r := by
  simp [encodeAdrRead, encodeAdrProg]

theorem encodeAdrRead_toNat (w : BitVec 6) (r : BitVec 1) : (encodeAdrRead w r).toNat = w.toNat * 2 + r.toNat := by
  simp [encodeAdrRead_eq, encodeAdrProg_toNat]

/-- A register primitive whose program is one write to ADR, run to its end (R111). -/
theorem run_writeAdr {s : State} (h : s.available) {i : Instr} {v : Word32} (hp : program s.cfg i = wrRegProg offAdr v)
    (hv : ∀ t, returnValue t i = .unit) :
    (admitPrimitive i s).run = .next { s with
      adrLast := some v
      trace := s.trace ++ [.wr offAdr v]
      ctl := .idle
      responses := s.replied (.ok .unit) } := by
  rw [admitPrimitive_available h, hp, (Runs.writeAdr s.acquire v).ends i (by decide), hv]
  simp [State.endOp, State.noteAdr, State.acquire, State.replied, h.1]

/-- Settles O14: each address word runs as the write of its encoding to ADR (`run_writeAdr`). -/
theorem addressWordsGoToAdr : Obligations.AddressWordsGoToAdr :=
  fun _ b w r h => ⟨⟨encodeAdrProg b w r, encodeAdrProg_toNat b w r, run_writeAdr h rfl fun _ => rfl⟩,
    ⟨encodeAdrRead w r, encodeAdrRead_toNat w r, run_writeAdr h rfl fun _ => rfl⟩⟩

/-! ### The ready word (R85) -/

/-- STATUS_READY with BUSY clear: the answer it carries is drawn by the wait's first read. -/
theorem Runs.statusReady {s : State} {v : Word32} (hv : isReadyWord s.cfg v = true) :
    Runs 4 (statusReadyProg v) s (readyPolled s v s.oracle) := by
  have hput : Runs 1 [.statusAnswer v] s (s.setOracle { s.oracle with status := v :: s.oracle.status }) :=
    Runs.single fun _ => rfl
  have hwait := Runs.waitReady (s := s.setOracle { s.oracle with status := v :: s.oracle.status }) rfl hv
  exact hput.append hwait (by simp)

/-- Settles O15, by `Runs.statusReady` run to its end. -/
theorem readyWordEndsTheWait : Obligations.ReadyWordEndsTheWait := by
  intro s v h hv
  have hready : isReadyWord s.cfg v = true := beq_iff_eq.mpr hv
  calc exec (.statusReady v) s = drive opSteps (s.acquire.setCtl (.run (.statusReady v) (statusReadyProg v) [])) :=
        admitMapped_available h _
    _ = .next ((readyPolled s.acquire v s.oracle).endOp (.ok .unit)) :=
        (Runs.statusReady (s := s.acquire) hready).ends _ (by decide)
    _ = _ := by
        simp [readyPolled, State.endOp, State.emit, State.setOracle, State.setWork, State.acquire, State.replied, h.1]

end Sys2Proof.Machine

/-! # The register protocol: what RD_REG, WR_REG and SET_BITS admit, answer and write -/

namespace Sys2Proof.Machine
open Sys2Proof Host

/-! ### The offsets (R110 to R112) -/

theorem isShadowOffset_iff {off : Word32} :
    isShadowOffset off = true ↔ ∃ k, k < 64 ∧ off.toNat = 0x100 + 4 * k := by
  simp only [isShadowOffset, Bool.and_eq_true, decide_eq_true_eq, beq_iff_eq]
  constructor
  · rintro ⟨⟨hlo, hhi⟩, hal⟩
    exact ⟨off.toNat / 4 - 64, by omega, by omega⟩
  · rintro ⟨k, hk, hoff⟩
    omega

theorem isWritableOffset_iff {off : Word32} : isWritableOffset off = true ↔ off = offMode ∨ off = offAdr := by
  simp [isWritableOffset]

theorem isReadableOffset_iff {off : Word32} : isReadableOffset off = true ↔
    off = offMode ∨ off = offAdr ∨ off = offRdData ∨ off = offStatus ∨ isShadowOffset off = true := by
  simp [isReadableOffset, or_assoc]

theorem isSetBitsOffset_iff {off : Word32} : isSetBitsOffset off = true ↔ off = offMode := beq_iff_eq

/-- Settles O17: the named offsets of each primitive and the range of the shadow (`isShadowOffset_iff`), as numbers. -/
theorem primitivesAdmitNamedOffsets : Obligations.PrimitivesAdmitNamedOffsets := by
  intro off
  rw [isReadableOffset_iff, isWritableOffset_iff, isSetBitsOffset_iff, isShadowOffset_iff]
  simp only [← BitVec.toNat_inj]
  exact ⟨Iff.rfl, Iff.rfl, Iff.rfl⟩

/-! ### RD_REG (R110) -/

/-- The offset of shadow register `k` is answered by it. -/
theorem readAnswer_shadowWord (s : State) {off : Word32} {k : Nat} (hk : k < 64) (h : off.toNat = 0x100 + 4 * k) :
    readAnswer off s = (shadowWord s k, s.oracle) := by
  have hi : (shadowIndex off).toFin = Fin.ofNat 64 k := by
    apply Fin.eq_of_val_eq
    show (shadowIndex off).toNat = k % 64
    simp only [shadowIndex, BitVec.extractLsb'_toNat, h, Nat.shiftRight_eq_div_pow]
    omega
  rw [readAnswer_shadow s (isShadowOffset_iff.mpr ⟨k, hk, h⟩), hi]
  rfl

/-- What a read of an admitted offset leaves that answers `v` (R11, R110). -/
def readDone (s : State) (off v : Word32) (o : Oracle) : State :=
  ((s.setOracle o).emit (.rd off v)).setRet v

theorem exec_rdReg {s : State} (h : s.available) {off v : Word32} {o : Oracle} (hoff : isReadableOffset off = true)
    (hv : readAnswer off s = (v, o)) : exec (.rdReg off) s = .next { s with
      work := { s.work with ret := v }
      oracle := o
      trace := s.trace ++ [.rd off v]
      ctl := .idle
      responses := s.replied (.ok (.word v)) } := by
  calc exec (.rdReg off) s = drive opSteps (s.acquire.setCtl (.run (.rdReg off) (rdRegProg off) [])) :=
        admitPrimitive_available h _
    _ = .next ((readDone s.acquire off v o).endOp (.ok (.word v))) :=
        (Runs.read (s := s.acquire) hoff hv).ends _ (by decide)
    _ = _ := by
        simp [readDone, State.endOp, State.emit, State.setOracle, State.setRet, State.acquire, State.replied, h.1]

/-- A primitive whose pseudocode stops at its first step ends as it stops. -/
theorem run_of_stops {s : State} (h : s.available) {i : Instr} {o : Outcome State Fault Refusal}
    (hs : Stops 1 (program s.cfg i) s.acquire o) : (admitPrimitive i s).run = o := by
  rw [admitPrimitive_available h]
  exact hs.ends i (by decide)

/-- A primitive refused by its first access. -/
theorem Stops.refused {p : Prim} {s : State} {r : Refusal} (h : ∀ c, runPrim p (s.setCtl c) = .refused r) :
    Stops 1 [p] s (.refused r) :=
  Stops.single h (fun _ e => nomatch e) []

/-- Settles O16: an admitted read answers what its register does (`exec_rdReg`, `readAnswer_mode` and its like,
`readAnswer_shadowWord`); the access refuses any other offset. -/
theorem rdRegAnswers : Obligations.RdRegAnswers := by
  intro s off h
  refine ⟨fun hoff => ⟨(readAnswer off s).1, (readAnswer off s).2, exec_rdReg h hoff rfl, ?_, ?_, ?_, ?_, ?_⟩,
    fun hoff => run_of_stops h (.refused fun c => regRead_of_not_readable _ hoff)⟩
  · rintro rfl
    exact readAnswer_mode s
  · rintro rfl
    exact readAnswer_adr s
  · rintro rfl
    exact readAnswer_rdData s
  · rintro rfl
    exact readAnswer_status s
  · intro k hk hoff
    exact Prod.mk.inj (readAnswer_shadowWord s hk hoff)

/-! ### Pieces that may fault -/

/-- The primitives `ps` take `s` to the outcome `o`: they run on to a next state, or end the operation with a fault or
a refusal. -/
def Yields (k : Nat) (ps : List Prim) (s : State) : Outcome State Fault Refusal → Prop
  | .next t => Runs k ps s t
  | .fault r => Stops k ps s (.fault r)
  | .refused r => Stops k ps s (.refused r)

theorem Stops.weaken {k j : Nat} {ps : List Prim} {s : State} {o : Outcome State Fault Refusal} (h : Stops k ps s o) :
    Stops (k + j) ps s o := by
  intro op phase callers n hp
  rw [Nat.add_comm k, ← Nat.add_assoc]
  exact h op phase callers (n + j) hp

theorem Yields.single {p : Prim} {s : State} {o : Outcome State Fault Refusal}
    (h : ∀ c, runPrim p (s.setCtl c) = mapNext (State.setCtl · c) o) : Yields 1 [p] s o := by
  cases o with
  | next t => exact Runs.single h
  | fault r => exact Stops.single h (fun _ e => nomatch e) []
  | refused r => exact Stops.refused h

/-- A piece that runs on, then one that may fault. -/
theorem Runs.yields {j k : Nat} {ps qs : List Prim} {s t : State} {o : Outcome State Fault Refusal} (h1 : Runs j ps s t)
    (h2 : Yields k qs t o) (hq : qs.head? ≠ some .poll) : Yields (k + j) (ps ++ qs) s o := by
  cases o with
  | next u => exact h1.append h2 hq
  | fault r => exact h1.stops h2 hq
  | refused r => exact h1.stops h2 hq

/-- An end inside a nested frame ends its callers too (R13, R254). -/
theorem Stops.framed {k : Nat} {p : Prim} {i : Instr} {ps : List Prim} {s : State} {o : Outcome State Fault Refusal}
    (h : ∀ op phase callers, runPrim p (s.setCtl (.run op phase callers)) =
      .next (s.setCtl (.run i ps (⟨op, phase⟩ :: callers))))
    (hq : ps.head? ≠ some .poll) (hs : Stops k ps s o) : Stops (k + 1) [p] s o := by
  intro op phase callers n _
  have hb := hs i [] (⟨op, phase⟩ :: callers) n (by simp)
  rw [List.append_nil] at hb
  rw [List.singleton_append, ← Nat.add_assoc, drive_cons, h, follow_go (s.rests_setCtl_of_head _ _ hq), hb]

/-- A frame whose phase may fault. -/
theorem Yields.framed {k : Nat} {p : Prim} {i : Instr} {ps : List Prim} {s : State} {o : Outcome State Fault Refusal}
    (h : ∀ op phase callers, runPrim p (s.setCtl (.run op phase callers)) =
      .next (s.setCtl (.run i ps (⟨op, phase⟩ :: callers))))
    (hq : ps.head? ≠ some .poll) (hy : Yields k ps s o) : Yields (k + 2) [p] s o := by
  cases o with
  | next t => exact Runs.framed h hq hy
  | fault r => exact (Stops.framed h hq hy).weaken (j := 1)
  | refused r => exact (Stops.framed h hq hy).weaken (j := 1)

/-- An operation that may fault, run to its end. -/
theorem Yields.ends {k : Nat} {ps : List Prim} {s : State} {o : Outcome State Fault Refusal} (h : Yields k ps s o)
    (op : Instr) {n : Nat} (hn : k < n) :
    drive n (s.setCtl (.run op ps [])) = mapNext (fun t => t.endOp (.ok (returnValue t op))) o := by
  cases o with
  | next t => exact Runs.ends h op hn
  | fault r => exact Stops.ends h op hn.le
  | refused r => exact Stops.ends h op hn.le

/-! ### A write to MODE and the lock (R111, R220) -/

theorem readCommand_acquire (s : State) : readCommand s.acquire = mapNext State.acquire (readCommand s) := by
  simp only [readCommand, State.acquire_powered, State.acquire_adrLast]
  cases s.adrLast with
  | none => by_cases hp : s.powered = some true <;> simp [hp]
  | some a => by_cases hp : s.powered = some true <;> simp [hp, apply_ite (mapNext State.acquire)]

theorem programCommand_acquire (s : State) : programCommand s.acquire = mapNext State.acquire (programCommand s) := by
  simp only [programCommand, State.acquire_adrLast]
  cases s.adrLast with
  | none => rfl
  | some a =>
    dsimp only
    split <;> rfl

/-- The fuse macro does not see the lock. -/
theorem modeWrite_acquire (s : State) (v : Word32) :
    modeWrite v s.acquire = mapNext State.acquire (modeWrite v s) := by
  show applyCommand v (s.noteMode v).acquire = mapNext State.acquire (applyCommand v (s.noteMode v))
  rw [applyCommand, applyCommand, State.acquire_cfg]
  cases decodeCommand (s.noteMode v).cfg v with
  | read kind => exact readCommand_acquire _
  | program => exact programCommand_acquire _
  | _ => rfl

/-- `t` agrees with `s` on the lock, the requester being served and the results given. -/
structure SameLock (s t : State) : Prop where
  owner : t.owner = s.owner
  caller : t.caller = s.caller
  responses : t.responses = s.responses

theorem SameLock.trans {s t u : State} (h1 : SameLock s t) (h2 : SameLock t u) : SameLock s u :=
  ⟨h2.owner.trans h1.owner, h2.caller.trans h1.caller, h2.responses.trans h1.responses⟩

/-- Nor does the fuse macro touch the lock. -/
theorem modeWrite_sameLock {v : Word32} {s t : State} (h : modeWrite v s = .next t) : SameLock s t := by
  rcases modeWrite_next h with rfl | ⟨on, rfl⟩ | rfl | ⟨a, -, -, rfl⟩ <;> exact ⟨rfl, rfl, rfl⟩

/-- `t` once the requester served in `s` has got a result that holds no value, the block Idle (R14, R255). -/
def State.served (s t : State) : State := { t with ctl := .idle, responses := s.replied (.ok .unit) }

theorem endOp_acquire_eq_served {s t : State} (h : s.owner = none) (ht : SameLock s t) :
    t.acquire.endOp (.ok .unit) = s.served t := by
  obtain ⟨ho, hc, hr⟩ := ht
  simp [State.endOp, State.acquire, State.served, State.replied, ho, hc, hr, h]

/-- A primitive whose pseudocode ends in a write to MODE, made in the state `u`, ends as the decoded command does. -/
theorem run_writeMode {s u : State} (h : s.available) {i : Instr} {k : Nat} {v : Word32}
    (hy : Yields k (program s.cfg i) s.acquire (modeWrite v u.acquire)) (hk : k < opSteps)
    (hv : ∀ t, returnValue t i = .unit) (hu : SameLock s u) :
    (admitPrimitive i s).run = mapNext s.served (modeWrite v u) := by
  rw [admitPrimitive_available h, hy.ends i hk, modeWrite_acquire]
  cases hm : modeWrite v u with
  | next t =>
    simp only [mapNext_next, hv]
    rw [endOp_acquire_eq_served h.1 (hu.trans (modeWrite_sameLock hm))]
  | fault r => rfl
  | refused r => rfl

/-! ### WR_REG (R111) -/

theorem Yields.writeMode (s : State) (v : Word32) : Yields 1 (wrRegProg offMode v) s (modeWrite v s) :=
  .single fun c => by simp [runPrim]

theorem exec_wrReg_mode {s : State} (h : s.available) (v : Word32) :
    exec (.wrReg offMode v) s = mapNext s.served (modeWrite v s) :=
  run_writeMode h (Yields.writeMode s.acquire v) (by decide) (fun _ => rfl) ⟨rfl, rfl, rfl⟩

/-- Settles O18: the write to ADR (`run_writeAdr`), the write to MODE with every outcome of its command
(`exec_wrReg_mode`), and the refused access. -/
theorem wrRegWritesAdrOrMode : Obligations.WrRegWritesAdrOrMode := by
  intro s v h
  refine ⟨run_writeAdr h rfl fun _ => rfl, exec_wrReg_mode h v, fun off hadr hmode => ?_⟩
  have hoff : isWritableOffset off = false :=
    Bool.eq_false_iff.mpr fun hw => (isWritableOffset_iff.mp hw).elim hmode hadr
  exact run_of_stops h (.refused fun c => regWrite_of_not_writable _ hoff v)

/-! ### SET_BITS (R112) -/

/-- SET_BITS over a readback, with every outcome of the word it writes. -/
theorem Yields.setBits {s : State} {mr : Word32} {o : Oracle} (ho : s.oracle.nextMode = (mr, o)) (mask : Word32) :
    Yields 4 (setBitsProg offMode mask) s (modeWrite (mr ||| mask) (readDone s offMode mr o)) := by
  have hread : Runs 1 [.regRead offMode] s (readDone s offMode mr o) :=
    Runs.read (off := offMode) rfl (by simpa using ho)
  have hwrite : Yields 3 [.callWriteOr offMode mask] (readDone s offMode mr o)
      (modeWrite (mr ||| mask) (readDone s offMode mr o)) :=
    Yields.framed (i := .wrReg offMode (mr ||| mask)) (ps := wrRegProg offMode (mr ||| mask))
      (fun op phase callers => by simp [runPrim, readDone]) (by simp [wrRegProg]) (Yields.writeMode _ _)
  exact hread.yields hwrite (by simp)

theorem exec_setBits_mode {s : State} (h : s.available) {mr : Word32} {o : Oracle} (ho : s.oracle.nextMode = (mr, o))
    (mask : Word32) :
    exec (.setBits offMode mask) s = mapNext s.served (modeWrite (mr ||| mask) (readDone s offMode mr o)) :=
  run_writeMode h (Yields.setBits (s := s.acquire) ho mask) (by decide) (fun _ => rfl) ⟨rfl, rfl, rfl⟩

theorem readDone_noteMode (s : State) (mr v : Word32) (o : Oracle) : (readDone s offMode mr o).noteMode v = { s with
    work := { s.work with ret := mr }
    oracle := o
    trace := s.trace ++ [.rd offMode mr, .wr offMode v]
    modeLast := some v } := by
  simp [readDone, State.noteMode, State.setRet, State.emit, State.setOracle]

theorem exec_setBits_other {s : State} (h : s.available) {off : Word32} (hoff : off ≠ offMode) (mask : Word32) :
    exec (.setBits off mask) s = .refused .offsetUndefined := by
  have hprog : program s.cfg (.setBits off mask) = [.refuse .offsetUndefined] := if_neg (mt isSetBitsOffset_iff.mp hoff)
  exact run_of_stops h (hprog ▸ .refused fun c => rfl)

/-- Settles O19: the readback, then the write to MODE with every outcome of its command (`exec_setBits_mode`); over a
clean readback that word is CW_PWRON (`cleanReadback_or`). -/
theorem setBitsWritesReadbackOrMask : Obligations.SetBitsWritesReadbackOrMask := by
  intro s mask mr o h ho
  refine ⟨?_, fun hw hmr => ?_, fun off hoff => exec_setBits_other h hoff mask⟩
  · rw [exec_setBits_mode h ho, modeWrite, readDone_noteMode]
    rfl
  · have hon := modeWrite_pwron (s := readDone s offMode mr o) rfl hw
    rw [exec_setBits_mode h ho, cleanReadback_or hmr]
    exact (congrArg (mapNext s.served) hon).trans (by rw [readDone_noteMode]; rfl)

end Sys2Proof.Machine

/-! # The handshake: the wait on BUSY, the power and refresh commands, the window's lifetime -/

namespace Sys2Proof.Machine
open Sys2Proof Host

/-! ### The end of an operation from a free lock -/

theorem raiseError_of_owner {s : State} {q : RequesterId} (h : s.owner = some q) (kind : ErrorKind) (why : Reason) :
    s.raiseError kind why =
      { s with owner := none, ctl := .idle, responses := s.responses ++ [(q, .error kind why)] } := by
  simp [State.raiseError, State.endOp, h]

/-- An operation that returns no value, begun with the lock free and run to its end. -/
theorem Runs.served {s t : State} {ps : List Prim} {i : Instr} {k : Nat} (hr : Runs k ps s.acquire t.acquire)
    (h : s.owner = none) (hk : k < opSteps) (hv : ∀ u, returnValue u i = .unit) (ht : SameLock s t) :
    drive opSteps (s.acquire.setCtl (.run i ps [])) = .next (s.served t) := by
  rw [hr.ends i hk, hv, endOp_acquire_eq_served h ht]

/-- An operation that ends in an error, begun with the lock free. -/
theorem Stops.replied {s t : State} {ps : List Prim} {k : Nat} {kind : ErrorKind} {why : Reason}
    (hs : Stops k ps s.acquire (.next (t.acquire.raiseError kind why))) (h : s.owner = none) (hk : k ≤ opSteps)
    (i : Instr) (ht : SameLock s t) : drive opSteps (s.acquire.setCtl (.run i ps [])) =
      .next { t with ctl := .idle, responses := s.replied (.error kind why) } := by
  obtain ⟨ho, hc, hr⟩ := ht
  rw [hs.ends i hk, raiseError_of_owner rfl]
  simp [State.acquire, State.replied, hc, hr, ho, h]

/-! ### REFRESH and the refresh word (R122, R226) -/

/-- Settles O12: the word's own write to MODE, and REFRESH's call of WR_REG (`Runs.refresh`), leave the same state. -/
theorem refreshLoadsTheShadow : Obligations.RefreshLoadsTheShadow := by
  have hlock (s : State) : SameLock s (refreshCommand (s.noteMode s.cfg.cwRefresh)) := ⟨rfl, rfl, rfl⟩
  rintro s i (rfl | rfl) h
  · have hword := Runs.writeMode (modeWrite_refresh (s := s.acquire) rfl)
    exact (admitPrimitive_available h _).trans (hword.served h.1 (by decide) (fun _ => rfl) (hlock s))
  · exact (admitMapped_available h _).trans
      ((Runs.refresh s.acquire).served h.1 (by decide) (fun _ => rfl) (hlock s))

/-! ### POWER (R121, R222, R223) -/

/-- POWER whose pseudocode writes the command word `v` over a MODE readback, `powered` following it, run to its end. -/
theorem exec_power_of_runs {s : State} {en on : Bool} {mr v : Word32} {o : Oracle} (h : s.available)
    (hr : Runs 6 (powerProg s.cfg en) s.acquire (((readDone s.acquire offMode mr o).noteMode v).setPowered on)) :
    exec (.power en) s = .next { s with
      work := { s.work with ret := mr }
      oracle := o
      powered := some on
      modeLast := some v
      trace := s.trace ++ [.rd offMode mr, .wr offMode v]
      ctl := .idle
      responses := s.replied (.ok .unit) } := by
  have hserved := hr.served (i := .power en) (t := ((readDone s offMode mr o).noteMode v).setPowered on) h.1 (by decide)
    (fun _ => rfl) ⟨rfl, rfl, rfl⟩
  rw [readDone_noteMode] at hserved
  exact (admitMapped_available h _).trans hserved

/-- Settles O23: `Runs.powerOn` and `Runs.powerOff`, run to their ends. -/
theorem powerWritesItsCommand : Obligations.PowerWritesItsCommand :=
  fun s _ _ h hw ho hmr => ⟨exec_power_of_runs h (Runs.powerOn (s := s.acquire) hw ho hmr),
    exec_power_of_runs h (Runs.powerOff (s := s.acquire) hw ho hmr)⟩

/-! ### INIT and TEARDOWN (R124, R125) -/

theorem Runs.mapWindow {s : State} (hd : s.oracle.nextMapping.1 = true) :
    Runs 1 initProg s ((s.setOracle s.oracle.nextMapping.2).setMapped true) :=
  Runs.single fun _ => by simp [runPrim, mapStep, hd]

theorem Stops.mapWindow {s : State} (hd : s.oracle.nextMapping.1 = false) :
    Stops 1 initProg s (.next ((s.setOracle s.oracle.nextMapping.2).raiseError .errResource .mapFailed)) :=
  Stops.single (fun _ => by simp [runPrim, mapStep, hd]) (rests_of_raise _ _ _) []

theorem Runs.unmapWindow (s : State) : Runs 1 teardownProg s (s.setMapped false) :=
  Runs.single fun _ => rfl

/-- Settles O25: admission decides whether the window's state fits the request, and INIT's draw whether it ends with
`mapped` or with ErrResource. -/
theorem initAndTeardownMapTheWindow : Obligations.InitAndTeardownMapTheWindow := by
  intro s ho
  refine ⟨fun hm hd => ?_, fun hm hd => ?_, fun hm => ?_, fun hm => ?_, fun hm => ?_⟩
  · have hmap := Runs.mapWindow (s := s.acquire) hd
    exact (admitInit_unmapped ho hm _).trans (hmap.served (t := (s.setOracle s.oracle.nextMapping.2).setMapped true) ho
      (by decide) (fun _ => rfl) ⟨rfl, rfl, rfl⟩)
  · exact (admitInit_unmapped ho hm _).trans
      ((Stops.mapWindow (s := s.acquire) hd).replied (t := s.setOracle s.oracle.nextMapping.2) ho (by decide) _
        ⟨rfl, rfl, rfl⟩)
  · simp [exec, execInit, admitInit, ho, hm, Admission.run]
  · have hunmap := Runs.unmapWindow s.acquire
    exact (admitTeardown_available ⟨ho, hm⟩ _).trans (hunmap.served (t := s.setMapped false) ho (by decide)
      (fun _ => rfl) ⟨rfl, rfl, rfl⟩)
  · simp [exec, execTeardown, admitTeardown, ho, hm, Admission.run]

/-! ### WAIT_READY's first read (R120) -/

theorem pollLimitReached_eq_true_iff {s : State} {n : Nat} :
    pollLimitReached s n = true ↔ ∃ k, s.cfg.pollLimit = some k ∧ k ≤ n := by
  cases h : s.cfg.pollLimit <;> simp [pollLimitReached, h]

theorem pollLimitReached_eq_false_iff {s : State} {n : Nat} :
    pollLimitReached s n = false ↔ s.cfg.pollLimit = none ∨ ∃ k, s.cfg.pollLimit = some k ∧ n < k := by
  cases h : s.cfg.pollLimit <;> simp [pollLimitReached, h]

/-- Settles O20: the first read ends the wait (`Runs.waitReady`), holds it (`drive_held`), or ends it with ErrTimeout
(`Stops.waitReady`). -/
theorem waitReadyReturnsHoldsOrTimesOut : Obligations.WaitReadyReturnsHoldsOrTimesOut := by
  intro s v o h ho
  have hrun : exec .waitReady s = drive opSteps (s.acquire.setCtl (.run .waitReady waitReadyProg [])) :=
    admitMapped_available h _
  refine ⟨fun hv => ?_, fun hv hl => ?_, fun hv hl => ?_⟩
  · exact hrun.trans ((Runs.waitReady (s := s.acquire) ho hv).served (t := readyPolled s v o) h.1 (by decide)
      (fun _ => rfl) ⟨rfl, rfl, rfl⟩)
  · exact hrun.trans (drive_held (s := s.acquire) ho hv (pollLimitReached_eq_false_iff.mpr hl) .waitReady
      (phase := []) (by simp) [] 2045)
  · exact hrun.trans ((Stops.waitReady (s := s.acquire) ho hv hl).replied (t := busyPolled (readyPolled s v o)) h.1
      (by decide) _ ⟨rfl, rfl, rfl⟩)

/-! ### One turn of WAIT_READY's loop (R120) -/

/-- Two steps of the sequencer take `s` to `t`, the state between them being no rest. -/
def TwoSteps (s t : State) : Prop := ∃ u, seqStep s = .next u ∧ u.rests = false ∧ seqStep u = .next t

theorem TwoSteps.drive {s t : State} (h : TwoSteps s t) (n : Nat) : drive (n + 2) s = follow n (.next t) := by
  obtain ⟨u, hu, hrests, ht⟩ := h
  rw [drive_go hu hrests, drive_succ, ht]
  rfl

theorem TwoSteps.step {s t : State} (h : TwoSteps s t) (hs : s.isIdle = false) : step s = follow 2046 (.next t) := by
  cases hc : s.ctl with
  | idle => simp [State.isIdle, hc] at hs
  | run op phase callers => exact (step_of_run hc).trans (h.drive 2046)

theorem tickRun_succ {s t : State} (h : tick s = .next t) (k : Nat) : tickRun (k + 1) s = tickRun k t := by
  simp only [tickRun, h]

theorem TwoSteps.tickRun {s t : State} (h : TwoSteps s t) (hs : s.isIdle = false) (k : Nat) :
    tickRun (k + 2) s = tickRun k t := by
  obtain ⟨u, hu, hrests, ht⟩ := h
  rw [tickRun_succ ((tick_of_run hs).trans hu), tickRun_succ ((tick_of_run (isIdle_of_rests hrests)).trans ht)]

section
variable {s : State} {op : Instr} {phase : List Prim} {callers : List Frame} {v : Word32} {o : Oracle}

/-- The read at the head of the loop, then the tests on the word it answers. -/
theorem twoSteps_poll (h : s.ctl = .run op (.poll :: .pollTest :: phase) callers) (ho : s.oracle.nextStatus = (v, o))
    {t : State} (ht : pollTest ((readDone s offStatus v o).setCtl (.run op phase callers)) = t) : TwoSteps s t := by
  subst ht
  refine ⟨(readDone s offStatus v o).setCtl (.run op (.pollTest :: phase) callers), ?_,
    State.rests_setCtl_of_head _ _ _ (by simp), seqStep_setCtl_cons _ _ _ _ _⟩
  rw [seqStep_cons h]
  simp [runPrim, pollRead_eq, ho, readDone]

theorem twoSteps_poll_ready (h : s.ctl = .run op (.poll :: .pollTest :: phase) callers)
    (ho : s.oracle.nextStatus = (v, o)) (hv : isReadyWord s.cfg v = true) :
    TwoSteps s ((readDone s offStatus v o).setCtl (.run op phase callers)) :=
  twoSteps_poll h ho (pollTest_ready hv)

/-- A busy answer puts the poll and the tests back before what the frame still has to do. -/
theorem twoSteps_poll_busy (h : s.ctl = .run op (.poll :: .pollTest :: phase) callers)
    (ho : s.oracle.nextStatus = (v, o)) (hv : isReadyWord s.cfg v = false)
    (hl : pollLimitReached s (s.work.polls + 1) = false) : TwoSteps s (busyPolled (readDone s offStatus v o)) :=
  twoSteps_poll h ho ((pollTest_busy (s := (readDone s offStatus v o).setCtl _) hv hl).trans
    (State.setCtl_self (s := busyPolled (readDone s offStatus v o)) h))

theorem twoSteps_poll_timeout (h : s.ctl = .run op (.poll :: .pollTest :: phase) callers)
    (ho : s.oracle.nextStatus = (v, o)) (hv : isReadyWord s.cfg v = false)
    (hl : pollLimitReached s (s.work.polls + 1) = true) :
    TwoSteps s ((busyPolled (readDone s offStatus v o)).raiseError .errTimeout .readyTimeout) :=
  twoSteps_poll h ho (pollTest_timeout (s := (readDone s offStatus v o).setCtl _) hv hl)

end

/-! ### The held wait (R120, R246, R254) -/

/-- Settles O21: one turn of the loop from the poll the block rests before. -/
theorem heldWaitPollsOrGoesOn : Obligations.HeldWaitPollsOrGoesOn := by
  intro s op phase callers q v o h hq ho
  have hs : s.isIdle = false := by simp [State.isIdle, h]
  refine ⟨fun hv hl => ?_, fun hv k hk hle => ?_, fun hv => ?_, fun hv hphase hcallers hop => ?_⟩
  · have hturn := twoSteps_poll_busy h ho hv (pollLimitReached_eq_false_iff.mpr hl)
    have hrests : (busyPolled (readDone s offStatus v o)).rests = true := by
      simp [State.rests, State.held, busyPolled, readDone, h]
    exact (hturn.step hs).trans (follow_rest hrests)
  · have hturn := twoSteps_poll_timeout h ho hv (pollLimitReached_eq_true_iff.mpr ⟨k, hk, hle⟩)
    rw [hturn.step hs, follow_rest rfl, raiseError_of_owner (s := busyPolled (readDone s offStatus v o)) hq]
    rfl
  · exact (twoSteps_poll_ready h ho hv).tickRun hs 0
  · subst hphase hcallers
    have hunit (t : State) : returnValue t op = .unit := by
      rcases hop with rfl | ⟨w, rfl⟩ <;> rfl
    rw [(twoSteps_poll_ready h ho hv).step hs, follow_go (State.rests_setCtl_of_head _ _ _ (by simp)), drive_end, hunit]
    simp [State.endOp, readDone, State.setRet, State.emit, State.setOracle, hq]

/-! ### A fair wait (R120, R231) -/

/-- A wait that is fair has a first answer with BUSY clear, busy answers before it. -/
theorem readyEventually_first {c : Config} {n : Nat} {o : Oracle} (h : readyEventually c o n) :
    ∃ m, m ≤ n ∧ (∀ b ∈ (drawMany Oracle.nextStatus m o).1, isReadyWord c b = false) ∧
      isReadyWord c (drawMany Oracle.nextStatus m o).2.nextStatus.1 = true := by
  induction n generalizing o with
  | zero => exact ⟨0, le_rfl, by simp [drawMany], h⟩
  | succ n ih =>
    cases hv : isReadyWord c o.nextStatus.1 with
    | true => exact ⟨0, by omega, by simp [drawMany], hv⟩
    | false =>
      obtain ⟨m, hm, hbusy, hready⟩ := ih (h.resolve_left (by simp [hv]))
      exact ⟨m + 1, by omega, by simpa [drawMany_succ, hv] using hbusy, hready⟩

/-- What WAIT_READY's first step leaves: no poll counted (R120). -/
def waitBegun (s : State) (c : Ctl) : State := (s.setWork { s.work with polls := 0 }).setCtl c

/-- What a wait leaves that reads `m` busy answers and then `v`, going on under `c`. -/
def waitOver (s : State) (m : Nat) (v : Word32) (o : Oracle) (c : Ctl) : State := { s with
  work := { s.work with polls := s.work.polls + m, ret := v }
  oracle := o
  trace := s.trace ++ (drawMany Oracle.nextStatus m s.oracle).1.map (.rd offStatus) ++ [.rd offStatus v]
  ctl := c }

theorem waitOver_zero (s : State) (v : Word32) (o : Oracle) (c : Ctl) :
    waitOver s 0 v o c = (readDone s offStatus v o).setCtl c := by
  simp [waitOver, drawMany, readDone, State.setCtl, State.setRet, State.emit, State.setOracle]

/-- The first busy answer, then the rest of the wait. -/
theorem waitOver_busyPolled (s : State) (m : Nat) (v : Word32) (o : Oracle) (c : Ctl) :
    waitOver (busyPolled (readDone s offStatus s.oracle.nextStatus.1 s.oracle.nextStatus.2)) m v o c =
      waitOver s (m + 1) v o c := by
  simp [waitOver, busyPolled, readDone, drawMany_succ, State.setWork, State.setRet, State.emit, State.setOracle,
    Nat.add_assoc, Nat.add_comm 1]

/-- The loop from a poll on: `m` busy answers below the poll limit, then one with BUSY clear. -/
theorem tickRun_polls {m : Nat} {s : State} {op : Instr} {phase : List Prim} {callers : List Frame} {v : Word32}
    {o : Oracle} (h : s.ctl = .run op (.poll :: .pollTest :: phase) callers)
    (hbusy : ∀ b ∈ (drawMany Oracle.nextStatus m s.oracle).1, isReadyWord s.cfg b = false)
    (ho : (drawMany Oracle.nextStatus m s.oracle).2.nextStatus = (v, o)) (hv : isReadyWord s.cfg v = true)
    (hl : ∀ k, s.cfg.pollLimit = some k → s.work.polls + m < k) :
    tickRun (2 * m + 2) s = .next (waitOver s m v o (.run op phase callers)) := by
  induction m generalizing s with
  | zero =>
    rw [waitOver_zero]
    exact (twoSteps_poll_ready h ho hv).tickRun (by simp [State.isIdle, h]) 0
  | succ m ih =>
    obtain ⟨hb, hbusy⟩ := List.forall_mem_cons.mp hbusy
    have hlimit : pollLimitReached s (s.work.polls + 1) = false := by
      rw [Bool.eq_false_iff, ne_eq, pollLimitReached_eq_true_iff]
      rintro ⟨k, hk, hle⟩
      have := hl k hk
      omega
    have hturn := twoSteps_poll_busy h Prod.mk.eta.symm hb hlimit
    have hrest := ih (s := busyPolled (readDone s offStatus s.oracle.nextStatus.1 s.oracle.nextStatus.2)) h hbusy ho hv
      fun k hk => (Nat.add_right_comm _ 1 m).trans_lt (hl k hk)
    rw [show 2 * (m + 1) + 2 = 2 * m + 2 + 2 by omega, hturn.tickRun (by simp [State.isIdle, h]), hrest,
      waitOver_busyPolled]

/-- Settles O22: the poll count is reset, and the loop runs to the first answer with BUSY clear (`tickRun_polls`). -/
theorem fairWaitsEnd : Obligations.FairWaitsEnd := by
  intro s op phase callers n h hfair hl
  obtain ⟨m, hm, hbusy, hv⟩ := readyEventually_first hfair
  obtain ⟨v, o, ho⟩ : ∃ v o, (drawMany Oracle.nextStatus m s.oracle).2.nextStatus = (v, o) := ⟨_, _, rfl⟩
  rw [ho] at hv
  refine ⟨m, v, o, hm, hbusy, ho, hv, ?_⟩
  have hinit : tick s = .next (waitBegun s (.run op (.poll :: .pollTest :: phase) callers)) :=
    (tick_of_run (by simp [State.isIdle, h])).trans (seqStep_cons h)
  have hloop := tickRun_polls (s := waitBegun s (.run op (.poll :: .pollTest :: phase) callers)) rfl hbusy ho hv
    fun k hk => (Nat.zero_add m).trans_lt (hm.trans_lt (hl k hk))
  rw [tickRun_succ hinit, hloop]
  simp [waitOver, waitBegun, State.setCtl, State.setWork]

end Sys2Proof.Machine

/-! # The bit-address translator: the formulas in every state, and COMPOSE as a bijection -/

namespace Sys2Proof.Machine
open Sys2Proof Host

/-! ### The fields of a physical bit address (R134) -/

theorem isRow_iff_toNat_lt {r : Word32} : isRow r = true ↔ r.toNat < 2 := by
  rw [isRow_iff, ← BitVec.toNat_inj, ← BitVec.toNat_inj]
  change r.toNat = 0 ∨ r.toNat = 1 ↔ _
  omega

theorem toNat_bitOf (pa : PhysBit) : (bitOf pa).toNat = pa.toNat / 128 := by
  have hlt := pa.isLt
  rw [bitOf, BitVec.extractLsb'_toNat, Nat.shiftRight_eq_div_pow]
  omega

theorem toNat_wordOf (pa : PhysBit) : (wordOf pa).toNat = pa.toNat / 2 % 64 := by
  rw [wordOf, BitVec.extractLsb'_toNat, Nat.shiftRight_eq_div_pow]

theorem toNat_rowOf (pa : PhysBit) : (rowOf pa).toNat = pa.toNat % 2 := rfl

theorem toNat_physWordOf (pa : PhysBit) : (physWordOf pa).toNat = pa.toNat % 128 := rfl

theorem toNat_physBitOf {a : Word32} (h : a.toNat < 4096) : (physBitOf a).toNat = a.toNat :=
  (BitVec.toNat_setWidth 12 a).trans (Nat.mod_eq_of_lt h)

theorem composeAddr_toNat_lt {r : Word32} (hr : isRow r = true) (w b : Word32) : (composeAddr w b r).toNat < 4096 :=
  of_decide_eq_true (isPhysBit_composeAddr hr w b)

/-- COMPOSE of the three fields gives the address back: with operands of the fields' widths it is the ADR format. -/
theorem physBitOf_composeAddr_fields (pa : PhysBit) : physBitOf (composeAddr ((wordOf pa).setWidth 32)
    ((bitOf pa).setWidth 32) ((rowOf pa).setWidth 32)) = pa := by
  have hsum : (encodeAdrProg (bitOf pa) (wordOf pa) (rowOf pa)).toNat = pa.toNat := by
    rw [encodeAdrProg_toNat, toNat_bitOf, toNat_wordOf, toNat_rowOf]
    omega
  rw [← encodeAdrProg_eq_composeAddr]
  apply BitVec.eq_of_toNat_eq
  rw [toNat_physBitOf (hsum.trans_lt pa.isLt), hsum]

/-! ### Word addresses wrap at 64 (R135) -/

theorem add_mul_64_and_0x3F (w t : Word32) : (w + 64 * t) &&& 0x3F = w &&& 0x3F := by
  have hmask (x : Word32) : (x &&& 0x3F).toNat = x.toNat % 64 :=
    (BitVec.toNat_and x 0x3F).trans (Nat.and_two_pow_sub_one_eq_mod x.toNat 6)
  apply BitVec.eq_of_toNat_eq
  rw [hmask, hmask]
  bv_omega

theorem composeAddr_add_mul_64 (w t b r : Word32) : composeAddr (w + 64 * t) b r = composeAddr w b r := by
  rw [composeAddr, add_mul_64_and_0x3F, composeAddr]

/-- Settles O7: the address as the sum of its places (`composeAddr_toNat`), each field as a quotient of it, the fields
put together again (`physBitOf_composeAddr_fields`), and the word operand's mask (`composeAddr_add_mul_64`). -/
theorem composeIsABijection : Obligations.ComposeIsABijection := by
  refine ⟨fun w b r hw hb hr => ?_, physBitOf_composeAddr_fields, fun w t b r => ⟨composeAddr_add_mul_64 w t b r, ?_⟩⟩
  · have hrow : isRow r = true := isRow_iff_toNat_lt.mpr hr
    have hlt := composeAddr_toNat_lt hrow w b
    have hsum := composeAddr_toNat hrow w b
    rw [toNat_bitOf, toNat_wordOf, toNat_rowOf, toNat_physWordOf, physWordAddr_toNat hrow, toNat_physBitOf hlt]
    omega
  · rw [physWordAddr_eq, physWordAddr_eq, composeAddr_add_mul_64]

/-! ### The translator's operations in every state (R130 to R133, R245) -/

theorem wordIndexOf_toNat (addr : Word32) : (wordIndexOf addr).toNat = addr.toNat / 4 := by
  rw [wordIndexOf, BitVec.toNat_ushiftRight, Nat.shiftRight_eq_div_pow]

theorem admitRow_of_isRow {r : Word32} (hr : isRow r = true) (i : Instr) (s : State) :
    admitRow r i s = .settled (s.answer (returnValue s i)) := if_pos hr

theorem admitRow_of_not_isRow {r : Word32} (hr : ¬isRow r = true) (i : Instr) (s : State) :
    admitRow r i s = .refused .rowOutOfRange := if_neg hr

theorem exec_compose {r : Word32} (hr : isRow r = true) (w b : Word32) (s : State) :
    exec (.compose w b r) s = .next (s.answer (.word (composeAddr w b r))) :=
  congrArg Admission.run (admitRow_of_isRow hr (.compose w b r) s)

theorem exec_physWord {r : Word32} (hr : isRow r = true) (vw : Word32) (s : State) :
    exec (.physWord vw r) s = .next (s.answer (.word (physWordAddr vw r))) :=
  congrArg Admission.run (admitRow_of_isRow hr (.physWord vw r) s)

theorem exec_wordIndex (addr : Word32) (s : State) :
    exec (.wordIndex addr) s = .next (s.answer (.word (wordIndexOf addr))) := rfl

theorem exec_compose_refused {r : Word32} (hr : ¬isRow r = true) (w b : Word32) (s : State) :
    exec (.compose w b r) s = .refused .rowOutOfRange :=
  congrArg Admission.run (admitRow_of_not_isRow hr (.compose w b r) s)

theorem exec_physWord_refused {r : Word32} (hr : ¬isRow r = true) (vw : Word32) (s : State) :
    exec (.physWord vw r) s = .refused .rowOutOfRange :=
  congrArg Admission.run (admitRow_of_not_isRow hr (.physWord vw r) s)

/-- Settles O6: each operation answers its formula (`exec_compose`, `exec_physWord`, `exec_wordIndex`), whose bound is
that of its fields, and a row other than 0 and 1 is refused. -/
theorem translatorFollowsTheFormulas : Obligations.TranslatorFollowsTheFormulas := by
  intro s w b r addr
  rw [← isRow_iff]
  refine ⟨fun hr => ?_, fun hr => ?_, fun hr => ?_, ?_⟩
  · exact ⟨composeAddr w b r, rfl, composeAddr_toNat_lt hr w b, exec_compose hr w b s⟩
  · exact ⟨physWordAddr w r, rfl, of_decide_eq_true (isPhysWord_physWordAddr hr w), physWordAddr_eq w r,
      exec_physWord hr w s⟩
  · exact ⟨exec_compose_refused hr w b s, exec_physWord_refused hr w s⟩
  · refine ⟨wordIndexOf addr, wordIndexOf_toNat addr, fun h => ?_, exec_wordIndex addr s⟩
    rw [wordIndexOf_toNat]
    omega

end Sys2Proof.Machine

/-! # The program-pulse sequencer: PROGRAM_BIT's one pulse, and the ends before it -/

namespace Sys2Proof.Machine
open Sys2Proof Host

theorem programBitProg_of_isRow {r : Word32} (hr : isRow r = true) (w b : Word32) : programBitProg w b r =
    [.call .waitReady, .call (.wrReg offAdr (composeAddr w b r)), .callPulse] := if_pos hr

theorem programBitProg_of_not_isRow {r : Word32} (hr : ¬isRow r = true) (w b : Word32) :
    programBitProg w b r = [.refuse .rowOutOfRange] := if_neg hr

/-- PROGRAM_BIT begins its pseudocode (R140, R200). -/
theorem exec_programBit_available {s : State} (h : s.available) (w b r : Word32) : exec (.programBit w b r) s =
    drive opSteps (s.acquire.setCtl (.run (.programBit w b r) (programBitProg w b r) [])) :=
  admitMapped_available h _

/-- All that a pulse of PROGRAM_BIT changes (R140, R142). -/
theorem pulsedBit_eq (s : State) (v : Word32) (o : Oracle) (pa : Word32) : pulsedBit s v o pa = { s with
    fuses := s.fuses.write pa.toNat (cellMax (s.fuses.read pa.toNat) o.nextPulse.1)
    oracle := o.nextPulse.2
    work := { s.work with polls := 0, ret := v }
    adrLast := some pa
    modeLast := some s.cfg.cwProg
    pulseLog := s.pulseLog ++ [physBitOf pa]
    attemptLog := s.attemptLog ++ [physBitOf pa]
    trace := s.trace ++ [.rd offStatus v, .wr offAdr pa, .wr offMode s.cfg.cwProg] } := by
  simp [pulsedBit, pulseAt, State.noteAttempt, State.noteMode, State.noteAdr, readyPolled, State.setWork,
    State.setOracle, State.emit]

theorem pulsedBit_acquire (s : State) (v : Word32) (o : Oracle) (pa : Word32) :
    pulsedBit s.acquire v o pa = (pulsedBit s v o pa).acquire := by
  simp only [pulsedBit_eq, State.acquire]

theorem pulsedBit_sameLock (s : State) (v : Word32) (o : Oracle) (pa : Word32) :
    SameLock s (pulsedBit s v o pa) := by
  rw [pulsedBit_eq]
  exact ⟨rfl, rfl, rfl⟩

/-- PROGRAM_BIT with the macro ready, run to its end (R140). -/
theorem exec_programBit_ready {s : State} {w b r : Word32} (h : s.available) (hw : s.cfg.wf = true)
    (hr : isRow r = true) (hv : s.nextStatusReady = true) : exec (.programBit w b r) s =
      .next (s.served (pulsedBit s s.oracle.nextStatus.1 s.oracle.nextStatus.2 (composeAddr w b r))) := by
  have hrun := Runs.programBit (s := s.acquire) (w := w) (b := b) hw hr rfl hv
  rw [pulsedBit_acquire] at hrun
  exact (exec_programBit_available h w b r).trans (hrun.served h.1 (by decide) (fun _ => rfl)
    (pulsedBit_sameLock _ _ _ _))

/-- Settles O26: the run (`exec_programBit_ready`), whose one write to the cells can only raise the cell written
(`Memory.rises_write`). -/
theorem programBitIssuesOnePulse : Obligations.ProgramBitIssuesOnePulse := by
  intro s w b r h hw hf hr hv
  rw [exec_programBit_ready h hw (isRow_iff.mpr hr) hv, pulsedBit_eq]
  exact ⟨_, rfl, fun x hx => Memory.read_write_other hf hx _, Memory.rises_write hf _ _ _, rfl⟩

/-- Settles O27: the row is checked before anything is done; WAIT_READY's timeout (`Stops.waitReady`) ends its caller
too, so neither the address nor the program word is written. -/
theorem programBitStopsBeforeThePulse : Obligations.ProgramBitStopsBeforeThePulse := by
  intro s w b r h
  rw [exec_programBit_available h, ← isRow_iff]
  refine ⟨fun hr => ?_, fun hr hl hv => ?_⟩
  · rw [programBitProg_of_not_isRow hr]
    exact (Stops.refused fun _ => rfl).ends _ (by decide)
  · have hwait := (Stops.waitReady (s := s.acquire) rfl hv hl).call (i := .waitReady)
      [.call (.wrReg offAdr (composeAddr w b r)), .callPulse]
    have hend := hwait.replied (t := busyPolled (readyPolled s s.oracle.nextStatus.1 s.oracle.nextStatus.2)) h.1
      (by decide) (.programBit w b r) ⟨rfl, rfl, rfl⟩
    rw [programBitProg_of_isRow hr, hend]
    simp [busyPolled, readyPolled, State.setWork, State.setOracle, State.emit]

end Sys2Proof.Machine

/-! # The margin-read controller: READ_PHYS's seven accesses, its operand checks and its stops -/

namespace Sys2Proof.Machine
open Sys2Proof Host

/-! ### The instructions that run READ_PHYS (R94, R150) -/

theorem isPhysWord_iff {pw : Word32} : isPhysWord pw = true ↔ pw.toNat < 128 := decide_eq_true_iff

theorem ReadsPhys.mode_eq {c : Config} {i : Instr} {pw mode : Word32} (h : ReadsPhys c i pw mode) :
    mode = c.mAread ∨ mode = c.mMread := h.imp And.left And.left

theorem ReadsPhys.returnValue {c : Config} {i : Instr} {pw mode : Word32} (h : ReadsPhys c i pw mode) (t : State) :
    Machine.returnValue t i = .word t.work.ret := by
  rcases h with ⟨-, rfl | rfl⟩ | ⟨-, rfl | rfl⟩ <;> rfl

/-- READ_PHYS and the read-mode words begin the same pseudocode. -/
theorem exec_readsPhys {s : State} (h : s.available) {i : Instr} {pw mode : Word32} (hi : ReadsPhys s.cfg i pw mode) :
    exec i s = drive opSteps (s.acquire.setCtl (.run i (readPhysProg s.cfg pw mode) [])) := by
  rcases hi with ⟨rfl, rfl | rfl⟩ | ⟨rfl, rfl | rfl⟩ <;> exact admitMapped_available h _

/-! ### What READ_PHYS has changed after each wait and at its end (R150, R155) -/

section
variable (s : State) (pw cw mr st1 st2 d : Word32) (o1 o2 o3 o4 : Oracle)

theorem poweredOn_eq : poweredOn s mr o1 = { s with
    work := { s.work with ret := mr }
    oracle := o1
    powered := some true
    modeLast := some s.cfg.mCmd
    trace := s.trace ++ [.rd offMode mr, .wr offMode s.cfg.mCmd] } := by
  simp [poweredOn, Config.cwPwron, State.setRet, State.emit, State.setOracle, State.noteMode, State.setPowered]

/-- The first wait is over. -/
theorem firstWait_eq : readyPolled (poweredOn s mr o1) st1 o2 = { s with
    work := { s.work with polls := 0, ret := st1 }
    oracle := o2
    powered := some true
    modeLast := some s.cfg.mCmd
    trace := s.trace ++ [.rd offMode mr, .wr offMode s.cfg.mCmd, .rd offStatus st1] } := by
  simp [poweredOn_eq, readyPolled, State.emit, State.setOracle, State.setWork]

/-- The second wait is over. -/
theorem secondWait_eq : readyPolled (readIssued (poweredOn s mr o1) pw cw st1 o2) st2 o3 = { s with
    work := { s.work with polls := 0, ret := st2 }
    oracle := o3
    powered := some true
    adrLast := some pw
    modeLast := some cw
    trace := s.trace ++ [.rd offMode mr, .wr offMode s.cfg.mCmd, .rd offStatus st1, .wr offAdr pw, .wr offMode cw,
      .rd offStatus st2] } := by
  rw [readIssued, firstWait_eq]
  simp [readyPolled, State.emit, State.setOracle, State.setWork, State.noteMode, State.noteAdr]

theorem physRead_eq : physRead s pw cw mr st1 st2 d o1 o2 o3 o4 = { s with
    work := { s.work with polls := 0, ret := d }
    oracle := o4
    powered := some true
    adrLast := some pw
    modeLast := some cw
    trace := s.trace ++ [.rd offMode mr, .wr offMode s.cfg.mCmd, .rd offStatus st1, .wr offAdr pw, .wr offMode cw,
      .rd offStatus st2, .rd offRdData d] } := by
  rw [physRead, secondWait_eq]
  simp [dataRead, State.setRet, State.emit, State.setOracle]

end

/-! ### The seven accesses (R150, R154) -/

/-- Settles O28: the run (`Runs.readPhys`), which each of the three spellings takes to its end, and what it has changed
(`physRead_eq`). -/
theorem readPhysMakesSevenAccesses : Obligations.ReadPhysMakesSevenAccesses := by
  intro s pw mode mr st1 st2 d o1 o2 o3 o4 i h hw hp hi h1 hm h2 hs1 h3 hs2 h4
  have hrun := Runs.readPhys (s := s.acquire) (c := s.cfg) rfl hw (isPhysWord_iff.mpr hp) hi.mode_eq h1 hm h2 hs1 h3 hs2
    h4
  rw [exec_readsPhys h hi, hrun.ends i (by decide), hi.returnValue, physRead_eq]
  simp [State.endOp, State.acquire, State.replied, h.1]

/-! ### The stops at the waits (R150, R246, R23) -/

/-- A WAIT_READY called by an operation and held below the poll limit, its caller's frame keeping what the caller still
has to do (R14, R23). -/
theorem drive_call_held {s : State} {v : Word32} {o : Oracle} (ho : s.oracle.nextStatus = (v, o))
    (hv : isReadyWord s.cfg v = false) (hl : pollLimitReached s 1 = false) (op : Instr) (phase : List Prim)
    (callers : List Frame) (n : Nat) :
    drive (n + 4) (s.setCtl (.run op (.call .waitReady :: phase) callers)) =
      .next ((busyPolled (readyPolled s v o)).setCtl (.run .waitReady [.poll, .pollTest] (⟨op, phase⟩ :: callers))) := by
  have hheld := drive_held ho hv hl .waitReady (phase := []) (by simp) (⟨op, phase⟩ :: callers) n
  rw [show n + 4 = (n + 3) + 1 from rfl, drive_cons]
  simp only [runPrim, State.setCtl_cfg, State.enter_setCtl]
  rw [follow_go (s.rests_setCtl_of_head _ _ (program_head _ _))]
  exact hheld

/-- READ_PHYS held in its first wait, with no poll limit (R150). -/
theorem exec_readsPhys_held {s : State} {i : Instr} {pw mode mr st1 : Word32} {o1 o2 : Oracle} (h : s.available)
    (hw : s.cfg.wf = true) (hp : isPhysWord pw = true) (hi : ReadsPhys s.cfg i pw mode)
    (h1 : s.oracle.nextMode = (mr, o1)) (hm : cleanReadback s.cfg mr = true) (h2 : o1.nextStatus = (st1, o2))
    (hs1 : isReadyWord s.cfg st1 = false) (hl : s.cfg.pollLimit = none) :
    exec i s = .next ((busyPolled (readyPolled (poweredOn s.acquire mr o1) st1 o2)).setCtl
      (.run .waitReady [.poll, .pollTest] [⟨i, [.call (.wrReg offAdr pw), .call (.wrReg offMode (mode ||| s.cfg.mCmd)),
        .call .waitReady, .call (.rdReg offRdData)]⟩])) := by
  have hpower : Runs 8 [.call (.power true)] s.acquire (poweredOn s.acquire mr o1) := Runs.powerCall rfl hw h1 hm
  have hwait := drive_call_held (s := poweredOn s.acquire mr o1) (by simpa using h2) hs1
    (pollLimitReached_eq_false_iff.mpr (.inl hl)) i [.call (.wrReg offAdr pw),
      .call (.wrReg offMode (mode ||| s.cfg.mCmd)), .call .waitReady, .call (.rdReg offRdData)] [] 2036
  rw [exec_readsPhys h hi, readPhysProg_eq hi.mode_eq hp]
  exact (hpower i _ [] 2040 (by simp)).trans hwait

/-- Settles O30: a time-out in either wait (`Stops.readPhys_first`, `Stops.readPhys_second`) and the hold in the first
(`exec_readsPhys_held`). -/
theorem readPhysStopsAtItsWaits : Obligations.ReadPhysStopsAtItsWaits := by
  intro s pw mode mr st1 st2 o1 o2 o3 i h hw hp hi h1 hm h2 h3
  have hpw := isPhysWord_iff.mpr hp
  refine ⟨fun hs1 hl => ?_, fun hs1 hs2 hl => ?_, fun hs1 hl => ?_⟩
  · have hstop := Stops.readPhys_first (s := s.acquire) (c := s.cfg) rfl hw hpw hi.mode_eq h1 hm hl h2 hs1
    rw [exec_readsPhys h hi, hstop.ends i (by decide), firstWait_eq]
    simp [busyPolled, State.setWork, State.raiseError, State.endOp, State.acquire, State.replied, h.1]
  · have hstop := Stops.readPhys_second (s := s.acquire) (c := s.cfg) rfl hw hpw hi.mode_eq h1 hm hl h2 hs1 h3 hs2
    rw [exec_readsPhys h hi, hstop.ends i (by decide), secondWait_eq]
    simp [busyPolled, State.setWork, State.raiseError, State.endOp, State.acquire, State.replied, h.1]
  · rw [exec_readsPhys_held h hw hpw hi h1 hm h2 hs1 hl, firstWait_eq]
    simp [busyPolled, State.setWork, State.setCtl, State.acquire]

/-! ### The operand checks (R150, R152, R252) -/

theorem readPhysProg_of_unknown_mode {c : Config} {mode : Word32} (ha : mode ≠ c.mAread) (hm : mode ≠ c.mMread)
    (pw : Word32) : readPhysProg c pw mode = [.raise .errUnsupported .unknownReadMode] := if_pos ⟨ha, hm⟩

theorem readPhysProg_of_not_physWord {c : Config} {pw mode : Word32} (hmode : mode = c.mAread ∨ mode = c.mMread)
    (hp : ¬isPhysWord pw = true) : readPhysProg c pw mode = [.refuse .physWordOutOfRange] := by
  have hknown : ¬(mode ≠ c.mAread ∧ mode ≠ c.mMread) := fun h => hmode.elim h.1 h.2
  rw [readPhysProg, if_neg hknown, if_neg hp]

/-- Settles O29: the pseudocode of a READ_PHYS whose operands fail is one primitive, the error or the refusal. -/
theorem readPhysChecksItsOperands : Obligations.ReadPhysChecksItsOperands := by
  intro s pw mode h
  refine ⟨fun ha hm => ?_, fun i hi hp => ?_⟩
  · have hstop : Stops 1 (readPhysProg s.cfg pw mode) s.acquire
        (.next (s.acquire.raiseError .errUnsupported .unknownReadMode)) := by
      rw [readPhysProg_of_unknown_mode ha hm]
      exact Stops.single (fun _ => rfl) (rests_of_raise _ _ _) []
    exact (admitMapped_available h _).trans (hstop.replied h.1 (by decide) _ ⟨rfl, rfl, rfl⟩)
  · have hpw : ¬isPhysWord pw = true := fun hlt => absurd (isPhysWord_iff.mp hlt) (by omega)
    rw [exec_readsPhys h hi, readPhysProg_of_not_physWord hi.mode_eq hpw]
    exact (Stops.refused fun _ => rfl).ends i (by decide)

end Sys2Proof.Machine

/-! # Nothing is undone, and a row's pulses: what a pulse leaves, and which bits a row pulses -/

namespace Sys2Proof.Machine
open Sys2Proof Host

/-! ### Pulses alone change cells (R169, R224) -/

/-- `t` has come from `s` by pulses alone: no cell falls, one that changes has been pulsed, and the two logs are
extended. -/
structure PulsedOn (s t : State) : Prop where
  canonical : t.fuses.wf = true
  rises : ∀ a, cellRank (s.fuses.read a) ≤ cellRank (t.fuses.read a)
  attempts : s.attemptLog <+: t.attemptLog
  pulses : ∃ added : List PhysBit, t.pulseLog = s.pulseLog ++ added ∧
    ∀ a, (∀ pa ∈ added, a ≠ pa.toNat) → t.fuses.read a = s.fuses.read a

theorem PulsedOn.of_same {s t : State} (hs : s.fuses.wf = true) (h : SameMemory s t) : PulsedOn s t where
  canonical := h.fuses ▸ hs
  rises a := by rw [h.fuses]
  attempts := h.attemptLog ▸ List.prefix_rfl
  pulses := ⟨[], by rw [h.pulseLog, List.append_nil], fun a _ => by rw [h.fuses]⟩

theorem PulsedOn.trans {s t u : State} (h1 : PulsedOn s t) (h2 : PulsedOn t u) : PulsedOn s u := by
  obtain ⟨-, hrises, hattempts, ps, hps, hcells⟩ := h1
  obtain ⟨hcanonical, hrises', hattempts', qs, hqs, hcells'⟩ := h2
  refine ⟨hcanonical, fun a => (hrises a).trans (hrises' a), hattempts.trans hattempts', ps ++ qs, ?_, fun a ha => ?_⟩
  · rw [hqs, hps, List.append_assoc]
  · rw [List.forall_mem_append] at ha
    rw [hcells' a ha.2, hcells a ha.1]

/-- One pulse changes the cell it is logged for, upwards (R142, R224). -/
theorem PulsedOn.of_pulseAt {s : State} {a : Word32} (hs : s.fuses.wf = true) (ha : isPhysBit a = true) :
    PulsedOn s (pulseAt a s) where
  canonical := pulseAt_fuses_wf ha hs
  rises := Memory.rises_write hs _ _
  attempts := List.prefix_rfl
  pulses := by
    refine ⟨[physBitOf a], rfl, fun x hx => Memory.read_write_other hs ?_ _⟩
    rw [← toNat_physBitOf (lt_nBits_of_isPhysBit ha)]
    exact hx _ List.mem_cons_self

theorem PulsedOn.noteAttempt {s t : State} (h : PulsedOn s t) : PulsedOn s t.noteAttempt :=
  ⟨h.canonical, h.rises, h.attempts.trans (List.prefix_append _ _), h.pulses⟩

theorem pulsedOn_stepRelation : StepRelation fun s t => s.fuses.wf = true → PulsedOn s t :=
  .of_memory (fun _ _ _ h1 h2 hs => (h1 hs).trans (h2 (h1 hs).canonical)) (fun _ _ h hs => .of_same hs h)
    (fun _ hs => ⟨hs, fun _ => le_rfl, List.prefix_rfl, [], (List.append_nil _).symm, fun _ _ => rfl⟩)
    (fun _ _ ha hs => .of_pulseAt hs ha) (fun _ _ _ h hs => (h hs).noteAttempt)

theorem AddsAllowed.trace_prefix {s t : State} (h : AddsAllowed s t) : s.trace <+: t.trace := by
  obtain ⟨es, he, -⟩ := h
  exact ⟨es, he.symm⟩

/-- Settles O53: the cells and the logs change by pulses alone (`pulsedOn_stepRelation`), the trace by added events
(`addsAllowed_stepRelation`), in a step as in a tick; a later reset carries the cells over. -/
theorem stepUndoesNothing : Obligations.StepUndoesNothing := by
  refine ⟨fun s t hs h => ?_, fun _ _ => rfl⟩
  have hpulsed : PulsedOn s t := h.elim (pulsedOn_stepRelation.step · hs) (pulsedOn_stepRelation.tick · hs)
  have htrace : AddsAllowed s t := h.elim addsAllowed_stepRelation.step addsAllowed_stepRelation.tick
  exact ⟨hpulsed.rises, hpulsed.attempts, htrace.trace_prefix, hpulsed.pulses⟩

/-! ### The pulses of a row (R163, R164, R170) -/

theorem mem_setBitsOf {z : Word32} {k : Nat} : k ∈ setBitsOf z ↔ k < 32 ∧ z.getLsbD k = true := by
  simp [setBitsOf]

theorem nodup_setBitsOf (z : Word32) : (setBitsOf z).Nodup := List.nodup_range.filter _

/-- A bit still to pulse is set in `value` and clear in the array read (R163). -/
theorem mem_setBitsOf_and_not {value cur : Word32} {k : Nat} : k ∈ setBitsOf (value &&& ~~~cur) ↔
    k < 32 ∧ value.getLsbD k = true ∧ cur.getLsbD k = false := by
  simp only [mem_setBitsOf, BitVec.getLsbD_and, BitVec.getLsbD_not, Bool.and_eq_true, decide_eq_true_eq,
    Bool.not_eq_true']
  tauto

/-- COMPOSE tells the bits of one word and row apart (R134). -/
theorem composeAddr_bit_inj {r : Word32} (hr : isRow r = true) (w : Word32) {j k : Nat} (hj : j < 32) (hk : k < 32)
    (h : composeAddr w (BitVec.ofNat 32 j) r = composeAddr w (BitVec.ofNat 32 k) r) : j = k := by
  have hsum := congrArg BitVec.toNat h
  rw [composeAddr_toNat hr, composeAddr_toNat hr, BitVec.toNat_ofNat, BitVec.toNat_ofNat] at hsum
  omega

/-- Settles O34: a row's pulses are COMPOSE of the bits to pulse (`mem_setBitsOf_and_not`), and COMPOSE gives each bit
its own address (`composeAddr_bit_inj`). -/
theorem rowPulsesAreTheMissingBits : Obligations.RowPulsesAreTheMissingBits := by
  intro vw row value cur hrow
  refine ⟨fun pa hpa => ?_, fun k hk hv hc => ?_, ?_⟩
  · obtain ⟨k, hk, rfl⟩ := List.mem_map.1 hpa
    obtain ⟨hlt, hv, hc⟩ := mem_setBitsOf_and_not.1 hk
    exact ⟨k, hlt, hv, hc, rfl⟩
  · exact List.mem_map_of_mem (mem_setBitsOf_and_not.2 ⟨hk, hv, hc⟩)
  · exact (nodup_setBitsOf _).map_on fun j hj k hk =>
      composeAddr_bit_inj (isRow_iff.2 hrow) vw (mem_setBitsOf.1 hj).1 (mem_setBitsOf.1 hk).1

/-! ### The rows that fail (R165, R166, R168) -/

theorem countRow_eq (errCnt : Nat) (value m : Word32) :
    countRow errCnt value m = errCnt + if value &&& m = value then 0 else 1 := by
  by_cases h : value &&& m = value <;> simp [countRow, rowVerifies, h]

theorem failingRows_eq (value m0 m1 : Word32) : failingRows value m0 m1 =
    (if value &&& m0 = value then 0 else 1) + (if value &&& m1 = value then 0 else 1) := by
  rw [failingRows, countRow_eq, countRow_eq, Nat.zero_add]

theorem writeResult_eq_error_iff {n : Nat} {ok : Value} :
    writeResult n ok = .error .errIO .verifyFailed ↔ 2 ≤ n := by
  by_cases h : 2 ≤ n <;> simp [writeResult, wordFails, errThreshold, h]

theorem writeResult_eq_ok_iff {n : Nat} {ok : Value} : writeResult n ok = .ok ok ↔ n < 2 := by
  by_cases h : 2 ≤ n <;> simp [writeResult, wordFails, errThreshold, h] <;> omega

/-- Settles O33: the count is one for each row that lacks a bit (`failingRows_eq`), and the result is an error from two
on (`writeResult_eq_error_iff`, `writeResult_eq_ok_iff`). -/
theorem wordFailsWhenBothRowsFail : Obligations.WordFailsWhenBothRowsFail := by
  intro value m0 m1 ok
  rw [writeResult_eq_error_iff, writeResult_eq_ok_iff, failingRows_eq]
  by_cases h0 : value &&& m0 = value <;> by_cases h1 : value &&& m1 = value <;> simp [h0, h1]

end Sys2Proof.Machine

/-! # WRITE_WORD: its run with nothing busy, its stops at a wait, and its time-outs wherever they happen -/

namespace Sys2Proof.Machine
open Sys2Proof Host

/-! ### Both rows, the refresh and the result (R160 to R173) -/

/-- Every request that reaches WRITE_WORD answers the result of its error count (R168, R204). -/
theorem WritesWord.exec_of_goes {s t : State} {i : Instr} {ok : Value} {vw value : Word32} {start : Oracle} {k : Nat}
    (h : WritesWord s i vw value ok start) (ha : s.available)
    (hg : Goes k [.wwEntry vw value] (s.acquire.setOracle start) [.wwResult] t) (hk : k ≤ 1200) :
    exec i s = .next (t.endOp (writeResult t.work.errCnt ok)) := by
  obtain ⟨hpass, hfail⟩ := wwResult_ends t
  cases hw : wordFails t.work.errCnt with
  | false =>
    rw [writeResult, hw]
    exact h.runs ha (hg.trans (hpass hw)) (by unfold opSteps; omega)
  | true =>
    rw [writeResult, hw]
    exact h.stops ha (hg.stops (hfail hw)) (by unfold opSteps; omega)

/-- Settles O31: both rows and the refresh (`word_goes`), then the result (`WritesWord.exec_of_goes`). -/
theorem writeWordProgramsTheMissingBits : Obligations.WriteWordProgramsTheMissingBits := by
  intro s i ok vw value start o0 o1 r0 r1 ha hw hf h e0 f0 e1 f1
  obtain ⟨k, u, hk, hgoes, hcells, hrises, hu⟩ :=
    word_goes s.cfg (s := s.acquire.setOracle start) (vw := vw) rfl hw hf e0 f0 e1 f1
  refine ⟨_, h.exec_of_goes ha hgoes hk, hcells, hrises, ?_⟩
  -- `hu` gives `u` by two fields of its own: they are named, so that the rest can take its place.
  generalize u.ctl = c at hu
  rw [State.endOp_fuses]
  generalize u.fuses = m at hu ⊢
  subst hu
  simp [State.endOp, State.acquire, State.setOracle, State.replied, ha.1]

/-! ### The stops at the waits of row 0 (R160, R246) -/

section
variable {s : State} {i : Instr} {ok : Value} {vw value : Word32} {start : Oracle}

/-- WW_AREAD calls the array read of its row (R161, R162). -/
theorem wwAread_goes {row : Word32} (hrow : rowWord s = row) (value : Word32) :
    Goes 1 [.wwAread vw value] s
      [.call (.readPhys (physWordAddr vw row) s.cfg.mAread), .setCur, .wwMask vw value] s := by
  refine Goes.push (fun op phase callers => ?_) (by simp)
  have hrow' : rowWord (s.setCtl (.run op phase callers)) = row := hrow
  simp [runPrim, wwAreadStep, hrow']

/-- WRITE_WORD timed out in the first wait of its first read (R160, R246). -/
theorem Stops.word_first {a : ReadAnswers} {o0 : Oracle} (vw value : Word32) (hw : s.cfg.wf = true)
    (hl : s.cfg.pollLimit = some 1) (hd : drawRead s.oracle = (a, o0)) (hm : cleanReadback s.cfg a.mr = true)
    (hst : isReadyWord s.cfg a.st1 = false) :
    Stops 15 [.wwEntry vw value] s (.next ((busyPolled (readyPolled (poweredOn
      (s.setWork { s.work with errCnt := 0, j := 0 }) a.mr s.oracle.nextMode.2) a.st1
        s.oracle.nextMode.2.nextStatus.2)).raiseError .errTimeout .readyTimeout)) := by
  obtain rfl : (drawRead s.oracle).1 = a := congrArg Prod.fst hd
  have hread := Stops.readPhys_first (s := s.setWork { s.work with errCnt := 0, j := 0 }) (c := s.cfg) rfl hw
    (isPhysWord_physWordAddr (r := 0) rfl vw) (.inl rfl) rfl hm hl rfl hst
  exact (wwEntry_goes s vw value).stops ((wwAread_goes rfl value).stops (hread.call (i := .readPhys _ _) _))

/-- PROGRAM_BIT timed out in its wait (R140, R246). -/
theorem Stops.programBit {v w b r : Word32} {o : Oracle} (hr : isRow r = true)
    (ho : s.oracle.nextStatus = (v, o)) (hv : isReadyWord s.cfg v = false) (hl : s.cfg.pollLimit = some 1) :
    Stops 4 (programBitProg w b r) s
      (.next ((busyPolled (readyPolled s v o)).raiseError .errTimeout .readyTimeout)) := by
  rw [programBitProg_of_isRow hr]
  exact (Stops.waitReady ho hv hl).call (i := .waitReady) _

/-- The state at the first WW_PULSE of row 0 (R161 to R163). -/
def wordStarted (s : State) (vw value : Word32) : State :=
  rowStarted (s.setWork { s.work with errCnt := 0, j := 0 }) s.cfg vw 0 value

/-- All that pulses may change. -/
theorem Pulsed.eq_with {t : State} {pas sts : List Word32} (h : Pulsed s t pas sts) : t = { s with
    ctl := t.ctl
    fuses := t.fuses
    oracle := t.oracle
    work := t.work
    adrLast := t.adrLast
    modeLast := t.modeLast
    pulseLog := s.pulseLog ++ pas.map physBitOf
    attemptLog := s.attemptLog ++ pas.map physBitOf
    trace := s.trace ++ pulseEvents s.cfg pas sts } := by
  obtain ⟨hcfg, hmapped, hclock, howner, hdir, hway, hcaller, hport, hresp⟩ := h.fixed
  apply State.eq_of_fields
  exact ⟨hcfg, hmapped, hclock, howner, rfl, rfl, hdir, hway, h.shadow, rfl, h.powered, h.pulseLog, h.attemptLog,
    h.trace, rfl, rfl, h.refreshCount, hcaller, hport, hresp, rfl⟩

theorem wordStarted_trace {a : ReadAnswers} {o0 : Oracle} (hd : drawRead s.oracle = (a, o0)) :
    (wordStarted s vw value).trace = s.trace ++ a.events s.cfg (physWordAddr vw 0) s.cfg.cwAread := by
  simp [wordStarted, rowStarted, hd]

theorem wordStarted_oracle {a : ReadAnswers} {o0 : Oracle} (hd : drawRead s.oracle = (a, o0)) :
    (wordStarted s vw value).oracle = o0 := by
  simp [wordStarted, rowStarted, hd]

/-- WRITE_WORD up to the `n`th pulse of row 0, nothing being busy before it (R161 to R164). -/
theorem firstPulses_go {a : ReadAnswers} {o0 : Oracle} {n : Nat} (hw : s.cfg.wf = true)
    (hf : s.fuses.wf = true) (hd : drawRead s.oracle = (a, o0)) (ha : a.fits s.cfg)
    (hn : n ≤ (setBitsOf (value &&& ~~~a.data)).length)
    (hready : ∀ v ∈ (drawMany drawPulse n o0).1, isReadyWord s.cfg v = true) :
    ∃ k t, k ≤ 600 ∧
      Goes k [.wwEntry vw value] s (pulsePhase vw 0 value ((setBitsOf (value &&& ~~~a.data)).drop n)) t ∧
      Pulsed (wordStarted s vw value) t ((rowPulses vw 0 (value &&& ~~~a.data)).take n)
        (drawMany drawPulse n o0).1 := by
  have hread : (drawRead (s.setWork { s.work with errCnt := 0, j := 0 }).oracle) = (a, o0) := hd
  have hstart : Goes 32 [.wwAread vw value] (s.setWork { s.work with errCnt := 0, j := 0 }) [.wwPulse vw value]
      (wordStarted s vw value) := rowStart_goes rfl hw rfl rfl (by rw [hread]; exact ha)
  have hz : (wordStarted s vw value).work.z = value &&& ~~~a.data := by
    simp [wordStarted, rowStarted, bitsToPulse, hd]
  have ho : (wordStarted s vw value).oracle = o0 := wordStarted_oracle hd
  obtain ⟨k, t, hk, hgoes, hpulsed, -⟩ := pulses_go vw value (value &&& ~~~a.data) 0 rfl s.cfg hw 32 0 n
    (wordStarted s vw value) rfl rfl rfl hz rfl hf (by rwa [bitsFrom_zero]) (by rwa [ho])
  rw [bitsFrom_zero] at hgoes hpulsed
  rw [ho, List.map_take] at hpulsed
  exact ⟨_, t, by omega, ((wwEntry_goes s vw value).trans hstart).trans hgoes, hpulsed⟩

/-- WRITE_WORD timed out in the wait before the `n`th pulse of row 0 (R160, R164, R246). -/
theorem Stops.word_pulse {a : ReadAnswers} {o0 o : Oracle} {sts : List Word32} {n : Nat}
    (hw : s.cfg.wf = true) (hf : s.fuses.wf = true) (hl : s.cfg.pollLimit = some 1) (hd : drawRead s.oracle = (a, o0))
    (ha : a.fits s.cfg) (hn : n < (rowPulses vw 0 (value &&& ~~~a.data)).length)
    (ho : drawMany drawPulse n o0 = (sts, o)) (hready : ∀ v ∈ sts, isReadyWord s.cfg v = true)
    (hbusy : isReadyWord s.cfg o.nextStatus.1 = false) :
    ∃ k t, k ≤ 700 ∧ Stops k [.wwEntry vw value] s (.next ((busyPolled
        (readyPolled t o.nextStatus.1 o.nextStatus.2)).raiseError .errTimeout .readyTimeout)) ∧
      Pulsed (wordStarted s vw value) t ((rowPulses vw 0 (value &&& ~~~a.data)).take n) sts ∧ t.oracle = o := by
  have hlen : n < (setBitsOf (value &&& ~~~a.data)).length := by simpa [rowPulses] using hn
  obtain ⟨k, t, hk, hgoes, hpulsed⟩ :=
    firstPulses_go (vw := vw) hw hf hd ha hlen.le (by rw [ho]; exact hready)
  rw [List.drop_eq_getElem_cons hlen] at hgoes
  rw [ho] at hpulsed
  have hcfg : t.cfg = s.cfg := hpulsed.fixed.1
  have hto : t.oracle = o := by
    rw [hpulsed.oracle, wordStarted_oracle hd, List.length_take, min_eq_left hn.le, ho]
  have hstop := Stops.programBit (s := t) (w := vw) (b := BitVec.ofNat 32 (setBitsOf (value &&& ~~~a.data))[n]) (r := 0)
    rfl (by rw [hto]) (by rwa [hcfg]) (by rwa [hcfg])
  exact ⟨_, t, by omega, hgoes.stops (hstop.call (i := .programBit _ _ _) _), hpulsed, hto⟩

/-! ### A time-out wherever it happens (R160, R169, R246) -/

theorem drive_port {n : Nat} {t : State} (h : drive n s = .next t) : t.port = s.port := by
  refine drive_relates (R := fun s t => t.port = s.port) (fun _ => rfl) (fun _ _ _ h1 h2 => h2.trans h1)
    (fun s t e => ?_) h
  obtain ⟨c, he⟩ := seqStep_effect e
  exact he.fixed.port

/-- The WRITE_WORD that began in `s` has come to `t`, with no other request at the port. -/
structure SoleWord (vw value : Word32) (s t : State) : Prop where
  progress : WordProgressed vw value s.caller s t
  cfg : t.cfg = s.cfg
  port : t.port = []
  cells : PulsedOn s t

theorem SoleWord.drive {t u : State} {n : Nat} (hw : s.cfg.wf = true) (h : SoleWord vw value s t)
    (e : Machine.drive n t = .next u) : SoleWord vw value s u := by
  obtain ⟨hprogress, hcfg, hport, hcells⟩ := h
  obtain ⟨hprogress', hcfg'⟩ := hprogress.drive hw hcfg e
  exact ⟨hprogress', hcfg', (drive_port e).trans hport, hcells.trans
    (drive_relates pulsedOn_stepRelation.refl pulsedOn_stepRelation.trans pulsedOn_stepRelation.seq e hcells.canonical)⟩

theorem SoleWord.begins (h : WritesWord s i vw value ok start) (hf : s.fuses.wf = true) (hp : s.port = []) :
    SoleWord vw value s (s.begin i) where
  progress := ⟨[], (List.append_nil _).symm, fun _ => .begins h⟩
  cfg := rfl
  port := hp
  cells := pulsedOn_stepRelation.begins s i hf

/-- A step goes on with the WRITE_WORD, or finds it ended and no request to run. -/
theorem SoleWord.step {t u : State} (hw : s.cfg.wf = true) (h : SoleWord vw value s t)
    (e : Machine.step t = .next u) : SoleWord vw value s u := by
  cases hctl : t.ctl with
  | idle =>
    rw [step_of_empty hctl h.port] at e
    cases e
    exact h
  | run op phase callers =>
    rw [step_of_run hctl] at e
    exact h.drive hw e

theorem SoleWord.of_run {t u : State} {n : Nat} (h : WritesWord s i vw value ok start) (ha : s.available)
    (hw : s.cfg.wf = true) (hf : s.fuses.wf = true) (hp : s.port = []) (hu : exec i s = .next u)
    (ht : Sys2Proof.core.run n u = .next t) : SoleWord vw value s t := by
  rw [h.exec_begin ha] at hu
  exact run_keeps (M := Sys2Proof.core) (fun _ _ => SoleWord.step hw) ((SoleWord.begins h hf hp).drive hw hu) ht

/-- A WRITE_WORD that has answered ErrTimeout has ended, having done nothing but pulse. -/
theorem WordProgress.of_timeout {q : RequesterId} {t : State} (h : WordProgress vw value q s t)
    (hr : t.responses = s.responses ++ [(q, .error .errTimeout .readyTimeout)]) :
    t.owner = none ∧ t.ctl = .idle ∧ OnlyPulses vw value s t := by
  cases h with
  | before _ _ _ hsame _ => simp [hsame] at hr
  | refreshing _ _ hsame _ => simp [hsame] at hr
  | ended r hidle howner hres hpulses =>
    rw [hres] at hr
    have hlast : r = .error .errTimeout .readyTimeout := by simpa using hr
    exact ⟨howner, hidle, hpulses hlast⟩

theorem IsWordPulse.toNat_physBitOf {pa : Word32} (h : IsWordPulse vw value pa) :
    (physBitOf pa).toNat = pa.toNat := by
  obtain ⟨k, r, -, -, hr, rfl⟩ := h
  exact Machine.toNat_physBitOf (composeAddr_toNat_lt (isRow_iff.2 hr) _ _)

/-- The cells that `pulseLog` does not name stay, in the words that were pulsed. -/
theorem PulsedOn.cells {t : State} (h : PulsedOn s t) {pas : List Word32}
    (hlog : t.pulseLog = s.pulseLog ++ pas.map physBitOf) (hpas : ∀ pa ∈ pas, IsWordPulse vw value pa) {x : Nat}
    (hx : ∀ pa ∈ pas, x ≠ pa.toNat) : t.fuses.read x = s.fuses.read x := by
  obtain ⟨added, hadded, hcells⟩ := h.pulses
  obtain rfl : added = pas.map physBitOf := List.append_cancel_left (hadded.symm.trans hlog)
  refine hcells x fun pb hpb => ?_
  obtain ⟨pa, hpa, rfl⟩ := List.mem_map.1 hpb
  rw [(hpas pa hpa).toNat_physBitOf]
  exact hx pa hpa

end

/-- Settles O32: a time-out wherever it happens, by the progress that every step keeps (`SoleWord.of_run`,
`WordProgress.of_timeout`); at the poll limit 1 the two runs to a busy wait (`Stops.word_first`, `Stops.word_pulse`). -/
theorem writeWordStopsAtItsWaits : Obligations.WriteWordStopsAtItsWaits := by
  intro s i ok vw value start ha hw hf h
  refine ⟨fun n u t added hp hu ht htrace hclean hres => ?_, fun o0 a hl hd hmr => ⟨fun hst => ?_, ?_⟩⟩
  · have hsole := SoleWord.of_run h ha hw hf hp hu ht
    obtain ⟨es, hes, hprogress⟩ := hsole.progress
    obtain rfl : es = added := List.append_cancel_left (hes.symm.trans htrace)
    obtain ⟨howner, hidle, hpulses⟩ := (hprogress hclean).of_timeout hres
    obtain ⟨pas, hlog, hattempts, hpas⟩ := hpulses.pulses
    exact ⟨howner, hidle, hpulses.shadow, hpulses.refreshCount, pas, hlog, hattempts, hpas,
      fun x hx => hsole.cells.cells hlog hpas hx, hsole.cells.rises⟩
  · have hstop := Stops.word_first (s := s.acquire.setOracle start) vw value hw hl hd hmr hst
    rw [h.stops ha hstop (by decide), firstWait_eq]
    simp [busyPolled, State.setWork, State.setOracle, State.raiseError, State.endOp, State.acquire, State.replied, ha.1]
  · intro n sts o hfits hn ho hready hbusy
    obtain ⟨k, t, hk, hstop, hpulsed, hto⟩ := Stops.word_pulse (s := s.acquire.setOracle start) hw hf hl hd hfits hn ho
      hready hbusy
    refine ⟨_, h.stops ha hstop (by unfold opSteps; omega), hpulsed.cells, hpulsed.rises, ?_⟩
    -- As in O31: the fields that pulses may change are named, so that the rest can take the place of `t`.
    have ht := hpulsed.eq_with
    rw [wordStarted_trace hd] at ht
    generalize t.ctl = c, t.fuses = m, t.work = w, t.adrLast = adr, t.modeLast = mode at ht
    rw [hto] at ht
    subst ht
    simp [busyPolled, readyPolled, wordStarted, rowStarted, State.setWork, State.setOracle, State.emit,
      State.raiseError, State.endOp, State.acquire, State.replied, ha.1]

end Sys2Proof.Machine

/-! # Runs under OA1: the program command reaches MODE only from PROGRAM_BIT -/

namespace Sys2Proof.Machine
open Sys2Proof Host

/-! ### What is still to do writes no program command of its own -/

/-- A register write that does not put the program command into MODE. -/
def isPulseFree (c : Config) (off v : Word32) : Prop := off = offMode → decodeCommand c v ≠ .program

/-- A SET_BITS mask that over a clean readback is a power command (R121). -/
def isPowerMask (c : Config) (off mask : Word32) : Prop := off = offMode → mask = c.cwPwron ∨ mask = c.cwPwrdn

/-- An operation whose pseudocode writes the program command to MODE only in PROGRAM_BIT's own write. -/
def callPulseFree (c : Config) : Instr → Prop
  | .wrReg off v => isPulseFree c off v
  | .setBits off mask => isPowerMask c off mask
  | i => writesNoModeWord i = true

/-- What a primitive asks for that; `clean` says that the word just read is a clean MODE readback. -/
def primPulseFree (c : Config) (clean : Prop) : Prim → Prop
  | .regWrite off v => isPulseFree c off v
  | .call op => callPulseFree c op
  | .callWriteOr off mask => clean ∧ isPowerMask c off mask
  | _ => True

/-- What a phase asks for that. -/
def phasePulseFree (c : Config) : Prop → List Prim → Prop
  | _, [] => True
  | clean, p :: ps => primPulseFree c clean p ∧ phasePulseFree c (cleanAfter p) ps

/-- What is still to do writes the program command to MODE only in PROGRAM_BIT's own write. -/
def State.pulseFree (s : State) : Prop := phasePulseFree s.cfg s.retClean s.remaining

section
variable {c : Config} {clean : Prop}

theorem phasePulseFree_mono {clean' : Prop} {ps : List Prim} (hcc : clean → clean') (h : phasePulseFree c clean ps) :
    phasePulseFree c clean' ps := by
  cases ps with
  | nil => trivial
  | cons p ps =>
    obtain ⟨hp, hps⟩ := h
    refine ⟨?_, hps⟩
    cases p
    case callWriteOr => exact hp.imp_left hcc
    all_goals exact hp

theorem phasePulseFree_append {ps qs : List Prim} (hp : phasePulseFree c clean ps) (hq : phasePulseFree c False qs) :
    phasePulseFree c clean (ps ++ qs) := by
  induction ps generalizing clean with
  | nil => exact phasePulseFree_mono False.elim hq
  | cons p ps ih => exact ⟨hp.1, ih hp.2⟩

theorem isPulseFree_adr (v : Word32) : isPulseFree c offAdr v := fun h => absurd h (by decide)

theorem isPulseFree_of_decode {v : Word32} {d : Command} (h : decodeCommand c v = d) (hd : d ≠ .program)
    (off : Word32) : isPulseFree c off v := fun _ => h ▸ hd

/-! ### The pseudocode that writes MODE (R112, R121, R140, R150, R204) -/

theorem phasePulseFree_setBitsProg {off mask : Word32} (h : isPowerMask c off mask) :
    phasePulseFree c clean (setBitsProg off mask) := by
  unfold setBitsProg
  split
  case isTrue hoff => exact ⟨trivial, ⟨isSetBitsOffset_iff.1 hoff, h⟩, trivial⟩
  case isFalse => exact ⟨trivial, trivial⟩

theorem phasePulseFree_powerProg (en : Bool) : phasePulseFree c clean (powerProg c en) := by
  cases en
  case false => exact ⟨fun _ => .inr rfl, trivial⟩
  case true => exact ⟨fun _ => .inl rfl, trivial⟩

theorem phasePulseFree_programBitProg (w b r : Word32) : phasePulseFree c clean (programBitProg w b r) := by
  unfold programBitProg
  split
  case isTrue => exact ⟨rfl, isPulseFree_adr _, trivial, trivial⟩
  case isFalse => exact ⟨trivial, trivial⟩

theorem phasePulseFree_readPhysProg (hw : c.wf = true) (pw mode : Word32) :
    phasePulseFree c clean (readPhysProg c pw mode) := by
  unfold readPhysProg
  split
  case isTrue => exact ⟨trivial, trivial⟩
  case isFalse hmode =>
    split
    case isFalse => exact ⟨trivial, trivial⟩
    case isTrue =>
      have hread : isPulseFree c offMode (mode ||| c.mCmd) := by
        by_cases ha : mode = c.mAread
        · subst ha
          exact isPulseFree_of_decode (decodeCommand_aread hw) (by simp) _
        · obtain rfl : mode = c.mMread := not_not.1 fun hm => hmode ⟨ha, hm⟩
          exact isPulseFree_of_decode (decodeCommand_mread hw) (by simp) _
      exact ⟨rfl, rfl, isPulseFree_adr _, hread, rfl, rfl, trivial⟩

theorem phasePulseFree_streamWriteProg (bytes : List Byte) : phasePulseFree c clean (streamWriteProg bytes) := by
  unfold streamWriteProg
  split
  case isTrue => exact ⟨trivial, trivial⟩
  case isFalse => exact ⟨trivial, trivial, trivial, rfl, trivial⟩

theorem phasePulseFree_streamReadProg (off n : Nat) : phasePulseFree c clean (streamReadProg off n) := by
  unfold streamReadProg
  split
  case isTrue => exact ⟨trivial, trivial⟩
  case isFalse => exact ⟨rfl, trivial, trivial, trivial⟩

theorem phasePulseFree_program (hw : c.wf = true) {i : Instr} (h : callPulseFree c i) :
    phasePulseFree c clean (program c i) := by
  cases i
  case wrReg off v => exact ⟨h, trivial⟩
  case setBits off mask => exact phasePulseFree_setBitsProg h
  case power en => exact phasePulseFree_powerProg en
  case refresh => exact ⟨isPulseFree_of_decode (decodeCommand_refresh c) (by simp) _, trivial⟩
  case adrProg => exact ⟨isPulseFree_adr _, trivial⟩
  case adrRead => exact ⟨isPulseFree_adr _, trivial⟩
  case programBit w b r => exact phasePulseFree_programBitProg w b r
  case readPhys => exact phasePulseFree_readPhysProg hw _ _
  case rdmodeArray => exact phasePulseFree_readPhysProg hw _ _
  case rdmodeMargin => exact phasePulseFree_readPhysProg hw _ _
  case streamWritePayload => exact phasePulseFree_streamWriteProg _
  case hStreamWrite => exact phasePulseFree_streamWriteProg _
  case hWrite32 => exact phasePulseFree_streamWriteProg _
  case hStreamRead off n => exact phasePulseFree_streamReadProg off n
  all_goals
    simp [callPulseFree, writesNoModeWord, program, phasePulseFree, primPulseFree, rdRegProg, statusReadyProg,
      waitReadyProg, initProg, teardownProg, readShadowProg, readBufProg, writeWordProg, ctrlReadProg, ctrlWriteProg,
      ctrlOtherProg] at h ⊢

end

/-! ### Both logs grow by the same pulses (R37, R170) -/

/-- From one state to the other `pulseLog` and `attemptLog` have grown by the same list. -/
def LoggedTogether (s t : State) : Prop :=
  ∃ added : List PhysBit, t.pulseLog = s.pulseLog ++ added ∧ t.attemptLog = s.attemptLog ++ added

theorem LoggedTogether.of_same {s t : State} (hp : t.pulseLog = s.pulseLog) (ha : t.attemptLog = s.attemptLog) :
    LoggedTogether s t := ⟨[], by rw [hp, List.append_nil], by rw [ha, List.append_nil]⟩

theorem LoggedTogether.trans {s t u : State} (h1 : LoggedTogether s t) (h2 : LoggedTogether t u) :
    LoggedTogether s u := by
  obtain ⟨ps, hp, ha⟩ := h1
  obtain ⟨qs, hp', ha'⟩ := h2
  exact ⟨ps ++ qs, by rw [hp', hp, List.append_assoc], by rw [ha', ha, List.append_assoc]⟩

/-- A write to MODE that is not the program command leaves both logs. -/
theorem modeWrite_logs {v : Word32} {s t : State} (h : modeWrite v s = .next t)
    (hv : decodeCommand s.cfg v ≠ .program) : t.pulseLog = s.pulseLog ∧ t.attemptLog = s.attemptLog := by
  simp only [modeWrite, applyCommand, State.noteMode_cfg] at h
  cases hd : decodeCommand s.cfg v <;> simp only [hd] at h
  case refresh => cases h; exact ⟨rfl, rfl⟩
  case powerDown => cases h; exact ⟨rfl, rfl⟩
  case powerOn => cases h; exact ⟨rfl, rfl⟩
  case read => rw [readCommand_next h]; exact ⟨rfl, rfl⟩
  case program => exact absurd hd hv
  case undefined => cases h

theorem modeWrite_ctl {v : Word32} {s t : State} (h : modeWrite v s = .next t) : t.ctl = s.ctl := by
  rcases modeWrite_next h with rfl | ⟨on, rfl⟩ | rfl | ⟨a, -, -, rfl⟩ <;> rfl

/-- How a primitive goes on: both logs grow together, and what it puts before the rest writes no program command of
its own. -/
structure MovesOn (s t : State) : Prop where
  logged : LoggedTogether s t
  goes : t.ctl = .idle ∨ ∃ qs, t.remaining = qs ++ s.remaining ∧ phasePulseFree s.cfg False qs

theorem MovesOn.of_same {s t : State} (hp : t.pulseLog = s.pulseLog) (ha : t.attemptLog = s.attemptLog)
    (hc : t.ctl = s.ctl) : MovesOn s t :=
  ⟨.of_same hp ha, .inr ⟨[], by simp [State.remaining, hc], trivial⟩⟩

theorem MovesOn.of_end {s t : State} (hp : t.pulseLog = s.pulseLog) (ha : t.attemptLog = s.attemptLog)
    (hc : t.ctl = .idle) : MovesOn s t := ⟨.of_same hp ha, .inl hc⟩

section
variable {s : State} {op : Instr} {phase : List Prim} {callers : List Frame}

theorem MovesOn.of_push (hc : s.ctl = .run op phase callers) (w : Work) {qs : List Prim}
    (hq : phasePulseFree s.cfg False qs) : MovesOn s ((s.setWork w).push qs) :=
  ⟨.of_same (by simp) (by simp), .inr ⟨qs, by simp [State.push, State.setWork, State.remaining, hc], hq⟩⟩

theorem MovesOn.of_enter (hc : s.ctl = .run op phase callers) (i : Instr) {ps : List Prim}
    (hp : phasePulseFree s.cfg False ps) : MovesOn s (s.enter i ps) :=
  ⟨.of_same (by simp) (by simp), .inr ⟨ps, by simp [State.enter, State.remaining, hc], hp⟩⟩

/-- PROGRAM_BIT's write enters the address it pulses in both logs (R37, R140). -/
theorem MovesOn.of_pulseWrite {t : State} (hw : s.cfg.wf = true) (h : pulseWrite s = .next t) : MovesOn s t := by
  simp only [pulseWrite, modeWrite_prog rfl hw] at h
  split at h
  case h_1 u hu =>
    cases h
    obtain ⟨a, ha, -, rfl⟩ := programCommand_next hu
    have hadr : s.adrLast = some a := ha
    exact ⟨⟨[physBitOf a], rfl, by simp [State.noteAttempt, hadr]⟩, .inr ⟨[], rfl, trivial⟩⟩
  case h_2 => cases h
  case h_3 => cases h

theorem MovesOn.of_regWrite {t : State} {off v : Word32} (hv : isPulseFree s.cfg off v)
    (h : regWrite off v s = .next t) : MovesOn s t := by
  unfold regWrite at h
  split at h
  case isTrue =>
    split at h
    case isTrue hoff =>
      obtain ⟨hp, ha⟩ := modeWrite_logs h (hv hoff)
      exact .of_same hp ha (modeWrite_ctl h)
    case isFalse =>
      cases h
      exact .of_same rfl rfl rfl
  case isFalse => cases h

/-- A test of the pseudocode lets the operation go on, or ends it with an error. -/
theorem MovesOn.of_ite {q : Prop} [Decidable q] {t u : State} (ht : MovesOn s t) (hu : MovesOn s u) :
    MovesOn s (if q then t else u) := by
  split
  · exact ht
  · exact hu

/-- The word SET_BITS writes over a clean readback is its power command (R121, R231). -/
theorem isPulseFree_ret_or {off mask : Word32} (hw : s.cfg.wf = true) (hclean : s.retClean)
    (hmask : isPowerMask s.cfg off mask) : isPulseFree s.cfg off (s.work.ret ||| mask) := by
  intro hoff
  rcases hmask hoff with rfl | rfl
  · have hword : s.work.ret ||| s.cfg.cwPwron = s.cfg.cwPwron := cleanReadback_or hclean
    rw [hword, decodeCommand_pwron hw]
    simp
  · rw [cleanReadback_or_pwrdn hclean, decodeCommand_pwrdn hw]
    simp

theorem phasePulseFree_bufLoopProg (c : Config) (a k : Nat) : phasePulseFree c False (bufLoopProg a k) := by
  unfold bufLoopProg
  split
  case isTrue => exact ⟨rfl, trivial, trivial, trivial⟩
  case isFalse => trivial

/-- Every primitive that what is still to do may hold moves on. -/
theorem runPrim_movesOn {p : Prim} {t : State} (hc : s.ctl = .run op phase callers) (hw : s.cfg.wf = true)
    (hp : primPulseFree s.cfg s.retClean p) (h : runPrim p s = .next t) : MovesOn s t := by
  cases p with
  | regRead off =>
    simp only [runPrim, regRead] at h
    split at h
    case isTrue => cases h; exact .of_same rfl rfl rfl
    case isFalse => cases h
  | regWrite off v => exact .of_regWrite hp h
  | pulseWrite => exact .of_pulseWrite hw h
  | clockEnable => cases h; exact .of_same rfl rfl rfl
  | clockDisable => cases h; exact .of_same rfl rfl rfl
  | call i => cases h; exact .of_enter hc i (phasePulseFree_program hw hp)
  | callWriteOr off mask => cases h; exact .of_enter hc _ ⟨isPulseFree_ret_or hw hp.1 hp.2, trivial⟩
  | callPulse => cases h; exact .of_enter hc _ ⟨trivial, trivial⟩
  | raise kind why => cases h; exact .of_end rfl rfl rfl
  | refuse why => cases h
  | pollInit => cases h; exact .of_same rfl rfl rfl
  | poll => cases h; exact .of_same rfl rfl rfl
  | pollTest =>
    cases h
    exact .of_ite (.of_same rfl rfl rfl)
      (.of_ite (.of_end rfl rfl rfl) (.of_push hc _ ⟨trivial, trivial, trivial⟩))
  | statusAnswer v => cases h; exact .of_same rfl rfl rfl
  | checkAddr addr =>
    cases h
    exact .of_ite (.of_ite (.of_same rfl rfl rfl) (.of_end rfl rfl rfl)) (.of_end rfl rfl rfl)
  | checkClock => cases h; exact .of_ite (.of_same rfl rfl rfl) (.of_end rfl rfl rfl)
  | copyIn => cases h; exact .of_ite (.of_same rfl rfl rfl) (.of_end rfl rfl rfl)
  | copyOut => cases h; exact .of_ite (.of_same rfl rfl rfl) (.of_end rfl rfl rfl)
  | writeGuard => cases h; exact .of_ite (.of_same rfl rfl rfl) (.of_end rfl rfl rfl)
  | mapWindow => cases h; exact .of_ite (.of_same rfl rfl rfl) (.of_end rfl rfl rfl)
  | unmapWindow => cases h; exact .of_same rfl rfl rfl
  | bufInit k => cases h; exact .of_same rfl rfl rfl
  | bufLoop a k => cases h; exact .of_push hc s.work (phasePulseFree_bufLoopProg _ a k)
  | bufStore a k => cases h; exact .of_same rfl rfl rfl
  | bufSlice off k => cases h; exact .of_same rfl rfl rfl
  | setCur => cases h; exact .of_same rfl rfl rfl
  | setM => cases h; exact .of_same rfl rfl rfl
  | wwEntry vw value => cases h; exact .of_push hc _ ⟨trivial, trivial⟩
  | wwAread vw value => cases h; exact .of_push hc s.work ⟨rfl, trivial, trivial, trivial⟩
  | wwMask vw value => cases h; exact .of_push hc _ ⟨trivial, trivial⟩
  | wwPulse vw value =>
    cases h
    exact .of_ite (.of_push hc s.work ⟨trivial, trivial⟩)
      (.of_ite (.of_push hc s.work ⟨rfl, trivial, trivial⟩) (.of_push hc s.work ⟨trivial, trivial⟩))
  | wwNextBit vw value => cases h; exact .of_push hc _ ⟨trivial, trivial⟩
  | wwMread vw value => cases h; exact .of_push hc s.work ⟨rfl, trivial, trivial, trivial⟩
  | wwCheck vw value =>
    cases h
    exact .of_ite (.of_push hc _ ⟨trivial, trivial⟩) (.of_push hc _ ⟨trivial, trivial⟩)
  | wwRefresh => cases h; exact .of_push hc s.work ⟨rfl, trivial, trivial⟩
  | wwResult => cases h; exact .of_ite (.of_end rfl rfl rfl) (.of_same rfl rfl rfl)

end

/-! ### A tick keeps what is still to do so (R23) -/

theorem State.pulseFree_of_idle {s : State} (h : s.ctl = .idle) : s.pulseFree := by
  rw [State.pulseFree, State.remaining, h]
  trivial

theorem cleanAfter_eq_false {p : Prim} (h : ∀ off, p ≠ .regRead off) : cleanAfter p = False := by
  cases p
  case regRead off => exact absurd rfl (h off)
  all_goals rfl

/-- What a register read leaves, and the MODE readback it keeps (R110). -/
theorem regRead_next {off : Word32} {s t : State} (h : regRead off s = .next t) :
    t.cfg = s.cfg ∧ t.ctl = s.ctl ∧ (off = offMode → t.work.ret = s.oracle.nextMode.1) := by
  unfold regRead at h
  split at h
  case isTrue =>
    cases h
    refine ⟨rfl, rfl, ?_⟩
    rintro rfl
    exact congrArg Prod.fst (readAnswer_mode s)
  case isFalse => cases h

/-- A primitive keeps what is still to do free of other program commands, while MODE reads back clean. -/
theorem runPrim_pulseFree {s t : State} {p : Prim} {op : Instr} {phase : List Prim} {callers : List Frame}
    (hc : s.ctl = .run op phase callers) (hw : s.cfg.wf = true)
    (hf : phasePulseFree s.cfg s.retClean (p :: s.remaining))
    (hm : p = .regRead offMode → s.nextReadbackClean = true) (h : runPrim p s = .next t) : t.pulseFree := by
  obtain ⟨hp, hrest⟩ := hf
  by_cases hread : ∃ off, p = .regRead off
  · obtain ⟨off, rfl⟩ := hread
    obtain ⟨hcfg, hctl, hret⟩ := regRead_next h
    rw [State.pulseFree, State.remaining, hctl, hcfg]
    refine phasePulseFree_mono (fun hoff => ?_) hrest
    obtain rfl : off = offMode := hoff
    rw [State.retClean, hcfg, hret rfl]
    exact hm rfl
  · rw [cleanAfter_eq_false fun off hoff => hread ⟨off, hoff⟩] at hrest
    rcases (runPrim_movesOn hc hw hp h).goes with hidle | ⟨qs, hrem, hqs⟩
    · exact State.pulseFree_of_idle hidle
    · rw [State.pulseFree, (runPrim_effect h).fixed.cfg, hrem]
      exact phasePulseFree_append (phasePulseFree_mono False.elim hqs) hrest

/-- A valid configuration, and no program command to come but PROGRAM_BIT's. -/
def State.pulseFreeValid (s : State) : Prop := s.cfg.wf = true ∧ s.pulseFree

theorem seqStep_pulseFree {s t : State} (hs : s.pulseFreeValid)
    (hm : s.nextPrim = some (.regRead offMode) → s.nextReadbackClean = true) (h : seqStep s = .next t) :
    t.pulseFreeValid ∧ LoggedTogether s t := by
  obtain ⟨hw, hf⟩ := hs
  cases seqStep_next h with
  | idle hc e =>
    subst e
    exact ⟨⟨hw, hf⟩, .of_same rfl rfl⟩
  | returns op f callers hc e =>
    subst e
    refine ⟨⟨hw, ?_⟩, .of_same rfl rfl⟩
    rw [State.pulseFree, State.remaining, hc] at hf
    exact hf
  | ends op hc e =>
    subst e
    exact ⟨⟨hw, State.pulseFree_of_idle rfl⟩, .of_same rfl rfl⟩
  | prim op p phase callers hc e =>
    obtain ⟨hrem, -, -⟩ := toGo_cons hc
    rw [State.pulseFree, hrem] at hf
    have hmoves : MovesOn (s.setCtl (.run op phase callers)) t := runPrim_movesOn rfl hw hf.1 e
    have hcfg : t.cfg = s.cfg := (runPrim_effect e).fixed.cfg
    have hfree : t.pulseFree := runPrim_pulseFree (s := s.setCtl (.run op phase callers)) rfl hw hf
      (fun hp => hm (by rw [State.nextPrim, hc, hp])) e
    exact ⟨⟨hcfg ▸ hw, hfree⟩, hmoves.logged⟩

theorem callPulseFree_of_writesNoModeWord {c : Config} {i : Instr} (h : writesNoModeWord i = true) :
    callPulseFree c i := by
  cases i
  case wrReg => cases h
  case setBits => cases h
  all_goals exact h

/-- The admission of a request to an Idle block pulses nothing. -/
theorem admitRequest_pulseFree {i : Instr} {s t : State} (hc : s.ctl = .idle) (hw : s.cfg.wf = true)
    (hi : writesNoModeWord i = true) (h : (admitRequest i s).start = .next t) :
    t.pulseFreeValid ∧ LoggedTogether s t := by
  have ha := admit_cases i s
  generalize admitRequest i s = a at h ha
  cases ha with
  | waits q ho => cases h; exact ⟨⟨hw, State.pulseFree_of_idle hc⟩, .of_same rfl rfl⟩
  | answers v => cases h; exact ⟨⟨hw, State.pulseFree_of_idle hc⟩, .of_same rfl rfl⟩
  | unmapped ho => cases h; exact ⟨⟨hw, State.pulseFree_of_idle rfl⟩, .of_same rfl rfl⟩
  | begins ho =>
    cases h
    have hprog := phasePulseFree_program (clean := s.retClean) hw (callPulseFree_of_writesNoModeWord hi)
    exact ⟨⟨hw, phasePulseFree_append (qs := []) hprog trivial⟩, .of_same rfl rfl⟩
  | refused why => cases h

/-- A tick of an Idle block admits a request that waits at its port, or changes nothing. -/
theorem tick_of_idle {s t : State} (hc : s.ctl = .idle) (h : tick s = .next t) : t = s ∨
    ∃ (q : RequesterId) (i : Instr) (port : List (RequesterId × Instr)) (o : Oracle), (q, i) ∈ s.port ∧
      (admitRequest i { s with caller := q, port := port, oracle := o }).start = .next t := by
  simp only [tick, hc] at h
  split at h
  case h_1 i u hu =>
    obtain ⟨before, after, q, o, hport, rfl⟩ := takeRequest_some hu
    exact .inr ⟨q, i, _, o, hport ▸ List.mem_append_right _ List.mem_cons_self, h⟩
  case h_2 =>
    cases h
    exact .inl rfl

/-- What may follow a state of a run under OA1 whose requests write no MODE word of their own. -/
theorem Follows.pulseFree {s t : State} (h : Follows s t) (hs : s.pulseFreeValid)
    (hm : s.nextPrim = some (.regRead offMode) → s.nextReadbackClean = true)
    (hport : ∀ e ∈ s.port, writesNoModeWord e.2 = true) : t.pulseFreeValid ∧ LoggedTogether s t := by
  rcases h with h | ⟨r, rfl⟩
  · cases hc : s.ctl with
    | idle =>
      rcases tick_of_idle hc h with rfl | ⟨q, i, port, o, hi, h⟩
      · exact ⟨hs, .of_same rfl rfl⟩
      · exact admitRequest_pulseFree (s := { s with caller := q, port := port, oracle := o }) hc hs.1 (hport _ hi) h
    | run op phase callers =>
      rw [tick_of_run (by simp [State.isIdle, hc])] at h
      exact seqStep_pulseFree hs hm h
  · exact ⟨hs, .of_same rfl rfl⟩

/-- Settles O36: from an Idle block on, a program command reaches MODE only in PROGRAM_BIT's write, which enters its
pulse in both logs (`Follows.pulseFree`). -/
theorem cleanRunsPulseOnlyAttempts : Obligations.CleanRunsPulseOnlyAttempts := by
  intro run s t hrun hs ht hoa hw hidle hport
  have hlogged := hrun.relates (R := fun a b => a.pulseFreeValid → b.pulseFreeValid ∧ LoggedTogether a b)
    (fun _ h => ⟨h, .of_same rfl rfl⟩)
    (fun _ _ _ h1 h2 h => ⟨(h2 (h1 h).1).1, (h1 h).2.trans (h2 (h1 h).1).2⟩) hs ht
    fun a ha b hab h => hab.pulseFree h (hoa a ha) (hport a ha)
  exact (hlogged ⟨hw, State.pulseFree_of_idle hidle⟩).2

end Sys2Proof.Machine

/-! # The lock and the clock gate: every step keeps the lock with the operation, the gate inside a shadow read -/

namespace Sys2Proof.Machine
open Sys2Proof Host

/-! ### The lock over a step of the sequencer (R250, R255) -/

@[simp] theorem State.push_isIdle (s : State) (qs : List Prim) : (s.push qs).isIdle = s.isIdle := by
  unfold State.push
  split
  case h_1 h => simp [State.isIdle, h]
  case h_2 => rfl

@[simp] theorem State.enter_isIdle (s : State) (i : Instr) (ps : List Prim) : (s.enter i ps).isIdle = s.isIdle := by
  unfold State.enter
  split
  case h_1 h => simp [State.isIdle, h]
  case h_2 => rfl

theorem State.lockInv_congr {s t : State} (hi : t.isIdle = s.isIdle) (ho : t.owner = s.owner) (h : s.lockInv = true) :
    t.lockInv = true := by
  rwa [State.lockInv, hi, ho]

theorem modeWrite_lockInv {v : Word32} {s t : State} (h : modeWrite v s = .next t) (hs : s.lockInv = true) :
    t.lockInv = true :=
  State.lockInv_congr (by simp only [State.isIdle, modeWrite_ctl h]) (modeWrite_sameLock h).owner hs

/-- A primitive keeps the lock and the operation, or ends both. -/
theorem PrimEffect.lockInv {s t : State} (h : PrimEffect s t) (hs : s.lockInv = true) : t.lockInv = true := by
  cases h with
  | push w qs => exact State.lockInv_congr (s := s) (by rw [State.push_isIdle]; rfl) (by simp) hs
  | enter i ps => exact State.lockInv_congr (by simp) (by simp) hs
  | mode v t h => exact modeWrite_lockInv h hs
  | pulse t h => exact State.lockInv_congr (s := t) rfl rfl (modeWrite_lockInv h hs)
  | ends o w r => rfl
  | _ => exact hs

theorem seqStep_lockInv {s t : State} (hs : s.lockInv = true) (h : seqStep s = .next t) : t.lockInv = true := by
  cases seqStep_next h with
  | idle _ e => exact e ▸ hs
  | returns op f callers hc e =>
    subst e
    exact State.lockInv_congr (s := s) (by simp [State.isIdle, hc]) rfl hs
  | ends op _ e => exact e ▸ rfl
  | prim op p phase callers hc e =>
    exact (runPrim_effect e).lockInv (State.lockInv_congr (s := s) (by simp [State.isIdle, hc]) rfl hs)

/-! ### Where the clock gate may be on (R185) -/

/-- The ways `clockBalanced` answers true: what a phase begins with, the gate being on or off. -/
inductive ClockUse : Bool → List Prim → Prop where
  | done : ClockUse false []
  | enable (off : Word32) {rest : List Prim} (h : ClockUse false rest) :
      ClockUse false (.clockEnable :: .checkClock :: .call (.rdReg off) :: .clockDisable :: rest)
  | check (on : Bool) (off : Word32) {rest : List Prim} (h : ClockUse false rest) :
      ClockUse on (.checkClock :: .call (.rdReg off) :: .clockDisable :: rest)
  | call (off : Word32) {rest : List Prim} (h : ClockUse false rest) :
      ClockUse true (.call (.rdReg off) :: .clockDisable :: rest)
  | read (off : Word32) {rest : List Prim} (h : ClockUse false rest) :
      ClockUse true (.regRead off :: .clockDisable :: rest)
  | disable {rest : List Prim} (h : ClockUse false rest) : ClockUse true (.clockDisable :: rest)
  | free {p : Prim} {rest : List Prim} (hp : clockFree p = true) (h : ClockUse false rest) : ClockUse false (p :: rest)

theorem clockBalanced_iff {on : Bool} {ps : List Prim} : clockBalanced on ps = true ↔ ClockUse on ps := by
  constructor
  · intro h
    fun_induction clockBalanced on ps with
    | case1 on => cases on; exacts [.done, nomatch h]
    | case2 on off rest ih => cases on; exacts [.enable off (ih h), nomatch h]
    | case3 on off rest ih => exact .check on off (ih h)
    | case4 off rest ih => exact .call off (ih h)
    | case5 off rest ih => exact .read off (ih h)
    | case6 rest ih => exact .disable (ih h)
    | case7 => cases h
    | case8 p rest _ _ ih =>
      obtain ⟨hp, h⟩ := Bool.and_eq_true_iff.1 h
      exact .free hp (ih h)
  · intro h
    induction h with
    | @free p rest hp h ih =>
      have he : p ≠ .clockEnable := by rintro rfl; cases hp
      have hc : p ≠ .checkClock := by rintro rfl; cases hp
      simp [clockBalanced, he, hc, hp, ih]
    | check on off h ih => cases on <;> simpa [clockBalanced] using ih
    | _ => simp_all [clockBalanced]

theorem State.clockInv_iff {s : State} : s.clockInv = true ↔ ClockUse s.clockOn s.remaining := clockBalanced_iff

theorem ClockUse.append {on : Bool} {ps qs : List Prim} (hp : ClockUse on ps) (hq : ClockUse false qs) :
    ClockUse on (ps ++ qs) := by
  induction hp with
  | done => exact hq
  | enable off _ ih => exact .enable off ih
  | check on off _ ih => exact .check on off ih
  | call off _ ih => exact .call off ih
  | read off _ ih => exact .read off ih
  | disable _ ih => exact .disable ih
  | free hp _ ih => exact .free hp ih

/-- Primitives that have nothing to do with the clock gate. -/
theorem ClockUse.of_all {ps : List Prim} (h : ps.all clockFree = true) : ClockUse false ps := by
  induction ps with
  | nil => exact .done
  | cons p ps ih =>
    obtain ⟨hp, hps⟩ := Bool.and_eq_true_iff.1 (List.all_cons ▸ h)
    exact .free hp (ih hps)

/-- READ_SHADOW alone uses the clock gate, and leaves it off (R180, R185). -/
theorem clockUse_program (c : Config) (i : Instr) : ClockUse false (program c i) := by
  cases i
  case readShadow addr => exact .free rfl (.enable _ .done)
  all_goals
    refine .of_all ?_
    simp only [program, statusReadyProg, waitReadyProg, rdRegProg, wrRegProg, powerProg, refreshProg, initProg,
      teardownProg, writeWordProg, readBufProg, ctrlReadProg, ctrlWriteProg, ctrlOtherProg, streamWriteProg,
      streamReadProg, setBitsProg, programBitProg, readPhysProg, apply_ite (List.all · clockFree)]
    simp [clockFree]

/-! ### The clock gate over a step of the sequencer (R185, R261) -/

/-- How a primitive that leaves the clock gate alone goes on: to the end of the operation, or with primitives before the
rest that switch the gate on only for a time. -/
structure ClockMoves (s t : State) : Prop where
  clock : t.clockOn = s.clockOn
  goes : t.ctl = .idle ∨ ∃ qs, t.remaining = qs ++ s.remaining ∧ ClockUse false qs

theorem ClockMoves.of_same {s t : State} (hk : t.clockOn = s.clockOn) (hc : t.ctl = s.ctl) : ClockMoves s t :=
  ⟨hk, .inr ⟨[], by simp [State.remaining, hc], .done⟩⟩

theorem ClockMoves.of_end {s t : State} (hk : t.clockOn = s.clockOn) (hc : t.ctl = .idle) : ClockMoves s t :=
  ⟨hk, .inl hc⟩

theorem ClockMoves.of_ite {s t u : State} {q : Prop} [Decidable q] (ht : ClockMoves s t) (hu : ClockMoves s u) :
    ClockMoves s (if q then t else u) := by
  split
  · exact ht
  · exact hu

theorem regRead_clockOn {off : Word32} {s t : State} (h : regRead off s = .next t) :
    t.clockOn = s.clockOn ∧ t.ctl = s.ctl := by
  unfold regRead at h
  split at h
  case isTrue => cases h; exact ⟨rfl, rfl⟩
  case isFalse => cases h

theorem modeWrite_clockMoves {v : Word32} {s t : State} (h : modeWrite v s = .next t) : ClockMoves s t := by
  refine .of_same ?_ (modeWrite_ctl h)
  rcases modeWrite_next h with rfl | ⟨on, rfl⟩ | rfl | ⟨a, -, -, rfl⟩ <;> rfl

section
variable {s : State} {op : Instr} {phase : List Prim} {callers : List Frame}

theorem ClockMoves.of_push (hc : s.ctl = .run op phase callers) (w : Work) {qs : List Prim}
    (hq : qs.all clockFree = true) : ClockMoves s ((s.setWork w).push qs) :=
  ⟨by simp, .inr ⟨qs, by simp [State.push, State.setWork, State.remaining, hc], .of_all hq⟩⟩

theorem ClockMoves.of_enter (hc : s.ctl = .run op phase callers) (i : Instr) {ps : List Prim}
    (hp : ClockUse false ps) : ClockMoves s (s.enter i ps) :=
  ⟨by simp, .inr ⟨ps, by simp [State.enter, State.remaining, hc], hp⟩⟩

theorem bufLoopProg_clockFree (a k : Nat) : (bufLoopProg a k).all clockFree = true := by
  unfold bufLoopProg
  split <;> rfl

/-- Every primitive but those of the clock gate leaves the gate alone. -/
theorem runPrim_clockMoves {p : Prim} {t : State} (hc : s.ctl = .run op phase callers) (hp : clockFree p = true)
    (h : runPrim p s = .next t) : ClockMoves s t := by
  cases p
  case clockEnable => cases hp
  case checkClock => cases hp
  case clockDisable => cases hp
  case refuse => cases h
  case regRead off =>
    obtain ⟨hk, hctl⟩ := regRead_clockOn h
    exact .of_same hk hctl
  case regWrite off v =>
    simp only [runPrim, regWrite] at h
    split at h
    case isTrue =>
      split at h
      case isTrue => exact modeWrite_clockMoves h
      case isFalse => cases h; exact .of_same rfl rfl
    case isFalse => cases h
  case pulseWrite =>
    simp only [runPrim, pulseWrite] at h
    split at h
    case h_1 u hu =>
      cases h
      obtain ⟨hk, hgoes⟩ := modeWrite_clockMoves hu
      exact ⟨hk, hgoes⟩
    case h_2 => cases h
    case h_3 => cases h
  case call i => cases h; exact .of_enter hc i (clockUse_program _ i)
  case callWriteOr off mask => cases h; exact .of_enter hc _ (.of_all rfl)
  case callPulse => cases h; exact .of_enter hc _ (.of_all rfl)
  case raise kind why => cases h; exact .of_end rfl rfl
  case pollTest =>
    cases h
    exact .of_ite (.of_same rfl rfl) (.of_ite (.of_end rfl rfl) (.of_push hc _ rfl))
  case checkAddr addr =>
    cases h
    exact .of_ite (.of_ite (.of_same rfl rfl) (.of_end rfl rfl)) (.of_end rfl rfl)
  case copyIn => cases h; exact .of_ite (.of_same rfl rfl) (.of_end rfl rfl)
  case copyOut => cases h; exact .of_ite (.of_same rfl rfl) (.of_end rfl rfl)
  case writeGuard => cases h; exact .of_ite (.of_same rfl rfl) (.of_end rfl rfl)
  case mapWindow => cases h; exact .of_ite (.of_same rfl rfl) (.of_end rfl rfl)
  case wwResult => cases h; exact .of_ite (.of_end rfl rfl) (.of_same rfl rfl)
  case bufLoop a k => cases h; exact .of_push hc s.work (bufLoopProg_clockFree a k)
  case wwPulse vw value =>
    cases h
    exact .of_ite (.of_push hc s.work rfl) (.of_ite (.of_push hc s.work rfl) (.of_push hc s.work rfl))
  case wwCheck vw value => cases h; exact .of_ite (.of_push hc _ rfl) (.of_push hc _ rfl)
  case wwEntry vw value => cases h; exact .of_push hc _ rfl
  case wwAread vw value => cases h; exact .of_push hc s.work rfl
  case wwMask vw value => cases h; exact .of_push hc _ rfl
  case wwNextBit vw value => cases h; exact .of_push hc _ rfl
  case wwMread vw value => cases h; exact .of_push hc s.work rfl
  case wwRefresh => cases h; exact .of_push hc s.work rfl
  all_goals cases h; exact .of_same rfl rfl

theorem State.clockInv_of_idle {s : State} (hc : s.ctl = .idle) (hk : s.clockOn = false) : s.clockInv = true := by
  simp [State.clockInv, State.remaining, hc, hk, clockBalanced]

theorem State.clockOn_of_idle {s : State} (hc : s.ctl = .idle) (h : s.clockInv = true) : s.clockOn = false := by
  simpa [State.clockInv, State.remaining, hc, clockBalanced] using h

/-- A primitive keeps the use of the clock gate balanced: those of the gate, and the one read while it is on, are met in
READ_SHADOW's order. -/
theorem runPrim_clockInv {p : Prim} {t : State} (hc : s.ctl = .run op phase callers)
    (hs : ClockUse s.clockOn (p :: s.remaining)) (h : runPrim p s = .next t) : t.clockInv = true := by
  rw [State.clockInv_iff]
  generalize hk : s.clockOn = on at hs
  generalize hr : s.remaining = ps at hs
  cases hs with
  | enable off hrest =>
    cases h
    have hrem : (clockEnable s).remaining = s.remaining := rfl
    rw [hrem, hr]
    exact .check _ off hrest
  | check on off hrest =>
    cases h
    cases on with
    | false =>
      have hstop : checkClock s = s.raiseError .errResource .clockUnavailable := by simp [checkClock, hk]
      rw [hstop]
      exact State.clockInv_iff.1 (State.clockInv_of_idle rfl hk)
    | true =>
      have hgo : checkClock s = s := by simp [checkClock, hk]
      rw [hgo, hk, hr]
      exact .call off hrest
  | call off hrest =>
    cases h
    have hrem : (s.enter (.rdReg off) [.regRead off]).remaining = .regRead off :: s.remaining := by
      simp [State.enter, State.remaining, hc]
    rw [program, rdRegProg, State.enter_clockOn, hrem, hk, hr]
    exact .read off hrest
  | read off hrest =>
    obtain ⟨hk', hctl⟩ := regRead_clockOn h
    rw [hk', hk, State.remaining, hctl, ← State.remaining, hr]
    exact .disable hrest
  | disable hrest =>
    cases h
    have hrem : (clockDisable s).remaining = s.remaining := rfl
    rw [hrem, hr]
    exact hrest
  | free hp hrest =>
    obtain ⟨hk', hgoes⟩ := runPrim_clockMoves hc hp h
    rw [hk', hk]
    rcases hgoes with hidle | ⟨qs, hrem, hqs⟩
    · rw [State.remaining, hidle]
      exact .done
    · rw [hrem, hr]
      exact hqs.append hrest

end

theorem seqStep_clockInv {s t : State} (hs : s.clockInv = true) (h : seqStep s = .next t) : t.clockInv = true := by
  cases seqStep_next h with
  | idle _ e => exact e ▸ hs
  | returns op f callers hc e =>
    subst e
    have hrem : (s.setCtl (.run f.op f.phase callers)).remaining = s.remaining := by simp [State.remaining, hc]
    rwa [State.clockInv, hrem]
  | ends op hc e =>
    subst e
    exact State.clockInv_of_idle rfl (by simpa [State.clockInv, State.remaining, hc, clockBalanced] using hs)
  | prim op p phase callers hc e =>
    obtain ⟨hrem, -, -⟩ := toGo_cons hc
    rw [State.clockInv_iff, hrem] at hs
    exact runPrim_clockInv (s := s.setCtl (.run op phase callers)) rfl hs e

/-! ### The lock and the clock gate over a step (R185, R250, R255, R261) -/

/-- The lock is held exactly while an operation is in progress, and the clock gate on only inside a shadow read. -/
def State.lockAndClock (s : State) : Prop := s.lockInv = true ∧ s.clockInv = true

theorem State.lockAndClock_of_idle {s : State} (hc : s.ctl = .idle) (ho : s.owner = none) (hk : s.clockOn = false) :
    s.lockAndClock :=
  ⟨by simp [State.lockInv, State.isIdle, hc, ho], State.clockInv_of_idle hc hk⟩

theorem State.owner_of_idle {s : State} (hc : s.ctl = .idle) (h : s.lockInv = true) : s.owner = none := by
  simpa [State.lockInv, State.isIdle, hc] using h

theorem drive_lockAndClock {n : Nat} {s t : State} (hs : s.lockAndClock) (h : drive n s = .next t) :
    t.lockAndClock :=
  drive_keeps (P := State.lockAndClock) (fun _ _ hs e => ⟨seqStep_lockInv hs.1 e, seqStep_clockInv hs.2 e⟩) hs h

/-- An operation begins with the lock taken, the clock gate off, and its pseudocode still to do. -/
theorem begin_lockAndClock {s : State} (hk : s.clockOn = false) (i : Instr) : (s.begin i).lockAndClock := by
  have hrem : (s.begin i).remaining = program s.cfg i := by simp [State.remaining, State.begin]
  have hclock : (s.begin i).clockOn = false := hk
  refine ⟨rfl, State.clockInv_iff.2 ?_⟩
  rw [hrem, hclock]
  exact clockUse_program _ i

/-- A request that an Idle block runs. -/
theorem exec_lockAndClock {i : Instr} {s t : State} (hc : s.ctl = .idle) (ho : s.owner = none)
    (hk : s.clockOn = false) (h : exec i s = .next t) : t.lockAndClock := by
  cases exec_next h with
  | waits q _ e => exact e ▸ State.lockAndClock_of_idle hc ho hk
  | answers v e => exact e ▸ State.lockAndClock_of_idle hc ho hk
  | unmapped _ e => exact e ▸ State.lockAndClock_of_idle rfl rfl hk
  | runs _ e => exact drive_lockAndClock (begin_lockAndClock hk i) e

/-- Settles O55: an Idle block has the lock free and the gate off, and every step of the sequencer keeps both
(`seqStep_lockInv`, `seqStep_clockInv`). -/
theorem stepKeepsLockAndClock : Obligations.StepKeepsLockAndClock := by
  intro s t hl hk h
  cases step_next h with
  | resumes _ e => exact drive_lockAndClock ⟨hl, hk⟩ e
  | serves hc i q port o e =>
    exact exec_lockAndClock (s := { s with caller := q, port := port, oracle := o }) hc (s.owner_of_idle hc hl)
      (s.clockOn_of_idle hc hk) e
  | stays _ e => exact e ▸ ⟨hl, hk⟩

end Sys2Proof.Machine

/-! # The shadow reader: READ_SHADOW's ends, what it leaves alone, and READ_BUF -/

namespace Sys2Proof.Machine
open Sys2Proof Host

/-! ### The end of an operation that returns a value -/

/-- An operation that returns a value, begun with the lock free and run to its end. -/
theorem Runs.replied {s t : State} {ps : List Prim} {i : Instr} {k : Nat} (hr : Runs k ps s.acquire t.acquire)
    (h : s.owner = none) (hk : k < opSteps) (ht : SameLock s t) : drive opSteps (s.acquire.setCtl (.run i ps [])) =
      .next { t with ctl := .idle, responses := s.replied (.ok (returnValue t.acquire i)) } := by
  obtain ⟨ho, hc, hresp⟩ := ht
  rw [hr.ends i hk]
  simp [State.endOp, State.acquire, State.replied, hc, hresp, ho, h]

/-! ### READ_SHADOW from a free lock (R180, R244) -/

section
variable {s : State} {addr : Word32}

theorem addrInRange_iff : addrInRange addr = true ↔ addr.toNat < 256 := decide_eq_true_iff

theorem addrAligned_iff : addrAligned addr = true ↔ addr.toNat % 4 = 0 := beq_iff_eq

theorem exec_readShadow_available (h : s.available) (addr : Word32) :
    exec (.readShadow addr) s = resume (s.begin (.readShadow addr)) := admitMapped_available h _

/-- An address that fails a check ends READ_SHADOW with no access. -/
theorem resume_readShadow_of_checkAddr {why : Reason} (h : s.owner = none)
    (hf : ∀ c, checkAddr addr (s.acquire.setCtl c) = s.acquire.raiseError .errFault why) :
    resume (s.begin (.readShadow addr)) =
      .next { s with ctl := .idle, responses := s.replied (.error .errFault why) } :=
  have hstop : Stops 1 (readShadowProg addr) s.acquire (.next (s.acquire.raiseError .errFault why)) :=
    Stops.single (p := .checkAddr addr) (fun c => congrArg Outcome.next (hf c)) (rests_of_raise _ _ _) _
  hstop.replied h (by decide) (.readShadow addr) ⟨rfl, rfl, rfl⟩

theorem resume_readShadow_range (h : s.owner = none) (hr : 256 ≤ addr.toNat) :
    resume (s.begin (.readShadow addr)) =
      .next { s with ctl := .idle, responses := s.replied (.error .errFault .addrRange) } := by
  have hr : ¬addrInRange addr = true := fun hin => by have := addrInRange_iff.1 hin; omega
  exact resume_readShadow_of_checkAddr h fun c => by rw [checkAddr_setCtl, if_neg hr]

theorem resume_readShadow_align (h : s.owner = none) (hr : addr.toNat < 256) (ha : addr.toNat % 4 ≠ 0) :
    resume (s.begin (.readShadow addr)) =
      .next { s with ctl := .idle, responses := s.replied (.error .errFault .addrAlign) } :=
  resume_readShadow_of_checkAddr h fun c => by
    rw [checkAddr_setCtl, if_pos (addrInRange_iff.2 hr), if_neg (mt addrAligned_iff.1 ha)]

theorem resume_readShadow_clock (h : s.owner = none) (hr : addr.toNat < 256) (ha : addr.toNat % 4 = 0)
    (hk : s.oracle.nextClock.1 = false) : resume (s.begin (.readShadow addr)) = .next { s with
      oracle := s.oracle.nextClock.2
      clockOn := false
      trace := s.trace ++ [.clkOn false]
      ctl := .idle
      responses := s.replied (.error .errResource .clockUnavailable) } :=
  have hstop := Stops.readShadow (s := s.acquire) (addrInRange_iff.2 hr) (addrAligned_iff.2 ha) (Prod.ext hk rfl)
  hstop.replied (t := ((s.setOracle s.oracle.nextClock.2).emit (.clkOn false)).setClock false) h (by decide) _
    ⟨rfl, rfl, rfl⟩

theorem resume_readShadow_ok (h : s.owner = none) (hr : addr.toNat < 256) (ha : addr.toNat % 4 = 0)
    (hk : s.oracle.nextClock.1 = true) : resume (s.begin (.readShadow addr)) = .next {
      shadowRead s s.oracle.nextClock.2 (addr.toNat / 4) with
      ctl := .idle
      responses := s.replied (.ok (.word (shadowWord s (addr.toNat / 4)))) } :=
  have hrun := Runs.readShadow (s := s.acquire) (addrInRange_iff.2 hr) (addrAligned_iff.2 ha) (Prod.ext hk rfl)
  hrun.replied (t := shadowRead s s.oracle.nextClock.2 (addr.toNat / 4)) h (by decide) ⟨rfl, rfl, rfl⟩

/-- What READ_SHADOW leaves when it ends, from a free lock: an error with at most the failed ClockEnable, or the word
read. -/
inductive ShadowReadEnds (s : State) (addr : Word32) : State → Prop where
  | fails (o : Oracle) (on : Bool) (es : List BusEvent) (kind : ErrorKind) (why : Reason)
      (hes : ∀ e ∈ es, e = .clkOn false) : ShadowReadEnds s addr { s with
        oracle := o
        clockOn := on
        trace := s.trace ++ es
        ctl := .idle
        responses := s.replied (.error kind why) }
  | reads (o : Oracle) (hr : addr.toNat < 256) : ShadowReadEnds s addr { shadowRead s o (addr.toNat / 4) with
      ctl := .idle
      responses := s.replied (.ok (.word (shadowWord s (addr.toNat / 4)))) }

theorem resume_readShadow_next {t : State} (h : s.owner = none) (e : resume (s.begin (.readShadow addr)) = .next t) :
    ShadowReadEnds s addr t := by
  have unread (kind : ErrorKind) (why : Reason) : ShadowReadEnds s addr
      { s with ctl := .idle, responses := s.replied (.error kind why) } := by
    simpa using ShadowReadEnds.fails (addr := addr) s.oracle s.clockOn [] kind why (by simp)
  by_cases hr : addr.toNat < 256
  · by_cases ha : addr.toNat % 4 = 0
    · cases hk : s.oracle.nextClock.1 with
      | false =>
        rw [resume_readShadow_clock h hr ha hk] at e
        cases e
        exact .fails _ false [.clkOn false] _ _ (by simp)
      | true =>
        rw [resume_readShadow_ok h hr ha hk] at e
        cases e
        exact .reads _ hr
    · rw [resume_readShadow_align h hr ha] at e
      cases e
      exact unread _ _
  · rw [resume_readShadow_range h (Nat.le_of_not_lt hr)] at e
    cases e
    exact unread _ _

end

/-- Settles O37: the four ways READ_SHADOW ends from a free lock, the clock gate being off before. -/
theorem readShadowReturnsTheRegister : Obligations.ReadShadowReturnsTheRegister := by
  intro s addr h hc
  rw [exec_readShadow_available h]
  refine ⟨resume_readShadow_range h.1, resume_readShadow_align h.1, fun hr ha hk => ?_, fun hr ha hk => ?_⟩
  · rw [resume_readShadow_clock h.1 hr ha hk, ← hc]
  · rw [resume_readShadow_ok h.1 hr ha hk, shadowRead, ← hc]

/-! ### What READ_SHADOW leaves alone (R181) -/

/-- An event that is a move of the clock gate, or a read of none of the programming registers (R181). -/
def isShadowReadEvent : BusEvent → Prop
  | .rd off _ => off ≠ offMode ∧ off ≠ offAdr ∧ off ≠ offRdData ∧ off ≠ offStatus
  | .wr _ _ => False
  | _ => True

/-- An offset of the shadow is none of the programming registers. -/
theorem isShadowReadEvent_rd {k : Nat} (hk : k < 64) (v : Word32) :
    isShadowReadEvent (.rd (BitVec.ofNat 32 (0x100 + 4 * k)) v) := by
  have hoff : (BitVec.ofNat 32 (0x100 + 4 * k)).toNat = 0x100 + 4 * k := by
    simp only [BitVec.toNat_ofNat]
    omega
  have hne {off : Word32} (h : off.toNat < 0x100) : BitVec.ofNat 32 (0x100 + 4 * k) ≠ off := by
    rintro rfl
    omega
  exact ⟨hne (by decide), hne (by decide), hne (by decide), hne (by decide)⟩

/-- Settles O38: READ_SHADOW waits, finds no mapping, or ends as `resume_readShadow_next` says. -/
theorem readShadowTouchesNoProgrammingRegister : Obligations.ReadShadowTouchesNoProgrammingRegister := by
  intro s t addr e
  have same {u : State} (hp : u.powered = s.powered) (hf : u.fuses = s.fuses) {es : List BusEvent}
      (ht : u.trace = s.trace ++ es) (hes : ∀ e ∈ es, isShadowReadEvent e) :
      u.powered = s.powered ∧ (∀ a, u.fuses.read a = s.fuses.read a) ∧ u.fuses = s.fuses ∧
        ∃ added : List BusEvent, u.trace = s.trace ++ added ∧ ∀ e ∈ added, isShadowReadEvent e :=
    ⟨hp, fun a => by rw [hf], hf, es, ht, hes⟩
  cases exec_next e with
  | waits q _ e => subst e; exact same rfl rfl (List.append_nil _).symm (by simp)
  | answers v e => subst e; exact same rfl rfl (List.append_nil _).symm (by simp)
  | unmapped _ e => subst e; exact same rfl rfl (List.append_nil _).symm (by simp)
  | runs ho e =>
    cases resume_readShadow_next ho e with
    | fails o on es kind why hes => exact same rfl rfl rfl fun e he => by rw [hes e he]; trivial
    | reads o hr =>
      refine same rfl rfl (es := shadowReadEvents s (addr.toNat / 4)) rfl ?_
      have hrd := isShadowReadEvent_rd (k := addr.toNat / 4) (by omega) (shadowWord s (addr.toNat / 4))
      simpa [shadowReadEvents, isShadowReadEvent] using hrd

/-! ### Two READ_SHADOW with no refresh between them (R182) -/

/-- A READ_SHADOW that answers a word answers that of its register, which it keeps. -/
theorem readShadow_answers {s t : State} {addr x : Word32} (h : s.available) (e : exec (.readShadow addr) s = .next t)
    (hx : t.responses = s.replied (.ok (.word x))) :
    x = shadowWord s (addr.toNat / 4) ∧ t.shadow = s.shadow := by
  rw [exec_readShadow_available h] at e
  cases resume_readShadow_next h.1 e with
  | fails => simp [State.replied] at hx
  | reads =>
    have hx : shadowWord s (addr.toNat / 4) = x := by simpa [State.replied] using hx
    exact ⟨hx.symm, rfl⟩

/-- What steps may do to the shadow, a run may. -/
theorem run_shadowCounted {n : Nat} {s t : State} (h : Sys2Proof.core.run n s = .next t) : ShadowCounted s t :=
  run_keeps (M := Sys2Proof.core) (P := ShadowCounted s)
    (fun _ _ hs e => hs.trans (shadowCounted_stepRelation.step e)) (.of_same rfl rfl) h

/-- Settles O39: both words are the register's (`readShadow_answers`), and a run with no refresh keeps the shadow. -/
theorem shadowReadIsIdempotent : Obligations.ShadowReadIsIdempotent := by
  intro s t u v n addr x y hs hfirst hx hrun hcount hu hsecond hy
  obtain ⟨rfl, hts⟩ := readShadow_answers hs hfirst hx
  obtain ⟨rfl, -⟩ := readShadow_answers hu hsecond hy
  have hut : u.shadow = t.shadow := (run_shadowCounted hrun).2 hcount
  exact (shadowWord_congr (hut.trans hts) _).symm

/-! ### READ_BUF (R183, R184) -/

/-- A buffer that every turn has filled holds the first virtual bytes. -/
theorem bufAt_eq_of_le (s : State) {a k : Nat} (h : k ≤ a) : bufAt s a k = (List.range k).map (virtualByte s) :=
  List.map_congr_left fun _ hx => if_pos ((List.mem_range.1 hx).trans_le h)

theorem bufRead_zero_eq (s : State) (k d : Nat) : bufRead s k 0 d = { s with
    oracle := (drawMany Oracle.nextClock d s.oracle).2
    work := { s.work with
      ret := if d = 0 then s.work.ret else shadowWord s (d - 1)
      buf := bufAt s (4 * d) k }
    trace := s.trace ++ (List.range d).flatMap (shadowReadEvents s) } := by
  simp only [bufRead, lastWord, Nat.zero_add, List.range_eq_range']

/-- Settles O40: the turns of READ_BUF to its end (`Runs.readBuf`), or to the word at which the clock fails
(`Stops.readBuf`). -/
theorem readBufReturnsTheFirstBytes : Obligations.ReadBufReturnsTheFirstBytes := by
  rintro s n words h hc rfl
  have hexec : exec (.readBuf n) s = drive opSteps (s.acquire.setCtl (.run (.readBuf n) (readBufProg n) [])) :=
    admitMapped_available h _
  rw [hexec]
  refine ⟨fun hcl => ?_, fun w hw hcl hf => ?_⟩
  · have hrun := Runs.readBuf (s := s.acquire) (n := n) hc hcl
    have hend := hrun.replied (i := .readBuf n) (t := bufRead s (min n 256) 0 ((min n 256 + 3) / 4)) h.1
      (by unfold opSteps; omega) ⟨rfl, rfl, rfl⟩
    rw [hend, bufRead_zero_eq, bufAt_eq_of_le s (by omega)]
    rfl
  · have hstop := Stops.readBuf (s := s.acquire) hw hc hcl hf
    have hend := hstop.replied (t := { bufRead s (min n 256) 0 w with
      oracle := (drawMany Oracle.nextClock w s.oracle).2.nextClock.2
      trace := (bufRead s (min n 256) 0 w).trace ++ [.clkOn false] }) h.1 (by unfold opSteps; omega) (.readBuf n)
      ⟨rfl, rfl, rfl⟩
    rw [hend, bufRead_zero_eq]
    rfl

end Sys2Proof.Machine

/-! # Entry: the locked and the unmapped machine, and several requests at the port -/

namespace Sys2Proof.Machine
open Sys2Proof Host

/-! ### The lock held (R250) -/

section
variable {s : State} {q : RequesterId}

theorem admitMapped_locked (h : s.owner = some q) (i : Instr) : (admitMapped i s).run = .next (s.wait i) := by
  simp [admitMapped, h, Admission.run]

theorem admitPrimitive_locked (h : s.owner = some q) (i : Instr) : (admitPrimitive i s).run = .next (s.wait i) := by
  simp [admitPrimitive, h, Admission.run]

theorem admitInit_locked (h : s.owner = some q) (i : Instr) : (admitInit i s).run = .next (s.wait i) := by
  simp [admitInit, h, Admission.run]

theorem admitTeardown_locked (h : s.owner = some q) (i : Instr) : (admitTeardown i s).run = .next (s.wait i) := by
  simp [admitTeardown, h, Admission.run]

end

/-- Settles O46: each of the four admissions that take the lock puts the request at the end of the port. -/
theorem lockedOperationsWait : Obligations.LockedOperationsWait := by
  intro s i q h
  cases i with
  | compose | physWord | wordIndex => trivial
  | init => exact admitInit_locked h _
  | teardown => exact admitTeardown_locked h _
  | cwAread | cwMread | cwProg | cwPwron | cwPwrdn | cwRefresh | cwUndefined | adrProg | adrRead | rdReg | wrReg
  | setBits => exact admitPrimitive_locked h _
  | _ => exact admitMapped_locked h _

/-! ### The window not mapped (R245) -/

section
variable {s : State}

theorem admitMapped_unmapped (ho : s.owner = none) (hm : s.mapped = false) (i : Instr) : (admitMapped i s).run =
    .next { s with ctl := .idle, responses := s.replied (.error .errResource .unmapped) } := by
  simp [admitMapped, ho, hm, Admission.run, State.raiseError, State.endOp, State.acquire, State.replied]

theorem admitPrimitive_unmapped (ho : s.owner = none) (hm : s.mapped = false) (i : Instr) :
    (admitPrimitive i s).run = .refused .primitiveUnmapped := by
  simp [admitPrimitive, ho, hm, Admission.run]

theorem admitTeardown_unmapped (ho : s.owner = none) (hm : s.mapped = false) (i : Instr) :
    (admitTeardown i s).run = .refused .notMapped := by
  simp [admitTeardown, ho, hm, Admission.run]

end

/-- Settles O45: each admission's answer while the window is not mapped. -/
theorem unmappedEndsWithoutAccess : Obligations.UnmappedEndsWithoutAccess := by
  intro s i ho hm
  cases i with
  | init | compose | physWord | wordIndex => trivial
  | teardown => exact admitTeardown_unmapped ho hm _
  | cwAread | cwMread | cwProg | cwPwron | cwPwrdn | cwRefresh | cwUndefined | adrProg | adrRead | rdReg | wrReg
  | setBits => exact admitPrimitive_unmapped ho hm _
  | _ => exact admitMapped_unmapped ho hm _

/-! ### Several requests at the port (D17) -/

/-- A choice among several requests takes the scheduler's draw and leaves every other answer. -/
theorem takeRequest_of_two_le {s : State} (h : 2 ≤ s.port.length) :
    ∃ i u, takeRequest s = some (i, u) ∧ u.oracle = s.oracle.nextSched.2 := by
  match hp : s.port with
  | [] | [_] => simp [hp] at h
  | (q, i) :: e :: rest =>
    rw [takeRequest, hp]
    exact ⟨_, _, rfl, rfl⟩

/-- Settles O48: the request the scheduler's draw chooses is run, taken out of the port (`takeRequest_some`). -/
theorem stepServesOneOfTheWaiting : Obligations.StepServesOneOfTheWaiting := by
  intro s hidle hport
  obtain ⟨i, u, htake, hsched⟩ := takeRequest_of_two_le hport
  have hstep : step s = exec i u := by
    unfold step
    rw [hidle, htake]
  obtain ⟨before, after, q, o, hsplit, rfl⟩ := takeRequest_some htake
  exact ⟨before, after, q, i, hsplit, hsched ▸ hstep⟩

end Sys2Proof.Machine

/-! # The fuse macro's command words: what each leaves, and POWER over a readback that is not clean -/

namespace Sys2Proof.Machine
open Sys2Proof Host

/-! ### A command word at top level (R86, R111) -/

/-- A primitive whose program is one write to MODE ends as the decoded command does. -/
theorem run_modeWord {s : State} (h : s.available) {i : Instr} {v : Word32} (hp : program s.cfg i = wrRegProg offMode v)
    (hv : ∀ t, returnValue t i = .unit) : (admitPrimitive i s).run = mapNext s.served (modeWrite v s) :=
  run_writeMode h (hp ▸ Yields.writeMode s.acquire v) (by decide) hv ⟨rfl, rfl, rfl⟩

theorem mapNext_eq_next {f : State → State} {o : Outcome State Fault Refusal} {t : State}
    (h : mapNext f o = .next t) : ∃ u, o = .next u ∧ t = f u := by
  cases o with
  | next u => cases h; exact ⟨u, rfl, rfl⟩
  | fault r => cases h
  | refused r => cases h

theorem modeWrite_modeLast {v : Word32} {s t : State} (h : modeWrite v s = .next t) : t.modeLast = some v := by
  rcases modeWrite_next h with rfl | ⟨on, rfl⟩ | rfl | ⟨a, -, -, rfl⟩ <;> rfl

/-! ### Power (R222, R223) -/

/-- The command word with no other bit set is CMD alone (R222). -/
theorem eq_mCmd_of_bits {c : Config} {v : Word32} (hc : c.wf = true) (hcmd : v &&& c.mCmd ≠ 0)
    (hdown : v &&& c.mPwrDn = 0) (hop : v &&& c.opMask = 0) (hrest : v &&& c.restMask = 0) : v = c.mCmd := by
  have hset : v &&& c.mCmd = c.mCmd := (and_isSingleBit (Config.masksApart hc).bitM v).resolve_left hcmd
  have hclean : cleanReadback c v = true := by
    simp [cleanReadback, BitVec.and_or_distrib_left, hop, hdown, hrest]
  calc v = v ||| c.mCmd := by rw [← hset]; grind
    _ = c.mCmd := cleanReadback_or hclean

/-- Settles O8: the word's own write (`run_modeWord`), its value (`eq_mCmd_of_bits`), and SET_BITS over a clean
readback, whatever the configuration makes of the word it writes. -/
theorem powerOnWordSetsPowered : Obligations.PowerOnWordSetsPowered := by
  refine ⟨fun s h hw => ?_, fun c v => eq_mCmd_of_bits, fun s mr o h ho hmr => ⟨cleanReadback_or hmr, fun t ht => ?_⟩⟩
  · exact (run_modeWord h rfl fun _ => rfl).trans (congrArg _ (modeWrite_pwron rfl hw))
  · rw [exec_setBits_mode h ho, cleanReadback_or hmr] at ht
    obtain ⟨u, hu, rfl⟩ := mapNext_eq_next ht
    have hlast : u.modeLast = some s.cfg.mCmd := modeWrite_modeLast hu
    have htrace : u.trace = s.trace ++ [.rd offMode mr, .wr offMode s.cfg.mCmd] := by
      simpa [readDone] using modeWrite_trace hu
    exact ⟨hlast, htrace⟩

/-- Settles O9: the word's own write, which the macro takes as power-down (`modeWrite_pwrdn`). -/
theorem powerDownWordClearsPowered : Obligations.PowerDownWordClearsPowered :=
  fun _ h hw => (run_modeWord h rfl fun _ => rfl).trans (congrArg _ (modeWrite_pwrdn rfl hw))

/-! ### The reads (R221, R228) -/

theorem readCommand_unpowered {s : State} (h : s.powered ≠ some true) : readCommand s = .fault .readUnpowered :=
  if_pos h

theorem readCommand_adrInvalid {s : State} (hp : s.powered = some true)
    (ha : s.adrLast = none ∨ ∃ a, s.adrLast = some a ∧ 128 ≤ a.toNat) : readCommand s = .fault .adrInvalid := by
  rcases ha with ha | ⟨a, ha, hle⟩
  · simp [readCommand, hp, ha]
  · have hword : isPhysWord a = false := decide_eq_false (Nat.not_lt.mpr hle)
    simp [readCommand, hp, ha, hword]

/-- Settles O10: both words run as the macro's read command (`modeWrite_aread`, `modeWrite_mread`), which checks the
power first, then the address. -/
theorem readWordsCheckPowerAndAddress : Obligations.ReadWordsCheckPowerAndAddress := by
  intro s h hw
  have harray : exec .cwAread s = mapNext s.served (readCommand (s.noteMode s.cfg.cwAread)) :=
    (run_modeWord h rfl fun _ => rfl).trans (congrArg _ (modeWrite_aread rfl hw))
  have hmargin : exec .cwMread s = mapNext s.served (readCommand (s.noteMode s.cfg.cwMread)) :=
    (run_modeWord h rfl fun _ => rfl).trans (congrArg _ (modeWrite_mread rfl hw))
  rw [harray, hmargin]
  refine ⟨fun a hp ha hlt => ?_, fun hp => ?_, fun hp ha => ?_⟩
  · have hread (v : Word32) : readCommand (s.noteMode v) = .next (s.noteMode v) :=
      readCommand_of_powered hp ha (isPhysWord_iff.mpr hlt)
    rw [hread, hread]
    exact ⟨rfl, rfl⟩
  · have hread (v : Word32) : readCommand (s.noteMode v) = .fault .readUnpowered := readCommand_unpowered hp
    rw [hread, hread]
    exact ⟨rfl, rfl⟩
  · have hread (v : Word32) : readCommand (s.noteMode v) = .fault .adrInvalid := readCommand_adrInvalid hp ha
    rw [hread, hread]
    exact ⟨rfl, rfl⟩

/-! ### The pulse (R224, R228) -/

theorem programCommand_adrInvalid {s : State} (ha : s.adrLast = none ∨ ∃ a, s.adrLast = some a ∧ 4096 ≤ a.toNat) :
    programCommand s = .fault .adrInvalid := by
  rcases ha with ha | ⟨a, ha, hle⟩
  · simp [programCommand, ha]
  · have hbit : isPhysBit a = false := decide_eq_false (Nat.not_lt.mpr hle)
    simp [programCommand, ha, hbit]

/-- Settles O11: the word's own write pulses at the address in ADR (`pulseAt`), which writes one cell with the higher
of its state and the draw. -/
theorem programWordPulsesOneCell : Obligations.ProgramWordPulsesOneCell := by
  intro s h hw hfuses
  have hexec : exec .cwProg s = mapNext s.served (programCommand (s.noteMode s.cfg.cwProg)) :=
    (run_modeWord h rfl fun _ => rfl).trans (congrArg _ (modeWrite_prog rfl hw))
  rw [hexec]
  refine ⟨fun a ha hlt => ?_, fun ha => ?_⟩
  · rw [programCommand_of_adr (s := s.noteMode s.cfg.cwProg) ha (decide_eq_true hlt)]
    refine ⟨_, rfl, fun x hx => Memory.read_write_other hfuses hx _, ?_, rfl⟩
    exact (cellRank_le_cellMax_left _ _).trans_eq (congrArg cellRank (Memory.read_write_same hfuses _ _).symm)
  · rw [programCommand_adrInvalid (s := s.noteMode s.cfg.cwProg) ha]
    rfl

/-! ### A word outside the map (R88, R227) -/

/-- Settles O13: the decoder finds no command (`decodeCommand_undefined`), after the write has set `modeLast`. -/
theorem undefinedWordFaults : Obligations.UndefinedWordFaults := by
  intro s v h hw hv
  have hwrite : modeWrite v s = .fault (.macroUndefined v (some v)) := by
    simp [modeWrite, applyCommand, decodeCommand_undefined hw hv]
  exact (run_modeWord h rfl fun _ => rfl).trans (congrArg _ hwrite)

/-! ### POWER over a readback that is not clean (R283, R289) -/

/-- POWER(true) ends as the command does that the readback makes of its word. -/
theorem exec_powerOn {s : State} (h : s.available) {mr : Word32} {o : Oracle} (ho : s.oracle.nextMode = (mr, o)) :
    exec (.power true) s = mapNext s.served (modeWrite (mr ||| s.cfg.mCmd) (readDone s offMode mr o)) := by
  have hset := Yields.setBits (s := s.acquire) ho s.cfg.mCmd
  have hcall : Yields 6 (powerProg s.cfg true) s.acquire
      (modeWrite (mr ||| s.cfg.mCmd) (readDone s offMode mr o).acquire) :=
    Yields.framed (i := .setBits offMode s.cfg.mCmd) (fun op phase callers => by simp [runPrim, program])
      (program_head s.cfg (.setBits offMode s.cfg.mCmd)) hset
  have hrun := run_writeMode (i := .power true) h hcall (by decide) (fun _ => rfl) ⟨rfl, rfl, rfl⟩
  exact (admitMapped_available h _).trans ((admitPrimitive_available h _).symm.trans hrun)

/-- Settles O24: over PWR_DN the word POWER(true) writes is the power-down word, over PRG the program word. -/
theorem powerOnHazards : Obligations.PowerOnHazards := by
  intro s o h hw
  refine ⟨fun ho => ?_, fun a ho ha hlt => ?_⟩
  · have hdown := modeWrite_pwrdn (s := readDone s offMode s.cfg.mPwrDn o) rfl hw
    rw [exec_powerOn h ho]
    exact (congrArg (mapNext s.served) hdown).trans (by rw [readDone_noteMode]; rfl)
  · have hprog := (modeWrite_prog (s := readDone s offMode s.cfg.mPrg o) rfl hw).trans
      (programCommand_of_adr (a := a) ha (decide_eq_true hlt))
    rw [readDone_noteMode] at hprog
    rw [exec_powerOn h ho]
    exact ⟨_, congrArg (mapNext s.served) hprog, rfl, rfl, rfl, rfl⟩

end Sys2Proof.Machine

/-! # What a read shows of the cells under FuseCellModel (OA4) -/

namespace Sys2Proof.Machine
open Sys2Proof Host

/-- A margin read answers 1 exactly at a Blown cell (R232). -/
theorem cellReads_margin_iff {c : CellState} {bit : Bool} (h : cellReads .margin c bit = true) :
    bit = true ↔ c = .blown := by
  cases c <;> simpa [cellReads] using h

/-- An array read answers 1 at a Blown cell and 0 at a Blank one (R232). -/
theorem cellReads_array {c : CellState} {bit : Bool} (h : cellReads .array c bit = true) :
    (c = .blown → bit = true) ∧ (c = .blank → bit = false) := by
  constructor <;> rintro rfl <;> simpa [cellReads] using h

/-- The tick at the RD_DATA read takes the next answer of RD_DATA and leaves the cells (R150). -/
theorem tick_readsData {s t : State} {kind : ReadKind} (hd : s.readsData kind) (h : tick s = .next t) :
    t.work.ret = s.oracle.nextRdData.1 ∧ t.fuses = s.fuses := by
  obtain ⟨hprim, -, -⟩ := hd
  unfold State.nextPrim at hprim
  split at hprim
  case h_1 op p phase callers hc =>
    cases hprim
    rw [tick_of_run (by simp [State.isIdle, hc]), seqStep_cons hc] at h
    simp only [runPrim, regRead_rdData] at h
    cases h
    exact ⟨rfl, rfl⟩
  case h_2 => cases hprim

/-- Settles O35: the word read is the answer OA4 speaks of (`tick_readsData`), bit by bit. -/
theorem readsShowTheCells : Obligations.ReadsShowTheCells := by
  intro run s t kind a hoa hs hd ha ht
  obtain ⟨hret, hcells⟩ := tick_readsData hd ht
  have hfits (b : Nat) (hb : b < 32) :
      cellReads kind (t.fuses.read (b * 128 + a.toNat)) (t.work.ret.getLsbD b) = true := by
    rw [hret, hcells]
    exact hoa s hs kind hd a ha b hb
  refine ⟨fun b hb => ⟨?_, ?_, ?_⟩, ?_⟩
  · rintro rfl
    exact cellReads_margin_iff (hfits b hb)
  · rintro rfl
    exact (cellReads_array (hfits b hb)).1
  · rintro rfl
    exact (cellReads_array (hfits b hb)).2
  · rintro value rfl hvalue b hb hbit
    refine (cellReads_margin_iff (hfits b hb)).mp ?_
    have hread : (value &&& t.work.ret).getLsbD b = true := hvalue.symm ▸ hbit
    exact (Bool.and_eq_true_iff.mp ((BitVec.getLsbD_and ..) ▸ hread)).2

end Sys2Proof.Machine

/-! # The host requests: their checks in order, and what the reads answer -/

namespace Sys2Proof.Machine
open Sys2Proof Host

/-! ### A request that ends in an error (R200, R254) -/

/-- An operation begun on an available machine that ends in an error. -/
theorem run_of_error {s t : State} (h : s.available) {i : Instr} {k : Nat} {kind : ErrorKind} {why : Reason}
    (hs : Stops k (program s.cfg i) s.acquire (.next (t.acquire.raiseError kind why))) (hk : k ≤ opSteps)
    (ht : SameLock s t) : (admitMapped i s).run =
      .next { t with ctl := .idle, responses := s.replied (.error kind why) } :=
  (admitMapped_available h i).trans (hs.replied h.1 hk i ht)

/-- The pseudocode's `raise` (R13). -/
theorem Stops.raise (s : State) (kind : ErrorKind) (why : Reason) (rest : List Prim) :
    Stops 1 (.raise kind why :: rest) s (.next (s.raiseError kind why)) :=
  Stops.single (fun _ => rfl) (rests_of_raise _ _ _) rest

/-- Settles O42: the request is one `raise`. -/
theorem ctrlOtherIsUnsupported : Obligations.CtrlOtherIsUnsupported :=
  fun s _ h => run_of_error h (Stops.raise s.acquire _ _ []) (by decide) ⟨rfl, rfl, rfl⟩

/-! ### The checks (R202, R207, R208) -/

section
variable {s : State}

theorem Runs.copyIn {o : Oracle} (ho : s.oracle.nextCopyIn = (true, o)) : Runs 1 [.copyIn] s (s.setOracle o) :=
  Runs.single fun c => by simp [runPrim, copyInStep_setCtl s c ho]

theorem Stops.copyIn {o : Oracle} (ho : s.oracle.nextCopyIn = (false, o)) (rest : List Prim) :
    Stops 1 (.copyIn :: rest) s (.next ((s.setOracle o).raiseError .errFault .userCopy)) :=
  Stops.single (fun c => by simp [runPrim, copyInStep_setCtl s c ho]) (rests_of_raise _ _ _) rest

theorem Runs.copyOut {o : Oracle} (ho : s.oracle.nextCopyOut = (true, o)) : Runs 1 [.copyOut] s (s.setOracle o) :=
  Runs.single fun c => by simp [runPrim, copyOutStep_setCtl s c ho]

theorem Stops.copyOut {o : Oracle} (ho : s.oracle.nextCopyOut = (false, o)) (rest : List Prim) :
    Stops 1 (.copyOut :: rest) s (.next ((s.setOracle o).raiseError .errFault .userCopy)) :=
  Stops.single (fun c => by simp [runPrim, copyOutStep_setCtl s c ho]) (rests_of_raise _ _ _) rest

theorem Runs.writeGuard (h : s.cfg.programmingEnabled = true) : Runs 1 [.writeGuard] s s :=
  Runs.single fun c => by simp [runPrim, writeGuardStep_setCtl, h]

theorem Stops.writeGuard (h : s.cfg.programmingEnabled = false) (rest : List Prim) :
    Stops 1 (.writeGuard :: rest) s (.next (s.raiseError s.cfg.disabledWriteError .programmingDisabled)) :=
  Stops.single (fun c => by simp [runPrim, writeGuardStep_setCtl, h]) (rests_of_raise _ _ _) rest

variable {addr : Word32}

theorem Stops.addrRange (h : 256 ≤ addr.toNat) (rest : List Prim) :
    Stops 1 (.checkAddr addr :: rest) s (.next (s.raiseError .errFault .addrRange)) := by
  have hr : ¬addrInRange addr = true := fun hin => absurd (addrInRange_iff.mp hin) (by omega)
  exact Stops.single (fun c => by simp [runPrim, checkAddr_setCtl, hr]) (rests_of_raise _ _ _) rest

theorem Stops.addrAlign (h : addr.toNat < 256) (ha : addr.toNat % 4 ≠ 0) (rest : List Prim) :
    Stops 1 (.checkAddr addr :: rest) s (.next (s.raiseError .errFault .addrAlign)) := by
  have hr : addrInRange addr = true := addrInRange_iff.mpr h
  have hal : ¬addrAligned addr = true := mt addrAligned_iff.mp ha
  exact Stops.single (fun c => by simp [runPrim, checkAddr_setCtl, hr, hal]) (rests_of_raise _ _ _) rest

end

/-! ### The host writes (R202, R204, R99) -/

/-- The checks a host write fails first, in their order, with the error each gives (R202, R252). -/
def WriteFails (s : State) (addr : Word32) (r : OpResult) : Prop :=
  r = .error .errFault .userCopy ∧ s.oracle.nextCopyIn.1 = false ∨
    s.oracle.nextCopyIn.1 = true ∧
      (r = .error s.cfg.disabledWriteError .programmingDisabled ∧ s.cfg.programmingEnabled = false ∨
        s.cfg.programmingEnabled = true ∧
          (r = .error .errFault .addrRange ∧ 256 ≤ addr.toNat ∨
            r = .error .errFault .addrAlign ∧ addr.toNat < 256 ∧ addr.toNat % 4 ≠ 0))

/-- A host write stops at the check it fails, copy-in having been drawn (R202). -/
theorem Stops.hostWrite {s : State} {addr value : Word32} {r : OpResult} (hf : WriteFails s addr r) :
    ∃ k kind why, r = .error kind why ∧ k ≤ 3 ∧
      Stops k (ctrlWriteProg addr value) s (.next ((s.setOracle s.oracle.nextCopyIn.2).raiseError kind why)) := by
  rcases hf with ⟨rfl, hcopy⟩ | ⟨hcopy, hf⟩
  · exact ⟨1, _, _, rfl, by omega, Stops.copyIn (Prod.ext hcopy rfl) _⟩
  have hin := Runs.copyIn (s := s) (o := s.oracle.nextCopyIn.2) (Prod.ext hcopy rfl)
  rcases hf with ⟨rfl, hguard⟩ | ⟨hguard, hf⟩
  · exact ⟨2, _, _, rfl, by omega,
      hin.stops (Stops.writeGuard (s := s.setOracle s.oracle.nextCopyIn.2) hguard _) (by simp)⟩
  have hpast := hin.append (Runs.writeGuard (s := s.setOracle s.oracle.nextCopyIn.2) hguard) (by simp)
  have hcheck {why : Reason} (h : ∀ rest, Stops 1 (.checkAddr addr :: rest) (s.setOracle s.oracle.nextCopyIn.2)
      (.next ((s.setOracle s.oracle.nextCopyIn.2).raiseError .errFault why))) :=
    hpast.stops (h [.call (.writeWord (wordIndexOf addr) value)]) (by simp)
  rcases hf with ⟨rfl, hr⟩ | ⟨rfl, hr, ha⟩
  · exact ⟨3, _, _, rfl, le_rfl, hcheck (Stops.addrRange hr)⟩
  · exact ⟨3, _, _, rfl, le_rfl, hcheck (Stops.addrAlign hr ha)⟩

theorem streamWriteProg_of_length_ne {bytes : List Byte} (h : bytes.length ≠ 8) :
    streamWriteProg bytes = [.raise .errFault .sizeMismatch] := if_pos h

theorem streamWriteProg_payloadBytes (addr value : Word32) :
    streamWriteProg (payloadBytes addr value) = ctrlWriteProg addr value := by
  simp [streamWriteProg, streamWriteLen, payloadAddr_payloadBytes, payloadValue_payloadBytes]

/-- A request whose pseudocode is that of a host write ends at the check it fails. -/
theorem run_hostWrite {s : State} (h : s.available) {i : Instr} {addr value : Word32} {r : OpResult}
    (hp : program s.cfg i = ctrlWriteProg addr value) (hf : WriteFails s addr r) :
    (admitMapped i s).run = .next { s with
      oracle := s.oracle.nextCopyIn.2
      ctl := .idle
      responses := s.replied r } := by
  obtain ⟨k, kind, why, rfl, hk, hstop⟩ := Stops.hostWrite (s := s.acquire) (value := value) hf
  exact run_of_error (t := s.setOracle s.oracle.nextCopyIn.2) h (hp ▸ hstop) (hk.trans (by decide)) ⟨rfl, rfl, rfl⟩

/-- Settles O43: the length is checked before the pseudocode of a host write begins, and that stops at the first check
it fails (`Stops.hostWrite`). -/
theorem hostWritesCheckBeforeAccess : Obligations.HostWritesCheckBeforeAccess := by
  refine ⟨fun s bytes h hlen => ?_, fun s i addr value h hi r hf => ?_⟩
  · have hstop := Stops.raise s.acquire .errFault .sizeMismatch []
    exact run_of_error h (i := .hStreamWrite bytes) ((streamWriteProg_of_length_ne hlen).symm ▸ hstop) (by decide)
      ⟨rfl, rfl, rfl⟩
  · have hstream := streamWriteProg_payloadBytes addr value
    rcases hi with rfl | rfl | rfl | rfl
    · exact run_hostWrite h rfl hf
    · exact run_hostWrite h hstream hf
    · exact run_hostWrite h hstream hf
    · exact run_hostWrite h hstream hf

/-! ### H_CTRL_READ (R201, R208) -/

/-- A request that ends with its copy-out answers its value, or ErrFault (R201, R205). -/
theorem run_of_copyOut {s t : State} (h : s.available) {i : Instr} {k : Nat} {ps : List Prim} {co : Bool} {o : Oracle}
    {v : Value} (hp : program s.cfg i = ps ++ [.copyOut]) (hr : Runs k ps s.acquire t.acquire)
    (ho : t.oracle.nextCopyOut = (co, o)) (hv : returnValue (t.setOracle o).acquire i = v) (hk : k + 1 < opSteps)
    (ht : SameLock s t) : (admitMapped i s).run = .next { t with
      oracle := o
      ctl := .idle
      responses := s.replied (if co then .ok v else .error .errFault .userCopy) } := by
  have hend : SameLock s (t.setOracle o) := ht.trans ⟨rfl, rfl, rfl⟩
  cases co with
  | true =>
    have hrun := hr.append (Runs.copyOut (s := t.acquire) ho) (by simp)
    rw [admitMapped_available h, hp, hrun.replied (t := t.setOracle o) h.1 (by omega) hend, hv]
    rfl
  | false =>
    have hstop := hr.stops (Stops.copyOut (s := t.acquire) ho []) (by simp)
    exact run_of_error (t := t.setOracle o) h (hp ▸ hstop) (by omega) hend

/-- With the gate off before it, a READ_SHADOW leaves the gate as it was (R185). -/
theorem shadowRead_of_clockOff {s : State} (hc : s.clockOn = false) (o : Oracle) (k : Nat) : shadowRead s o k = { s with
    oracle := o
    work := { s.work with ret := shadowWord s k }
    trace := s.trace ++ shadowReadEvents s k } := by
  rw [shadowRead, ← hc]

theorem State.setClock_of_eq {s : State} {on : Bool} (h : s.clockOn = on) : s.setClock on = s := by
  subst h
  rfl

/-- H_CTRL_READ past its copy-in ends as READ_SHADOW does that ends in an error (R201). -/
theorem run_ctrlRead_of_error {s t : State} (h : s.available) {addr : Word32} {o : Oracle} {k : Nat} {kind : ErrorKind}
    {why : Reason} (hin : s.oracle.nextCopyIn = (true, o))
    (hs : Stops k (readShadowProg addr) (s.acquire.setOracle o) (.next (t.acquire.raiseError kind why))) (hk : k ≤ 3)
    (ht : SameLock s t) : exec (.hCtrlRead addr) s =
      .next { t with ctl := .idle, responses := s.replied (.error kind why) } := by
  have hcall := Stops.call (i := .readShadow addr) hs [.copyOut]
  exact run_of_error h ((Runs.copyIn (s := s.acquire) hin).stops hcall (by simp)) (by unfold opSteps; omega) ht

/-- Settles O41: the copy-in, READ_SHADOW with its checks and its clock (`Stops.readShadow`, `Runs.readShadow`), then
the copy-out. -/
theorem ctrlReadReturnsTheWord : Obligations.CtrlReadReturnsTheWord := by
  intro s addr o1 o2 o3 ci ck co h hc h1 h2 h3
  refine ⟨?_, ?_, ?_, ?_, ?_⟩
  · rintro rfl
    exact run_of_error (t := s.setOracle o1) h (i := .hCtrlRead addr) (Stops.copyIn (s := s.acquire) h1 _) (by decide)
      ⟨rfl, rfl, rfl⟩
  · rintro rfl hr
    exact run_ctrlRead_of_error (t := s.setOracle o1) h h1 (Stops.addrRange hr _) (by decide) ⟨rfl, rfl, rfl⟩
  · rintro rfl hr ha
    exact run_ctrlRead_of_error (t := s.setOracle o1) h h1 (Stops.addrAlign hr ha _) (by decide) ⟨rfl, rfl, rfl⟩
  · rintro rfl hr ha rfl
    have hstop := Stops.readShadow (s := s.acquire.setOracle o1) (addrInRange_iff.mpr hr) (addrAligned_iff.mpr ha) h2
    rw [State.setClock_of_eq (s := ((s.acquire.setOracle o1).setOracle o2).emit (.clkOn false)) hc] at hstop
    exact run_ctrlRead_of_error (t := ((s.setOracle o1).setOracle o2).emit (.clkOn false)) h h1 hstop (by decide)
      ⟨rfl, rfl, rfl⟩
  · rintro rfl hr ha rfl
    have hread := Runs.readShadow (s := s.acquire.setOracle o1) (addrInRange_iff.mpr hr) (addrAligned_iff.mpr ha) h2
    have hpast := (Runs.copyIn (s := s.acquire) h1).append (Runs.call (i := .readShadow addr) hread) (by simp)
    have hrun := run_of_copyOut (t := shadowRead (s.setOracle o1) o2 (addr.toNat / 4)) (i := .hCtrlRead addr) h rfl
      hpast h3 rfl (by decide) ⟨rfl, rfl, rfl⟩
    rw [shadowRead_of_clockOff (s := s.setOracle o1) hc] at hrun
    exact hrun

/-! ### H_STREAM_READ (R205, R206) -/

/-- Past the end of the space, or for no bytes, nothing is read (R205). -/
theorem streamReadProg_empty {off n : Nat} (h : 256 ≤ off ∨ n = 0) : streamReadProg off n = [.bufInit 0] := if_pos h

theorem streamReadProg_of_lt {off n k : Nat} (hoff : off < 256) (hn : 0 < n) (hk : k = min n (256 - off)) :
    streamReadProg off n = [.call (.readBuf (off + k)), .bufSlice off k, .copyOut] := by
  subst hk
  exact if_neg (by unfold vsize; omega)

/-- A READ_BUF of `m` bytes of the space, called with the gate off and the clock available at every word (R183). -/
theorem Runs.callReadBuf {s : State} {m : Nat} (hm : m ≤ 256) (hc : s.clockOn = false)
    (hcl : ∀ b ∈ (drawMany Oracle.nextClock ((m + 3) / 4) s.oracle).1, b = true) :
    Runs (11 * ((m + 3) / 4) + 4) [.call (.readBuf m)] s (bufRead s m 0 ((m + 3) / 4)) := by
  have hmin : min m 256 = m := Nat.min_eq_left hm
  have hrun := Runs.readBuf (s := s) (n := m) hc (by rwa [hmin])
  rw [hmin] at hrun
  exact (Runs.call (i := .readBuf m) hrun).congr (by omega) rfl rfl

/-- The slice of the buffer that the stream read answers (R205). -/
theorem slice_bufAt (s : State) (off k : Nat) {a : Nat} (h : off + k ≤ a) :
    ((bufAt s a (off + k)).drop off).take k = (List.range k).map fun x => virtualByte s (off + x) := by
  have hlen : off = ((List.range off).map (virtualByte s)).length := by simp
  have htake : k = ((List.range k).map fun x => virtualByte s (off + x)).length := by simp
  rw [bufAt_eq_of_le s h, List.range_add, List.map_append, List.map_map, List.drop_left' hlen.symm]
  exact List.take_of_length_le htake.ge

theorem Runs.bufSlice (s : State) (off k : Nat) :
    Runs 1 [.bufSlice off k] s (s.setWork { s.work with buf := (s.work.buf.drop off).take k }) :=
  Runs.single fun _ => rfl

/-- What a stream read that reads `words` words has left before its copy-out (R205). -/
def streamRead (s : State) (off k words : Nat) : State := { s with
  oracle := (drawMany Oracle.nextClock words s.oracle).2
  work := { s.work with
    ret := shadowWord s (words - 1)
    buf := (List.range k).map fun x => virtualByte s (off + x) }
  trace := s.trace ++ (List.range words).flatMap (shadowReadEvents s) }

/-- A stream read of `k` bytes up to its copy-out, the clock available at every word (R205, R206). -/
theorem Runs.streamRead {s : State} {off k : Nat} (hk : 0 < k) (hend : off + k ≤ 256) (hc : s.clockOn = false)
    (hcl : ∀ b ∈ (drawMany Oracle.nextClock ((off + k + 3) / 4) s.oracle).1, b = true) :
    Runs (11 * ((off + k + 3) / 4) + 5) [.call (.readBuf (off + k)), .bufSlice off k] s
      (Machine.streamRead s off k ((off + k + 3) / 4)) := by
  have hbuf := Runs.callReadBuf hend hc hcl
  rw [bufRead_zero_eq, if_neg (by omega)] at hbuf
  refine (hbuf.append (Runs.bufSlice _ off k) (by simp)).congr (by omega) rfl ?_
  rw [Machine.streamRead, ← slice_bufAt s off k (a := 4 * ((off + k + 3) / 4)) (by omega)]
  rfl

/-- Settles O44: no access past the end; else READ_BUF, its slice and the copy-out (`Runs.streamRead`), or READ_BUF's
stop at the word at which the clock fails (`Stops.readBuf`). -/
theorem streamReadReturnsTheSlice : Obligations.StreamReadReturnsTheSlice := by
  rintro s off n k words h hc hk rfl
  refine ⟨fun hnone => ?_, fun co o hoff hn hcl ho => ?_, fun w hoff hn hw hcl hf => ?_⟩
  · have hinit : Runs 1 [.bufInit 0] s.acquire (s.acquire.setWork { s.work with buf := [] }) :=
      Runs.single fun _ => rfl
    have hrun := hinit.replied (i := .hStreamRead off n) (t := s.setWork { s.work with buf := [] }) h.1 (by decide)
      ⟨rfl, rfl, rfl⟩
    rw [← streamReadProg_empty hnone] at hrun
    exact (admitMapped_available h _).trans hrun
  · have hread := Runs.streamRead (s := s.acquire) (off := off) (k := k) (by omega) (by omega) hc hcl
    exact run_of_copyOut (t := streamRead s off k ((off + k + 3) / 4)) (i := .hStreamRead off n)
      (ps := [.call (.readBuf (off + k)), .bufSlice off k]) h (streamReadProg_of_lt hoff hn hk) hread ho rfl
      (by unfold opSteps; omega) ⟨rfl, rfl, rfl⟩
  · have hmin : min (off + k) 256 = off + k := by omega
    have hstop := Stops.readBuf (s := s.acquire) (n := off + k) (by rwa [hmin]) hc hcl hf
    rw [hmin, bufRead_zero_eq] at hstop
    have hcall := Stops.call (i := .readBuf (off + k)) hstop [.bufSlice off k, .copyOut]
    have hprog : program s.cfg (.hStreamRead off n) = _ := streamReadProg_of_lt hoff hn hk
    exact run_of_error (i := .hStreamRead off n) (t := { s with
      oracle := (drawMany Oracle.nextClock w s.oracle).2.nextClock.2
      work := { s.work with
        ret := if w = 0 then s.work.ret else shadowWord s (w - 1)
        buf := bufAt s (4 * w) (off + k) }
      trace := s.trace ++ (List.range w).flatMap (shadowReadEvents s) ++ [.clkOn false] }) h (hprog ▸ hcall)
      (by unfold opSteps; omega) ⟨rfl, rfl, rfl⟩

end Sys2Proof.Machine

/-! # Programming disabled: no host request writes a register or pulses a cell -/

namespace Sys2Proof.Machine
open Sys2Proof Host

/-! ### What stays while no register is written (R111, R224) -/

/-- What only a write to MODE or ADR may change. -/
def State.written (s : State) :=
  (s.pulseLog, s.attemptLog, s.fuses, s.shadow, s.modeLast, s.adrLast, s.powered)

/-- An event that is no write. -/
def isNoWrite : BusEvent → Prop
  | .wr _ _ => False
  | _ => True

/-- `t` is `s` as far as writes to MODE and ADR may change it, and adds no write to the trace. -/
structure WritesNothing (s t : State) : Prop where
  written : t.written = s.written
  trace : ∃ added : List BusEvent, t.trace = s.trace ++ added ∧ ∀ e ∈ added, isNoWrite e

theorem WritesNothing.of_same {s t : State} (hw : t.written = s.written) (ht : t.trace = s.trace) :
    WritesNothing s t := ⟨hw, [], by simp [ht], by simp⟩

theorem WritesNothing.of_event {s t : State} {e : BusEvent} (hw : t.written = s.written) (ht : t.trace = s.trace ++ [e])
    (he : isNoWrite e) : WritesNothing s t := ⟨hw, [e], ht, by simpa using he⟩

theorem WritesNothing.trans {s t u : State} (h1 : WritesNothing s t) (h2 : WritesNothing t u) : WritesNothing s u := by
  obtain ⟨es, he, hes⟩ := h1.trace
  obtain ⟨fs, hf, hfs⟩ := h2.trace
  exact ⟨h2.written.trans h1.written, es ++ fs, by rw [hf, he, List.append_assoc],
    List.forall_mem_append.mpr ⟨hes, hfs⟩⟩

/-! ### The primitives of the host requests up to the write guard (R201 to R207) -/

/-- A primitive of the host's reads and checks, and of the shadow reader they call. -/
inductive QuietPrim : Prim → Prop where
  | regRead (off : Word32) : QuietPrim (.regRead off)
  | clockEnable : QuietPrim .clockEnable
  | clockDisable : QuietPrim .clockDisable
  | callRdReg (off : Word32) : QuietPrim (.call (.rdReg off))
  | callReadShadow (addr : Word32) : QuietPrim (.call (.readShadow addr))
  | callReadBuf (n : Nat) : QuietPrim (.call (.readBuf n))
  | raise (kind : ErrorKind) (why : Reason) : QuietPrim (.raise kind why)
  | checkAddr (addr : Word32) : QuietPrim (.checkAddr addr)
  | checkClock : QuietPrim .checkClock
  | copyIn : QuietPrim .copyIn
  | copyOut : QuietPrim .copyOut
  | bufInit (k : Nat) : QuietPrim (.bufInit k)
  | bufLoop (a k : Nat) : QuietPrim (.bufLoop a k)
  | bufStore (a k : Nat) : QuietPrim (.bufStore a k)
  | bufSlice (off k : Nat) : QuietPrim (.bufSlice off k)

/-- Quiet primitives, up to the write guard where one stands: a disabled guard lets nothing after it run (R207). -/
inductive QuietPhase : List Prim → Prop where
  | nil : QuietPhase []
  | guard (ps : List Prim) : QuietPhase (.writeGuard :: ps)
  | cons {p : Prim} {ps : List Prim} (hp : QuietPrim p) (hps : QuietPhase ps) : QuietPhase (p :: ps)

theorem QuietPhase.append {ps qs : List Prim} (hp : QuietPhase ps) (hq : QuietPhase qs) : QuietPhase (ps ++ qs) := by
  induction hp with
  | nil => exact hq
  | guard ps => exact .guard _
  | cons hp _ ih => exact .cons hp ih

theorem quietPhase_rdRegProg (off : Word32) : QuietPhase (rdRegProg off) := .cons (.regRead off) .nil

theorem quietPhase_readShadowProg (addr : Word32) : QuietPhase (readShadowProg addr) :=
  .cons (.checkAddr addr) (.cons .clockEnable (.cons .checkClock (.cons (.callRdReg _) (.cons .clockDisable .nil))))

theorem quietPhase_readBufProg (n : Nat) : QuietPhase (readBufProg n) := .cons (.bufInit _) (.cons (.bufLoop _ _) .nil)

theorem quietPhase_bufLoopProg (a k : Nat) : QuietPhase (bufLoopProg a k) := by
  unfold bufLoopProg
  split
  case isTrue => exact .cons (.callReadShadow _) (.cons (.bufStore a k) (.cons (.bufLoop _ k) .nil))
  case isFalse => exact .nil

theorem quietPhase_ctrlReadProg (addr : Word32) : QuietPhase (ctrlReadProg addr) :=
  .cons .copyIn (.cons (.callReadShadow addr) (.cons .copyOut .nil))

theorem quietPhase_ctrlWriteProg (addr value : Word32) : QuietPhase (ctrlWriteProg addr value) :=
  .cons .copyIn (.guard _)

theorem quietPhase_streamWriteProg (bytes : List Byte) : QuietPhase (streamWriteProg bytes) := by
  unfold streamWriteProg
  split
  case isTrue => exact .cons (.raise _ _) .nil
  case isFalse => exact quietPhase_ctrlWriteProg _ _

theorem quietPhase_streamReadProg (off n : Nat) : QuietPhase (streamReadProg off n) := by
  unfold streamReadProg
  split
  case isTrue => exact .cons (.bufInit 0) .nil
  case isFalse => exact .cons (.callReadBuf _) (.cons (.bufSlice _ _) (.cons .copyOut .nil))

/-! ### A quiet phase stays quiet, and writes nothing (R23, R207) -/

/-- How a quiet primitive goes on: it writes nothing, and what it puts before the rest is quiet. -/
structure StaysQuiet (s t : State) : Prop where
  writes : WritesNothing s t
  goes : t.ctl = .idle ∨ ∃ qs, t.remaining = qs ++ s.remaining ∧ QuietPhase qs

theorem StaysQuiet.of_writes {s t : State} (h : WritesNothing s t) (hc : t.ctl = s.ctl) : StaysQuiet s t :=
  ⟨h, .inr ⟨[], by simp [State.remaining, hc], .nil⟩⟩

theorem StaysQuiet.of_same {s t : State} (hw : t.written = s.written) (ht : t.trace = s.trace) (hc : t.ctl = s.ctl) :
    StaysQuiet s t := .of_writes (.of_same hw ht) hc

theorem StaysQuiet.of_end {s t : State} (hw : t.written = s.written) (ht : t.trace = s.trace) (hc : t.ctl = .idle) :
    StaysQuiet s t := ⟨.of_same hw ht, .inl hc⟩

/-- A test of the pseudocode lets the operation go on, or ends it with an error. -/
theorem StaysQuiet.of_ite {q : Prop} [Decidable q] {s t u : State} (ht : StaysQuiet s t) (hu : StaysQuiet s u) :
    StaysQuiet s (if q then t else u) := by
  split
  · exact ht
  · exact hu

section
variable {s : State} {op : Instr} {phase : List Prim} {callers : List Frame}

theorem StaysQuiet.of_push (hc : s.ctl = .run op phase callers) {qs : List Prim} (hq : QuietPhase qs) :
    StaysQuiet s (s.push qs) :=
  ⟨.of_same (by simp [State.written]) (by simp), .inr ⟨qs, by simp [State.push, State.remaining, hc], hq⟩⟩

theorem StaysQuiet.of_enter (hc : s.ctl = .run op phase callers) (i : Instr) {ps : List Prim} (hp : QuietPhase ps) :
    StaysQuiet s (s.enter i ps) :=
  ⟨.of_same (by simp [State.written]) (by simp), .inr ⟨ps, by simp [State.enter, State.remaining, hc], hp⟩⟩

theorem runPrim_staysQuiet {p : Prim} {t : State} (hc : s.ctl = .run op phase callers) (hp : QuietPrim p)
    (h : runPrim p s = .next t) : StaysQuiet s t := by
  cases hp with
  | regRead off =>
    simp only [runPrim, regRead] at h
    split at h
    case isTrue => cases h; exact .of_writes (.of_event (e := .rd off _) rfl rfl trivial) rfl
    case isFalse => cases h
  | clockEnable => cases h; exact .of_writes (.of_event (e := .clkOn _) rfl rfl trivial) rfl
  | clockDisable => cases h; exact .of_writes (.of_event (e := .clkOff) rfl rfl trivial) rfl
  | callRdReg off => cases h; exact .of_enter hc _ (quietPhase_rdRegProg off)
  | callReadShadow addr => cases h; exact .of_enter hc _ (quietPhase_readShadowProg addr)
  | callReadBuf n => cases h; exact .of_enter hc _ (quietPhase_readBufProg n)
  | raise kind why => cases h; exact .of_end rfl rfl rfl
  | checkAddr addr =>
    cases h
    exact .of_ite (.of_ite (.of_same rfl rfl rfl) (.of_end rfl rfl rfl)) (.of_end rfl rfl rfl)
  | checkClock => cases h; exact .of_ite (.of_same rfl rfl rfl) (.of_end rfl rfl rfl)
  | copyIn => cases h; exact .of_ite (.of_same rfl rfl rfl) (.of_end rfl rfl rfl)
  | copyOut => cases h; exact .of_ite (.of_same rfl rfl rfl) (.of_end rfl rfl rfl)
  | bufInit k => cases h; exact .of_same rfl rfl rfl
  | bufLoop a k => cases h; exact .of_push hc (quietPhase_bufLoopProg a k)
  | bufStore a k => cases h; exact .of_same rfl rfl rfl
  | bufSlice off k => cases h; exact .of_same rfl rfl rfl

end

/-- With programming disabled, a state whose rest is quiet. -/
def State.quiet (s : State) : Prop := s.cfg.programmingEnabled = false ∧ QuietPhase s.remaining

theorem State.quiet_of_idle {s : State} (hd : s.cfg.programmingEnabled = false) (hc : s.ctl = .idle) : s.quiet := by
  refine ⟨hd, ?_⟩
  rw [State.remaining, hc]
  exact .nil

theorem seqStep_quiet {s t : State} (hs : s.quiet) (h : seqStep s = .next t) : t.quiet ∧ WritesNothing s t := by
  obtain ⟨hd, hq⟩ := hs
  have hd' : t.cfg.programmingEnabled = false := by
    obtain ⟨c, he⟩ := seqStep_effect h
    rw [he.fixed.cfg, State.setCtl_cfg, hd]
  cases seqStep_next h with
  | idle hc e => subst e; exact ⟨⟨hd, hq⟩, .of_same rfl rfl⟩
  | returns op f callers hc e =>
    subst e
    refine ⟨⟨hd', ?_⟩, .of_same rfl rfl⟩
    simpa [State.remaining, hc] using hq
  | ends op hc e => subst e; exact ⟨State.quiet_of_idle hd' rfl, .of_same rfl rfl⟩
  | prim op p phase callers hc e =>
    simp only [State.remaining, hc, List.cons_append] at hq
    cases hq with
    | guard =>
      have hend : runPrim .writeGuard (s.setCtl (.run op phase callers)) =
          .next (s.raiseError s.cfg.disabledWriteError .programmingDisabled) := by
        simp [runPrim, writeGuardStep_setCtl, hd]
      rw [hend] at e
      cases e
      exact ⟨State.quiet_of_idle hd' rfl, .of_same rfl rfl⟩
    | cons hp hps =>
      obtain ⟨hw, hgo⟩ := runPrim_staysQuiet rfl hp e
      refine ⟨?_, hw.written, hw.trace⟩
      rcases hgo with hidle | ⟨qs, hqs, hquiet⟩
      · exact State.quiet_of_idle hd' hidle
      · exact ⟨hd', hqs ▸ hquiet.append hps⟩

/-! ### The host requests (R207) -/

/-- A request of the host interface, the payload row among them. -/
def isHostRequest : Instr → Prop
  | .hCtrlRead _ | .hCtrlWrite _ _ | .hCtrlOther _ | .hStreamWrite _ | .hStreamRead _ _ | .hWrite32 _ _
  | .streamWritePayload _ _ => True
  | _ => False

theorem quietPhase_program {i : Instr} (h : isHostRequest i) (c : Config) : QuietPhase (program c i) := by
  cases i with
  | hCtrlRead addr => exact quietPhase_ctrlReadProg addr
  | hCtrlWrite addr value => exact quietPhase_ctrlWriteProg addr value
  | hCtrlOther code => exact .cons (.raise _ _) .nil
  | hStreamWrite bytes => exact quietPhase_streamWriteProg bytes
  | hStreamRead off n => exact quietPhase_streamReadProg off n
  | hWrite32 addr value => exact quietPhase_streamWriteProg _
  | streamWritePayload addr value => exact quietPhase_streamWriteProg _
  | _ => exact h.elim

theorem exec_writesNothing {i : Instr} {s t : State} (hi : isHostRequest i) (hd : s.cfg.programmingEnabled = false)
    (h : exec i s = .next t) : WritesNothing s t := by
  cases exec_next h with
  | waits q _ e => subst e; exact .of_same rfl rfl
  | answers v e => subst e; exact .of_same rfl rfl
  | unmapped _ e => subst e; exact .of_same rfl rfl
  | runs _ e =>
    have hbegin : (s.begin i).quiet := ⟨hd, (quietPhase_program hi s.cfg).append .nil⟩
    have hkeep := drive_keeps (P := fun u => u.quiet ∧ WritesNothing s u)
      (fun _ _ hu hv => ⟨(seqStep_quiet hu.1 hv).1, hu.2.trans (seqStep_quiet hu.1 hv).2⟩)
      ⟨hbegin, .of_same rfl rfl⟩ e
    exact hkeep.2

/-- Settles O58: the disabled guard ends every write, so that a host request runs reads and checks alone, none of which
writes a register (`seqStep_quiet`). -/
theorem disabledHostNeverPulses : Obligations.DisabledHostNeverPulses := by
  intro s t i hd _ _ hi h
  obtain ⟨hw, htrace⟩ := exec_writesNothing hi hd h
  simp only [State.written, Prod.mk.injEq] at hw
  obtain ⟨hpulses, hattempts, hfuses, hshadow, hmode, hadr, hpowered⟩ := hw
  exact ⟨hpulses, hattempts, hfuses, hshadow, hmode, hadr, hpowered, htrace⟩

end Sys2Proof.Machine
